-- ==== Sys2Proof/Word.lean ====
section
/-! DEFINITION. The word types of the block: 64-bit register values and lanes, bytes of memory, 32-bit checksums.
All values are unsigned (00_scope section 6); +, - and * of these types wrap (41_mix R86). -/

namespace Sys2Proof

/-- A host register, a lane or a word assembled from memory: 64 bits whatever the instance (10_state R11, R18; 00_scope R4,
`LANEW`, `SEEDW`, `WORD`). An address, whose width is a parameter, is a natural number. -/
abbrev Word := BitVec 64

/-- One byte of memory. -/
abbrev Byte := BitVec 8

/-- A CRC-32C checksum value (46_crc32 R140) or a 32-bit digest (45_narrow32 R130). -/
abbrev Half := BitVec 32

end Sys2Proof
end

