-- ==== Sys2Proof/Syntax.lean ====
section
/-! DEFINITION. The instructions: one constructor per row of spec/opcode_table.json (30_encoding R52 to R54, R58). -/

namespace Sys2Proof

/-- The rows of the opcode table. Commands are words the host writes to `CMD`; micro-operations are selected by the engine
from `USEL`; the loads are the memory-reading parts of `MIXBLOCK`, `CRCBLOCK` and `TAIL` and have no encoding. -/
inductive Instr where
  /-- `T1HA` (44_variants64 R113). -/
  | t1ha
  /-- `T1HA_64LE`, the alias of `T1HA` (44_variants64 R114, 30_encoding R53). -/
  | t1ha64le
  /-- `T1HA_64BE` (44_variants64 R115). -/
  | t1ha64be
  /-- `T1HA_32LE` (45_narrow32 R132). -/
  | t1ha32le
  /-- `T1HA_32BE` (45_narrow32 R133). -/
  | t1ha32be
  /-- `T1HA_IA32CRC` (46_crc32 R145), legal only on an instance with `HAS_CRC32C` (R146). -/
  | t1haIa32crc
  /-- `INIT` (41_mix R83, 46_crc32 R142). -/
  | init
  /-- `MIXBLOCK` (41_mix R84). -/
  | mixblock
  /-- `CRCBLOCK` (46_crc32 R143). -/
  | crcblock
  /-- `SQUASH` (41_mix R85). -/
  | squash
  /-- `CSQUASH` (46_crc32 R144). -/
  | csquash
  /-- `TAIL` (42_tail R90). -/
  | tail
  /-- `FINAL` (43_final R100). -/
  | final
  /-- `FOLD32` (45_narrow32 R131). -/
  | fold32
  /-- `LOAD64.LE(addr)` (40_load R70). -/
  | load64le (addr : Nat)
  /-- `LOAD64.BE(addr)` (40_load R71). -/
  | load64be (addr : Nat)
  /-- `TAILLD.LE(addr, n)`, 1 to 7 bytes (40_load R72). -/
  | tailldle (addr : Nat) (n : Nat)
  /-- `TAILLD.BE(addr, n)`, 1 to 7 bytes (40_load R73). -/
  | tailldbe (addr : Nat) (n : Nat)
  /-- `FETCHBLK` (40_load R74). -/
  | fetchblk
  /-- The write of a reserved word `w` to `CMD` (30_encoding R54). -/
  | reserved (w : Word)
deriving DecidableEq, Repr

end Sys2Proof
end

