-- ==== Sys2Proof/WellFormed.lean ====
section
/-! DEFINITION. Which instructions an instance has: the checks the spec puts on operands (40_load R72, R73), on the CRC command
(46_crc32 R146) and on reserved words (30_encoding R54). -/

namespace Sys2Proof

/-- The check on the byte count of a partial load: `1 <= n <= 7` (40_load R72, R73). -/
def byteCountOk (n : Nat) : Bool := decide (1 ≤ n) && decide (n ≤ 7)

/-- The words 30_encoding R54 lists as reserved, as a set of numbers: 5 and above (a bit of 63:3 set, or `OP` 101, 110,
111), and 4 on an instance without `HAS_CRC32C`. -/
def reservedOk (hasCrc : Bool) (w : Word) : Bool := decide (5 ≤ w.toNat) || (decide (w.toNat = 4) && !hasCrc)

/-- Well-formed on an instance whose `HAS_CRC32C` is `hasCrc`. -/
def Instr.wf (hasCrc : Bool) : Instr → Bool
  | .t1ha => true
  | .t1ha64le => true
  | .t1ha64be => true
  | .t1ha32le => true
  | .t1ha32be => true
  | .t1haIa32crc => hasCrc
  | .init => true
  | .mixblock => true
  | .crcblock => true
  | .squash => true
  | .csquash => true
  | .tail => true
  | .final => true
  | .fold32 => true
  | .load64le _ => true
  | .load64be _ => true
  | .tailldle _ n => byteCountOk n
  | .tailldbe _ n => byteCountOk n
  | .fetchblk => true
  | .reserved w => reservedOk hasCrc w

end Sys2Proof
end

