-- ==== Sys2Proof/Decode.lean ====
section
/-! DEFINITION. Reading and writing the two encodings of the spec: command words (30_encoding R50 to R54) and the
micro-operation selector `USEL` (30_encoding R58). The loads have no encoding. -/

namespace Sys2Proof

/-- The field `ZERO`, bits 63:3 of a command word (30_encoding R50). -/
def cmdZero (w : Word) : BitVec 61 := w.extractLsb' 3 61

/-- The field `OP`, bits 2:0 of a command word (30_encoding R50). -/
def cmdOp (w : Word) : BitVec 3 := w.extractLsb' 0 3

/-- The words that start no call (30_encoding R54): a bit of 63:3 set; `OP` 101, 110 or 111; `OP` 100 on an instance
without `HAS_CRC32C`. -/
def cmdReserved (hasCrc : Bool) (w : Word) : Bool :=
  decide (cmdZero w ≠ 0) || decide (cmdOp w = 0b101) || decide (cmdOp w = 0b110) || decide (cmdOp w = 0b111) ||
    (decide (cmdOp w = 0b100) && !hasCrc)

/-- The command a word written to `CMD` is, on an instance whose `HAS_CRC32C` is `hasCrc` (30_encoding R52 to R55). Total:
a word that is no command is `reserved`. The word 0 is `T1HA`: a decoder sees one command for the two mnemonics (R53). -/
def decodeCmd (hasCrc : Bool) (w : Word) : Instr :=
  if cmdReserved hasCrc w then .reserved w
  else if cmdOp w = 0b000 then .t1ha
  else if cmdOp w = 0b001 then .t1ha64be
  else if cmdOp w = 0b010 then .t1ha32le
  else if cmdOp w = 0b011 then .t1ha32be
  else .t1haIa32crc

/-- Why a selector selects no micro-operation (30_encoding R58). -/
inductive UselReject where
  /-- `USEL` = `-000`: the engine is idle. -/
  | engineIdle
  /-- `USEL` = `-111`: phase code 7 is not used and is never reached (10_state R20). -/
  | unusedPhase
deriving DecidableEq, Repr

/-- The micro-operation a selector selects (30_encoding R58). Total: a selector that selects nothing is rejected by name.
DESIGN CHOICE (log 33): `CRCBLOCK` and `CSQUASH` are there on every instance, where 46_crc32 R146 lets them be absent without
`HAS_CRC32C`; `VAR[2]` is then 0 in every call, so they are not selected. -/
def decodeUsel (u : BitVec 4) : Except UselReject Instr :=
  let phase : BitVec 3 := u.extractLsb' 0 3
  let crc : Bool := u.getLsbD 3
  if phase = 0b000 then .error .engineIdle
  else if phase = 0b001 then .ok .init
  else if phase = 0b010 then .ok (if crc then .crcblock else .mixblock)
  else if phase = 0b011 then .ok (if crc then .csquash else .squash)
  else if phase = 0b100 then .ok .tail
  else if phase = 0b101 then .ok .final
  else if phase = 0b110 then .ok .fold32
  else .error .unusedPhase

/-- The instruction of a bit pattern numbered as spec/opcode_table.json numbers it: a row of 64 bits is a command word (on
an instance that has the CRC command, the one on which every command row exists); a row of at most 8 bits (4 in the table)
is a selector, whose bits above the fourth are 0. Other lengths are no row of the table (log 18). -/
def decodeTableWord (nbits w : Nat) : Option Instr :=
  if nbits = 64 then
    if w < 2 ^ 64 then some (decodeCmd true (BitVec.ofNat 64 w)) else none
  else if nbits ≤ 8 ∧ w < 16 then
    match decodeUsel (BitVec.ofNat 4 w) with
    | .ok i => some i
    | .error _ => none
  else none

/-- The `CMD` word of a command (30_encoding R52, R53); a reserved word is its own encoding; nothing else has one. -/
def encodeCmd : Instr → Option Word
  | .t1ha => some 0x0000000000000000
  | .t1ha64le => some 0x0000000000000000
  | .t1ha64be => some 0x0000000000000001
  | .t1ha32le => some 0x0000000000000002
  | .t1ha32be => some 0x0000000000000003
  | .t1haIa32crc => some 0x0000000000000004
  | .reserved w => some w
  | .init => none
  | .mixblock => none
  | .crcblock => none
  | .squash => none
  | .csquash => none
  | .tail => none
  | .final => none
  | .fold32 => none
  | .load64le _ => none
  | .load64be _ => none
  | .tailldle _ _ => none
  | .tailldbe _ _ => none
  | .fetchblk => none

/-- The selector pattern of a micro-operation (30_encoding R58), as a row of bits with the `CRC` bit `x`: where the table
writes `-` the pattern takes either value of `x`, where it writes a digit only that one. -/
def encodeUsel (x : Bool) : Instr → Option (BitVec 4)
  | .init => some (BitVec.ofBool x ++ 0b001#3)
  | .mixblock => if x then none else some 0b0010
  | .crcblock => if x then some 0b1010 else none
  | .squash => if x then none else some 0b0011
  | .csquash => if x then some 0b1011 else none
  | .tail => some (BitVec.ofBool x ++ 0b100#3)
  | .final => some (BitVec.ofBool x ++ 0b101#3)
  | .fold32 => some (BitVec.ofBool x ++ 0b110#3)
  | .t1ha => none
  | .t1ha64le => none
  | .t1ha64be => none
  | .t1ha32le => none
  | .t1ha32be => none
  | .t1haIa32crc => none
  | .load64le _ => none
  | .load64be _ => none
  | .tailldle _ _ => none
  | .tailldbe _ _ => none
  | .fetchblk => none
  | .reserved _ => none

/-- The instruction a disassembler prints for an instruction's encoding: `T1HA` for the alias, itself for every other
(30_encoding R53). -/
def canonical (i : Instr) : Instr := if i = .t1ha64le then .t1ha else i

end Sys2Proof
end

