-- ==== Sys2Proof/Config.lean ====
section
/-! DEFINITION. What an instance fixes (00_scope R4, R5), and the free values: constants with no body, of which nothing can be
proved. -/

namespace Sys2Proof

/-- The configuration record of an instance (00_scope R4). `WORD`, `BLOCK`, `LANEW`, `SEEDW` and `CRCPOLY` have one value each
and are no fields. -/
structure Config where
  /-- `AW`, the bits in an address (R4; 20_memory R30): the address space has 2^`AW` addresses. -/
  aw : Nat
  /-- `LENW`, the bits in the length (R4). No other rule names it: `LEN` is a 64-bit register whose every value is legal
  (10_state R11, R13), and all of it is the length (log 21). -/
  lenw : Nat
  /-- Whether hash_mixer_crc32 is present (R4, R55; OPEN). -/
  hasCrc32c : Bool
  p0 : Word
  p1 : Word
  p2 : Word
  p3 : Word
  p4 : Word
  p5 : Word
  p6 : Word
  /-- The multiplier of the 32-bit fold (45_narrow32 R130). -/
  pf : Word
  s0 : Nat
  s1 : Nat
  s2 : Nat
  /-- `REG_BASE` (R4, OPEN): where the platform puts register 0. No rule reads it (10_state R11). -/
  regBase : Word
  /-- `REG_STRIDE` (R4, OPEN): the distance of two registers on the platform's bus. No rule reads it (10_state R11). -/
  regStride : Word
deriving DecidableEq, Repr

/-- The defaults of 00_scope R4. DESIGN CHOICE (log 7): `HAS_CRC32C`, `REG_BASE` and `REG_STRIDE` have no default in the
spec; here the instance has the CRC command, and the two bus parameters, which nothing reads, are 0 and 8. -/
def Config.default : Config where
  aw := 64
  lenw := 64
  hasCrc32c := true
  p0 := 0xEC99BF0D8372CAAB
  p1 := 0x82434FE90EDCEF39
  p2 := 0xD4F06DB99D67BE4B
  p3 := 0xBD9CACC22C6E9571
  p4 := 0x9C06FAF4D023E3AB
  p5 := 0xC060724A8424F345
  p6 := 0xCB5AF53AE3AAAC31
  pf := 0xBD9CACC22C6E9571
  s0 := 41
  s1 := 17
  s2 := 31
  regBase := 0
  regStride := 8

/-- A multiplier is odd (00_scope R5). -/
abbrev Config.odd (p : Word) : Prop := p.toNat % 2 = 1

/-- A rotate count is in 1 to 63 (00_scope R5). -/
abbrev Config.rotateCount (s : Nat) : Prop := 1 ≤ s ∧ s ≤ 63

/-- The constraints every configuration meets (00_scope R5). No other constraint is modelled. -/
abbrev Config.Wf (cfg : Config) : Prop :=
  Config.odd cfg.p0 ∧ Config.odd cfg.p1 ∧ Config.odd cfg.p2 ∧ Config.odd cfg.p3 ∧ Config.odd cfg.p4 ∧
  Config.odd cfg.p5 ∧ Config.odd cfg.p6 ∧ Config.odd cfg.pf ∧
  Config.rotateCount cfg.s0 ∧ Config.rotateCount cfg.s1 ∧ Config.rotateCount cfg.s2

/-- `CRCPOLY`, the reflected CRC-32C polynomial (00_scope R4, a value). -/
def crcPoly : Half := 0x82F63B78

/-- The number of addresses of an instance, 2^`AW` (00_scope R4, 20_memory R30). -/
def addressSpace (cfg : Config) : Nat := 2 ^ cfg.aw

/-- FREE VALUE (log 5): what a host read with an unspecified value returns, a fresh one for each value of the state's
counter. No body: nothing can be proved of it. -/
opaque Config.freeWord : Nat → Word

/-- FREE VALUE (log 6): which of the contents a byte held during the call a racing read returns (20_memory R44), fresh for
each micro-operation (the counter) and address. No body: nothing can be proved of it. -/
opaque Config.freePick : Nat → Nat → Nat

end Sys2Proof
end

