-- ==== Sys2Proof/Machine/State.lean ====
section
/-! DEFINITION. The state of the block (10_state R11 to R25), the memory it reads, the host's moves still to come, and the
reasons a step can stop. Plain data throughout. -/

namespace Sys2Proof.Machine

/-- `PHASE` (10_state R20). Code 7 is reached by no rule; R20 calls a type of seven values exact. -/
inductive Phase where
  | idle
  | init
  | block
  | squash
  | tail
  | final
  | fold32
deriving DecidableEq, Repr

/-- The five lanes (10_state R18). -/
structure Lanes where
  a : Word
  b : Word
  c : Word
  d : Word
  e : Word
deriving DecidableEq, Repr

/-- Which operand registers the host has written since reset (70_reset_and_hazards R183 P3). -/
structure Written where
  ptr : Bool
  len : Bool
  seed : Bool
deriving DecidableEq, Repr

/-- The six host registers (10_state R11). -/
inductive HostReg where
  | ptr
  | len
  | seed
  | cmd
  | status
  | digest
deriving DecidableEq, Repr

/-- The two kinds of agent that act on the state (10_state R10). -/
inductive Agent where
  | engine
  | host
deriving DecidableEq, Repr

/-- One move from outside the block. -/
inductive HostMove where
  /-- `WR reg, v` (30_encoding R59): a write of `v` to the register with this number, as an access of `bits` bits. -/
  | write (reg bits : Nat) (v : Word)
  /-- `RD reg` (30_encoding R59): a read of the register with this number, as an access of `bits` bits. -/
  | read (reg bits : Nat)
  /-- `WAIT` (30_encoding R59): reads `STATUS` and stays pending until `DONE` is read as 1. -/
  | wait
  /-- The reset event (70_reset_and_hazards R180). -/
  | reset
  /-- A write of one byte of memory by the host or another agent (10_state R10, 20_memory R44). -/
  | store (addr : Nat) (b : Byte)
deriving DecidableEq, Repr

/-- The reasons a step stops with a fault. The hardware itself raises none (60_exceptions R160). -/
inductive Fault where
  /-- A read request touches an address the memory does not admit: the micro-operation never happens and the engine is
  stuck (20_memory R43, 70_reset_and_hazards R185). Raised by `MIXBLOCK`, `CRCBLOCK`, `TAIL` and the loads, with the first
  address that is not admitted. Safe: no value is given. -/
  | readNotAdmitted (addr : Nat)
deriving DecidableEq, Repr

/-- The reasons the model gives no meaning. -/
inductive Refusal where
  /-- An instruction the model does not cover yet; raised only by `exec`'s arms that name it. Safe. -/
  | notModelled (mnemonic : String)
  /-- A partial load with a byte count outside 1 to 7, which is no call of the operation (40_load R72, R73). Raised by
  `TAILLD.LE` and `TAILLD.BE`. Safe. -/
  | byteCount (n : Nat)
  /-- A host access of a width other than 64 bits, which is not defined (10_state R11, 93_implementation_defined U11).
  Raised by the host's `write` and `read` moves. Safe. -/
  | accessWidth (bits : Nat)
  /-- A host access to a register number above 5 (93_implementation_defined U11). Raised by the host's `write` and `read`
  moves. Safe. -/
  | registerNumber (n : Nat)
  /-- A write of memory from outside at an address at or beyond 2^`AW`, where there is no memory (93_implementation_defined
  U12; log 36). Raised by the host's `store` move. Safe. -/
  | storeAddress (addr : Nat)
deriving DecidableEq, Repr

/-- The state. The spec's own fields first, the model's own after them. -/
structure State where
  /-- The configuration of the instance (00_scope R4); no step writes it. -/
  cfg : Config
  /-- Host register 0 (10_state R12). -/
  ptr : Word
  /-- Host register 1 (10_state R13). -/
  len : Word
  /-- Host register 2 (10_state R14). -/
  seed : Word
  /-- Host register 5 (10_state R17). -/
  digest : Word
  /-- `STATUS.DONE` (10_state R16). `BUSY` is computed from `phase` (R23). -/
  done : Bool
  /-- The lanes (10_state R18). -/
  lanes : Lanes
  /-- `VAR` (10_state R19): bit 0 `BE`, bit 1 `NARROW`, bit 2 `CRC`. -/
  var : BitVec 3
  /-- `PHASE` (10_state R20). -/
  phase : Phase
  /-- `OFF` (10_state R19): the number of buffer bytes consumed. -/
  off : Word
  /-- The readable memory: (address, byte) pairs, addresses strictly rising; an address not listed is not readable
  (20_memory R43; log 2). -/
  mem : List Host.Cell
  /-- Contents that bytes held since the accepted `START` and lost to a write during the call (20_memory R44; log 6). -/
  overwritten : List Host.Cell
  /-- Addresses that memory did not admit at the accepted `START` and that were written during the call: the call still has
  no memory there, the next one has (20_memory R43 "the launch memory"; log 28). -/
  late : List Nat
  /-- The operand registers written since reset, which the contract of a call asks for (70_reset_and_hazards R183 P3). No rule
  of the machine reads it (log 29). -/
  written : Written
  /-- MODEL'S OWN (log 8): the moves from outside still to come, oldest first. The engine reads of them only which contents
  bytes get before the call ends (20_memory R44; log 34). -/
  moves : List HostMove
  /-- MODEL'S OWN (log 8): whose turn it is at the next steps; when it is used up the engine moves first. -/
  sched : List Agent
  /-- MODEL'S OWN (log 16): what host reads returned, as (register number, value), newest first. -/
  replies : List (Nat × Word)
  /-- MODEL'S OWN (log 15): the addresses of the read requests since the accepted `START`, oldest first (20_memory R38). -/
  reads : List Nat
  /-- MODEL'S OWN (log 14): the words the load path handed over last (40_load R70 to R74). -/
  loadOut : List Word
  /-- MODEL'S OWN (log 5, log 6): the counter of free values. -/
  draws : Nat
deriving DecidableEq, Repr

/-- The state of an instance right after reset (10_state R25): `PHASE` is `IDLE` and `DONE` is 0. DESIGN CHOICE (log 1): the
registers R25 leaves unspecified are 0. -/
def State.resetOf (cfg : Config) : State where
  cfg := cfg
  ptr := 0
  len := 0
  seed := 0
  digest := 0
  done := false
  lanes := ⟨0, 0, 0, 0, 0⟩
  var := 0
  phase := .idle
  off := 0
  mem := []
  overwritten := []
  late := []
  written := ⟨false, false, false⟩
  moves := []
  sched := []
  replies := []
  reads := []
  loadOut := []
  draws := 0

/-- The machine right after reset, an instance of the default configuration with no readable memory (10_state R25; logs 1,
2, 7). -/
def State.reset : State := State.resetOf Config.default

/-! One update per field, or per group of fields that a rule writes together. -/

/-- A host write that `PTR` takes; the register counts as written since reset (70_reset_and_hazards R183 P3). -/
def State.setPtr (s : State) (v : Word) : State := { s with ptr := v, written := { s.written with ptr := true } }
/-- The same for `LEN`. -/
def State.setLen (s : State) (v : Word) : State := { s with len := v, written := { s.written with len := true } }
/-- The same for `SEED`. -/
def State.setSeed (s : State) (v : Word) : State := { s with seed := v, written := { s.written with seed := true } }
def State.setDigest (s : State) (v : Word) : State := { s with digest := v }
def State.setDone (s : State) (v : Bool) : State := { s with done := v }
def State.setLanes (s : State) (v : Lanes) : State := { s with lanes := v }
def State.setVar (s : State) (v : BitVec 3) : State := { s with var := v }
def State.setPhase (s : State) (v : Phase) : State := { s with phase := v }
def State.setOff (s : State) (v : Word) : State := { s with off := v }
/-- Memory, what it lost and where it grew during the call, written together (20_memory R43, R44). -/
def State.setMem (s : State) (m old : List Host.Cell) (late : List Nat) : State :=
  { s with mem := m, overwritten := old, late := late }
def State.setMoves (s : State) (v : List HostMove) : State := { s with moves := v }
def State.setSched (s : State) (v : List Agent) : State := { s with sched := v }
/-- The value a host read of register `n` returned. -/
def State.pushReply (s : State) (n : Nat) (v : Word) : State := { s with replies := (n, v) :: s.replies }
/-- The words the load path hands over and the addresses it requested for them. -/
def State.loaded (s : State) (ws : List Word) (addrs : List Nat) : State :=
  { s with loadOut := ws, reads := s.reads ++ addrs, draws := s.draws + 1 }
/-- A free value has been used. -/
def State.drawn (s : State) : State := { s with draws := s.draws + 1 }
/-- A call begins: no read of it has been requested, and memory has not been written during it. -/
def State.newCall (s : State) : State := { s with reads := [], overwritten := [], late := [] }

end Sys2Proof.Machine
end

