-- ==== Sys2Proof/Machine/Flags.lean ====
section
/-! DEFINITION. The two flags of `STATUS` and the fields of `VAR` (10_state R16, R19, R23; 30_encoding R51, R58). There is no
carry, overflow, error flag or condition code (R16). -/

namespace Sys2Proof.Machine

/-- `STATUS.BUSY`: a call is in progress, `PHASE != IDLE` (10_state R16, R23). -/
def busy (s : State) : Bool := decide (s.phase ≠ .idle)

/-- The word a host read of `STATUS` returns: 62 zero bits, `DONE`, `BUSY` (10_state R16, R22). -/
def statusWord (s : State) : Word := (0#62 ++ BitVec.ofBool s.done ++ BitVec.ofBool (busy s) : BitVec (62 + 1 + 1))

/-- `VAR[0]`: big-endian loads (30_encoding R51). -/
def varBe (v : BitVec 3) : Bool := v.getLsbD 0

/-- `VAR[1]`: a 32-bit digest (30_encoding R51). -/
def varNarrow (v : BitVec 3) : Bool := v.getLsbD 1

/-- `VAR[2]`: the CRC-32C block absorber (30_encoding R51). -/
def varCrc (v : BitVec 3) : Bool := v.getLsbD 2

/-- The code of a phase (10_state R20). -/
def phaseCode : Phase → BitVec 3
  | .idle => 0
  | .init => 1
  | .block => 2
  | .squash => 3
  | .tail => 4
  | .final => 5
  | .fold32 => 6

/-- The phase of a code; code 7 is not used (10_state R20). -/
def phaseOfCode (c : BitVec 3) : Option Phase :=
  if c = 0 then some .idle
  else if c = 1 then some .init
  else if c = 2 then some .block
  else if c = 3 then some .squash
  else if c = 4 then some .tail
  else if c = 5 then some .final
  else if c = 6 then some .fold32
  else none

/-- `USEL = {VAR[2], PHASE[2:0]}` (30_encoding R58). -/
def usel (s : State) : BitVec 4 := BitVec.ofBool (varCrc s.var) ++ phaseCode s.phase

/-- The end of a call: `STATUS.DONE <- 1`, `PHASE <- IDLE` (43_final R100, 45_narrow32 R131). -/
def completeCall (s : State) : State := (s.setDone true).setPhase .idle

/-- The phase after `INIT`, with `OFF = 0` (44_variants64 R111). -/
def phaseAfterInit (len : Word) : Phase :=
  if 32 ≤ len.toNat then .block else if 0 < len.toNat then .tail else .final

/-- The phase after a block, from `LEN` and the new `OFF` (44_variants64 R111). -/
def phaseAfterBlock (len off : Word) : Phase := if 32 ≤ (len - off).toNat then .block else .squash

/-- The phase after `SQUASH` or `CSQUASH` (44_variants64 R111). -/
def phaseAfterSquash (len off : Word) : Phase := if 0 < (len - off).toNat then .tail else .final

end Sys2Proof.Machine
end

