-- ==== Sys2Proof/Machine/Command.lean ====
section
/-! DEFINITION. The commands: `START`, the host write of a word to `CMD` (44_variants64 R110). An accepted command begins a call,
which the engine's micro-operations then carry out (44_variants64 R111 to R115, 45_narrow32 R132, R133, 46_crc32 R145). -/

namespace Sys2Proof.Machine

/-- The state after an accepted `START` of the word `w` (44_variants64 R110). -/
def acceptStart (s : State) (w : Word) : State :=
  (((s.setVar (cmdOp w)).setDone false).setPhase .init).newCall

/-- `START` (44_variants64 R110): dropped while a call runs (10_state R24), not accepted when the word is reserved
(30_encoding R54), accepted otherwise. The two non-accepting cases change nothing (log 4). -/
def start (s : State) (w : Word) : Host.Outcome State Fault Refusal :=
  if s.phase ≠ .idle then .next s
  else if cmdReserved s.cfg.hasCrc32c w then .next s
  else .next (acceptStart s w)

/-- `T1HA` (44_variants64 R113): word 0. -/
def execT1ha (s : State) : Host.Outcome State Fault Refusal := start s 0x0000000000000000

/-- `T1HA_64LE` (44_variants64 R114): the same word as `T1HA`. -/
def execT1ha64le (s : State) : Host.Outcome State Fault Refusal := start s 0x0000000000000000

/-- `T1HA_64BE` (44_variants64 R115): word 1. -/
def execT1ha64be (s : State) : Host.Outcome State Fault Refusal := start s 0x0000000000000001

/-- `T1HA_32LE` (45_narrow32 R132): word 2. -/
def execT1ha32le (s : State) : Host.Outcome State Fault Refusal := start s 0x0000000000000002

/-- `T1HA_32BE` (45_narrow32 R133): word 3. -/
def execT1ha32be (s : State) : Host.Outcome State Fault Refusal := start s 0x0000000000000003

/-- `T1HA_IA32CRC` (46_crc32 R145): word 4, reserved on an instance without `HAS_CRC32C` (R146). -/
def execT1haIa32crc (s : State) : Host.Outcome State Fault Refusal := start s 0x0000000000000004

/-- The write of a reserved word to `CMD` (30_encoding R54): no state changes. -/
def execReserved (w : Word) (s : State) : Host.Outcome State Fault Refusal := start s w

end Sys2Proof.Machine
end

