-- ==== Sys2Proof/Machine/Ops.lean ====
section
/-! DEFINITION. The named operations: memory bytes, reading bytes (20_memory R31, R32, R43, R44), and the arithmetic primitives
(41_mix R80 to R82, 45_narrow32 R130, 46_crc32 R140, R141). The hardware has no exception to take or return from
(60_exceptions R160, R166, R167), so no operation does either. -/

namespace Sys2Proof.Machine

/-- The byte memory lists at an address; `none` where it is not readable. -/
def memByte : List Host.Cell → Nat → Option Byte
  | [], _ => none
  | (k, b) :: m, a => if k = a then some b else memByte m a

/-- Memory with a byte written, in canonical form. -/
def memPut : List Host.Cell → Nat → Byte → List Host.Cell
  | [], a, b => [(a, b)]
  | (k, c) :: m, a, b =>
    if a < k then (a, b) :: (k, c) :: m
    else if a = k then (a, b) :: m
    else (k, c) :: memPut m a b

/-- Every address of the list is above `k`, and they rise strictly. -/
def memAbove : Nat → List Host.Cell → Bool
  | _, [] => true
  | k, (a, _) :: m => decide (k < a) && memAbove a m

/-- The canonical form of memory in an address space of `space` addresses: addresses strictly rising, each below `space`. (An address that is not listed reads as no
value, which no entry can equal.) -/
def memWf (space : Nat) : List Host.Cell → Bool
  | [] => true
  | (a, b) :: m => memAbove a m && ((a, b) :: m).all (fun c => decide (c.1 < space))

/-- The contents such a list has for an address: of `overwritten`, those the byte held since the accepted `START` and lost to a
write during the call; of `laterWrites`, those it will be given before the call ends (20_memory R44). -/
def lostAt (old : List Host.Cell) (a : Nat) : List Byte :=
  (old.filter (fun c => decide (c.1 = a))).map Prod.snd

/-- `r = LEN - OFF`, the bytes not yet consumed (42_tail R90). -/
def remaining (s : State) : Nat := (s.len - s.off).toNat

/-- The engine steps of a call once its full blocks are squashed, `r` bytes being left: `TAIL` if there are any, `FINAL`, and
`FOLD32` for a narrowing command (44_variants64 R111, R118). -/
def stepsFromTail (narrow : Bool) (r : Nat) : Nat :=
  (if 0 < r % 32 then 1 else 0) + 1 + (if narrow then 1 else 0)

/-- The engine steps of the call in progress, from the one at hand to the one that sets `DONE` (44_variants64 R111, R118). -/
def stepsLeft (s : State) : Nat :=
  match s.phase with
  | .idle => 0
  | .init => 1 + (if 32 ≤ s.len.toNat then s.len.toNat / 32 + 1 else 0) + stepsFromTail (varNarrow s.var) s.len.toNat
  | .block => remaining s / 32 + 1 + stepsFromTail (varNarrow s.var) (remaining s)
  | .squash => 1 + stepsFromTail (varNarrow s.var) (remaining s)
  | .tail => 1 + stepsFromTail (varNarrow s.var) 0
  | .final => stepsFromTail (varNarrow s.var) 0
  | .fold32 => 1

/-- The turns the schedule gives the host before it has given the engine `k` (log 8). A schedule that is used up gives the
host none, since the engine then moves first. -/
def hostTurns : Nat → List Agent → Nat
  | _, [] => 0
  | k, .engine :: sc => hostTurns (k - 1) sc
  | k, .host :: sc => if k = 0 then 0 else hostTurns k sc + 1

/-- The writes of memory among these moves of the host, as far as they happen while a call runs: none after a `WAIT`, which
stays pending until the call has ended, after the reset event, which ends it, or after a move that is refused. -/
def storesOf (cfg : Config) : List HostMove → List Host.Cell
  | [] => []
  | .store a b :: ms => if a < addressSpace cfg then (a, b) :: storesOf cfg ms else []
  | .write n bits _ :: ms => if bits = 64 ∧ n ≤ 5 then storesOf cfg ms else []
  | .read n bits :: ms => if bits = 64 ∧ n ≤ 5 then storesOf cfg ms else []
  | .wait :: _ => []
  | .reset :: _ => []

/-- The writes of memory from outside that happen before the engine has taken `k` more steps (20_memory R44). -/
def writesWithin (s : State) (k : Nat) : List Host.Cell := storesOf s.cfg (s.moves.take (hostTurns k s.sched))

/-- The contents that bytes get by a write after the micro-operation at hand and before the call ends (20_memory R44, "during
the call"; log 34). -/
def laterWrites (s : State) : List Host.Cell := writesWithin s (stepsLeft s - 1)

/-- The content a read returns: the present one, or, when the byte is written during the call, any of the `others` it holds in
it, freely (20_memory R44, 93_implementation_defined U2; log 6). -/
def pickContent (draw a : Nat) (now : Byte) : List Byte → Byte
  | [] => now
  | o :: os => (now :: o :: os).getD (Config.freePick draw a % (os.length + 2)) now

/-- `M(a)`: the memory's answer for one byte (20_memory R32), or none where the memory at the call's launch does not admit the
address (R43; log 28); there is no memory at or beyond 2^`AW` (93_implementation_defined U12; log 11). Every read of a byte that is
written during the call draws from all the contents the byte has in it, also from those written after the read (R44; log 34).

DESIGN CHOICE (log 35): a load run on its own while the engine is idle, which the spec does not have, draws from the present
content and those lost during the call that has ended; the next accepted `START` and the reset event forget these. -/
def byteAt (s : State) (a : Nat) : Option Byte :=
  if a < addressSpace s.cfg ∧ a ∉ s.late then
    match memByte s.mem a with
    | some b => some (pickContent s.draws a b (lostAt s.overwritten a ++ lostAt (laterWrites s) a))
    | none => none
  else none

/-- `MemRead(addr, n)` (20_memory R32): the bytes at `addr` to `addr+n-1` in that order, or the first address memory does
not admit. -/
def memRead (s : State) (addr : Nat) : Nat → Except Nat (List Byte)
  | 0 => .ok []
  | n + 1 =>
    match byteAt s addr with
    | none => .error addr
    | some b =>
      match memRead s (addr + 1) n with
      | .error e => .error e
      | .ok bs => .ok (b :: bs)

/-- A write during a call keeps the content the byte had as one a racing read may still return (20_memory R44). -/
def overwrittenAfter (s : State) (a : Nat) : List Host.Cell :=
  match memByte s.mem a with
  | none => s.overwritten
  | some c => if s.phase = .idle then s.overwritten else (a, c) :: s.overwritten

/-- Where memory had no byte at the launch of the call, a write during the call gives it none (20_memory R43; log 28). -/
def lateAfter (s : State) (a : Nat) : List Nat :=
  if s.phase ≠ .idle ∧ memByte s.mem a = none then a :: s.late else s.late

/-- A write of one byte by an agent outside the block (10_state R10). DESIGN CHOICE (log 30): the model has no map of the
platform (20_memory R40), so a byte written while the engine is idle is readable from then on, at every address of the space;
one written during a call is from the next call on (log 28). -/
def storeByte (s : State) (a : Nat) (b : Byte) : State :=
  s.setMem (memPut s.mem a b) (overwrittenAfter s a) (lateAfter s a)

/-- `rot64(v, s)`: rotate right (41_mix R80). -/
def rot64 (v : Word) (s : Nat) : Word := (v >>> s) ||| (v <<< (64 - s))

/-- `full(u * v)`, the exact 128-bit product (00_scope section 6). -/
def fullMul (u v : Word) : BitVec 128 := u.setWidth 128 * v.setWidth 128

/-- `mux64(v, p)`: the exclusive or of the two halves of the full product (41_mix R81). -/
def mux64 (v p : Word) : Word := (fullMul v p).extractLsb' 0 64 ^^^ (fullMul v p).extractLsb' 64 64

/-- `mix(v, p)` with the instance's rotate count `S0` (41_mix R82). -/
def mix (s0 : Nat) (v p : Word) : Word := v * p ^^^ rot64 (v * p) s0

/-- `fold32(h)` with the instance's multiplier `PF` (45_narrow32 R130). -/
def fold32 (pf h : Word) : Half := (mux64 h pf).extractLsb' 32 32 ^^^ (mux64 h pf).extractLsb' 0 32

/-- One of the eight shifts of `crc32c_u8` (46_crc32 R140). -/
def crcShift (c : Half) : Half := if c.getLsbD 0 then (c >>> 1) ^^^ crcPoly else c >>> 1

/-- The shifts of `crc32c_u8`, `n` times (46_crc32 R140). -/
def crcShifts : Nat → Half → Half
  | 0, c => c
  | n + 1, c => crcShifts n (crcShift c)

/-- `crc32c_u8(c, x)` (46_crc32 R140). -/
def crc32cU8 (c : Half) (x : Byte) : Half := crcShifts 8 (c ^^^ x.setWidth 32)

/-- The bytes of a word, least significant first (46_crc32 R141). -/
def wordBytes (w : Word) : List Byte := (List.range 8).map (fun i => w.extractLsb' (8 * i) 8)

/-- `crc32c_u64(c, w)` (46_crc32 R141). -/
def crc32cU64 (c : Half) (w : Word) : Half := (wordBytes w).foldl crc32cU8 c

/-- `bswap64`: the eight bytes of a word in reverse order (40_load R75). -/
def bswap64 (w : Word) : Word :=
  w.extractLsb' 0 8 ++ w.extractLsb' 8 8 ++ w.extractLsb' 16 8 ++ w.extractLsb' 24 8 ++
    w.extractLsb' 32 8 ++ w.extractLsb' 40 8 ++ w.extractLsb' 48 8 ++ w.extractLsb' 56 8

end Sys2Proof.Machine
end

