-- ==== Sys2Proof/Machine/Operands.lean ====
section
/-! DEFINITION. The operand forms: host register numbers (10_state R11), loads of full and partial words in either byte order
(40_load R70 to R73), the block fetch (40_load R74) and the words of the tail (42_tail R90). -/

namespace Sys2Proof.Machine

/-- The register a number names (10_state R11); numbers above 5 name none. -/
def regOfNumber : Nat → Option HostReg
  | 0 => some .ptr
  | 1 => some .len
  | 2 => some .seed
  | 3 => some .cmd
  | 4 => some .status
  | 5 => some .digest
  | _ => none

/-- Bytes in the order of their addresses as a little-endian number: byte `i` shifted left by `8*i` (40_load R70, R72). The
first argument is the index of the first byte. -/
def assembleLe : Nat → List Byte → Word
  | _, [] => 0
  | i, b :: bs => (b.setWidth 64 <<< (8 * i)) ||| assembleLe (i + 1) bs

/-- Bytes in the order of their addresses as a big-endian number: of `n` bytes, byte `i` shifted left by `8*(n-1-i)`, the
number of bytes after it (40_load R71, R73). -/
def assembleBe : List Byte → Word
  | [] => 0
  | b :: bs => (b.setWidth 64 <<< (8 * bs.length)) ||| assembleBe bs

/-- Assembly in the byte order of the command (20_memory R34). -/
def assemble (be : Bool) (bs : List Byte) : Word := if be then assembleBe bs else assembleLe 0 bs

/-- The `n` bytes at `addr` as a word in the given byte order: `LOAD64` for `n = 8` (40_load R70, R71), `TAILLD` for `n` from
1 to 7 (R72, R73). -/
def loadWord (s : State) (be : Bool) (addr n : Nat) : Except Nat Word := do
  let m ← memRead s addr n
  pure (assemble be m)

/-- The four words of a block as the mixer takes them (40_load R74). -/
structure Block where
  w0 : Word
  w1 : Word
  w2 : Word
  w3 : Word
deriving DecidableEq, Repr

/-- The words of a block in the order `w0` to `w3`. -/
def blockWords (w : Block) : List Word := [w.w0, w.w1, w.w2, w.w3]

/-- The order in which the variant hands the four loaded words to the mixer: reversed when `VAR[0] = 1` (40_load R74). -/
def orderBlock (be : Bool) (v0 v1 v2 v3 : Word) : Block := if be then ⟨v3, v2, v1, v0⟩ else ⟨v0, v1, v2, v3⟩

/-- The address of the next unread byte, `PTR + OFF`, as a natural number (20_memory R31; log 11). -/
def nextAddr (s : State) : Nat := s.ptr.toNat + s.off.toNat

/-- `FETCHBLK` (40_load R74): four full-word loads in increasing address order. -/
def fetchBlock (s : State) : Except Nat Block := do
  let be := varBe s.var
  let v0 ← loadWord s be (nextAddr s) 8
  let v1 ← loadWord s be (nextAddr s + 8) 8
  let v2 ← loadWord s be (nextAddr s + 16) 8
  let v3 ← loadWord s be (nextAddr s + 24) 8
  pure (orderBlock be v0 v1 v2 v3)

/-- The addresses of a block fetch, in the order of the requests (20_memory R38). -/
def blockAddrs (s : State) : List Nat := List.range' (nextAddr s) 32

/-- `ceil8(r)` (00_scope section 6). -/
def ceil8 (r : Nat) : Nat := (r + 7) / 8

/-- The tail words from `addr` on, `k` of them left to load, of a tail of `r` bytes (42_tail R90): a full word, except that
the last is partial when `r mod 8` is not 0. -/
def tailWords (s : State) (be : Bool) (r : Nat) : Nat → Nat → Except Nat (List Word)
  | 0, _ => pure []
  | k + 1, addr => do
    let v ← loadWord s be addr (if 0 < k ∨ r % 8 = 0 then 8 else r % 8)
    let vs ← tailWords s be r k (addr + 8)
    pure (v :: vs)

/-- The loads of `TAIL` (42_tail R90). -/
def fetchTail (s : State) : Except Nat (List Word) :=
  tailWords s (varBe s.var) (remaining s) (ceil8 (remaining s)) (nextAddr s)

/-- The addresses of the tail's loads, in the order of the requests (20_memory R38). -/
def tailAddrs (s : State) : List Nat := List.range' (nextAddr s) (remaining s)

end Sys2Proof.Machine
end

