-- ==== Sys2Proof/Machine/Crc.lean ====
section
/-! DEFINITION. The CRC-32C block absorber (46_crc32): the CRC form of `INIT`, `CRCBLOCK` and `CSQUASH`. -/

namespace Sys2Proof.Machine

/-- The lanes after `INIT` when `VAR[2] = 1` (46_crc32 R142). -/
def initLanesCrc (len seed : Word) : Lanes where
  a := seed
  b := len
  c := (len.extractLsb' 0 32).setWidth 64
  d := (seed.extractLsb' 0 32).setWidth 64
  e := ((~~~seed ^^^ len).extractLsb' 0 32).setWidth 64

/-- The lane formulas of `CRCBLOCK` (46_crc32 R143). Lane `b` is not touched. -/
def crcBlock (cfg : Config) (l : Lanes) (w : Block) : Lanes where
  a := rot64 l.a cfg.s1 + cfg.p0 * w.w0
  b := l.b
  c := l.c + (crc32cU64 (l.d.extractLsb' 0 32) w.w1).setWidth 64
  d := l.d + (crc32cU64 (l.e.extractLsb' 0 32) w.w2).setWidth 64
  e := l.e + (crc32cU64 ((l.a + l.c).extractLsb' 0 32) w.w3).setWidth 64

/-- The lane formulas of `CSQUASH` (46_crc32 R144). -/
def csquashLanes (cfg : Config) (l : Lanes) : Lanes :=
  { l with
    a := l.a ^^^ (l.c * cfg.p5 + l.d * cfg.p6 + l.e)
    b := l.b ^^^ (l.c + l.d * cfg.p5 + l.e * cfg.p6) }

/-- `CRCBLOCK` (46_crc32 R143). DESIGN CHOICE (log 32): with `VAR[0] = 1`, which no call has beside `VAR[2] = 1`, its fetch
follows `VAR[0]` as 30_encoding R58 and 40_load R74 say, where R143 takes it with `VAR[0] = 0`. -/
def execCrcblock (s : State) : Host.Outcome State Fault Refusal :=
  match fetchBlock s with
  | .error a => .fault (.readNotAdmitted a)
  | .ok w =>
    .next ((((s.loaded (blockWords w) (blockAddrs s)).setLanes (crcBlock s.cfg s.lanes w)).setOff (s.off + 32)).setPhase
      (phaseAfterBlock s.len (s.off + 32)))

/-- `CSQUASH` (46_crc32 R144). -/
def execCsquash (s : State) : Host.Outcome State Fault Refusal :=
  .next ((s.setLanes (csquashLanes s.cfg s.lanes)).setPhase (phaseAfterSquash s.len s.off))

end Sys2Proof.Machine
end

