-- ==== Sys2Proof/Machine/Final.lean ====
section
/-! DEFINITION. The finaliser (43_final) and the 32-bit fold (45_narrow32): `FINAL` and `FOLD32`. -/

namespace Sys2Proof.Machine

/-- The 64-bit digest `FINAL` computes (43_final R100). -/
def finalDigest (cfg : Config) (l : Lanes) (len : Word) : Word :=
  mux64 (rot64 (l.a + l.b) cfg.s1) cfg.p4 + mix cfg.s0 ((l.a ^^^ l.b) + len) cfg.p0

/-- `FINAL` (43_final R100). -/
def execFinal (s : State) : Host.Outcome State Fault Refusal :=
  let t := s.setDigest (finalDigest s.cfg s.lanes s.len)
  .next (if varNarrow s.var then t.setPhase .fold32 else completeCall t)

/-- `FOLD32` (45_narrow32 R131). -/
def execFold32 (s : State) : Host.Outcome State Fault Refusal :=
  .next (completeCall (s.setDigest ((fold32 s.cfg.pf s.digest).setWidth 64)))

end Sys2Proof.Machine
end

