-- ==== Sys2Proof/Machine/Load.lean ====
section
/-! DEFINITION. The load and read primitives as instructions of their own (40_load R70 to R74): each hands its value over in
`loadOut` (log 14) and records the addresses it requests. -/

namespace Sys2Proof.Machine

/-- The shared shape of `LOAD64` and `TAILLD`: the `n` bytes at `addr` in a byte order, handed over as one word. DESIGN CHOICE
(log 31): a stand-alone load gives the value also where the address lies outside the buffer window, to which 00_scope section
6 admits `MemRead`; the loads inside a call lie in the window (20_memory R37). -/
def loadInto (s : State) (be : Bool) (addr : Nat) (n : Nat) : Host.Outcome State Fault Refusal :=
  match loadWord s be addr n with
  | .error a => .fault (.readNotAdmitted a)
  | .ok v => .next (s.loaded [v] (List.range' addr n))

/-- `LOAD64.LE(addr)` (40_load R70). -/
def execLoad64le (addr : Nat) (s : State) : Host.Outcome State Fault Refusal := loadInto s false addr 8

/-- `LOAD64.BE(addr)` (40_load R71). -/
def execLoad64be (addr : Nat) (s : State) : Host.Outcome State Fault Refusal := loadInto s true addr 8

/-- `TAILLD.LE(addr, n)` (40_load R72); a count outside 1 to 7 is no call of the operation. -/
def execTailldle (addr : Nat) (n : Nat) (s : State) : Host.Outcome State Fault Refusal :=
  if byteCountOk n then loadInto s false addr n else .refused (.byteCount n)

/-- `TAILLD.BE(addr, n)` (40_load R73); a count outside 1 to 7 is no call of the operation. -/
def execTailldbe (addr : Nat) (n : Nat) (s : State) : Host.Outcome State Fault Refusal :=
  if byteCountOk n then loadInto s true addr n else .refused (.byteCount n)

/-- `FETCHBLK` (40_load R74). -/
def execFetchblk (s : State) : Host.Outcome State Fault Refusal :=
  match fetchBlock s with
  | .error a => .fault (.readNotAdmitted a)
  | .ok w => .next (s.loaded (blockWords w) (blockAddrs s))

end Sys2Proof.Machine
end

