-- ==== Sys2Proof/Machine/Mix.lean ====
section
/-! DEFINITION. The core mixing step (41_mix): `INIT`, `MIXBLOCK` and `SQUASH`. -/

namespace Sys2Proof.Machine

/-- The lanes after `INIT` when `VAR[2] = 0` (41_mix R83). -/
def initLanes (cfg : Config) (len seed : Word) : Lanes where
  a := seed
  b := len
  c := rot64 len cfg.s1 + seed
  d := len ^^^ rot64 seed cfg.s1
  e := 0

/-- The lane formulas of `MIXBLOCK` (41_mix R84), every right-hand side with the old lanes. Lane `e` is not touched. -/
def mixBlock (cfg : Config) (l : Lanes) (w : Block) : Lanes :=
  let d02 := w.w0 ^^^ rot64 (w.w2 + l.d) cfg.s1
  let c13 := w.w1 ^^^ rot64 (w.w3 + l.c) cfg.s1
  { a := l.a ^^^ (cfg.p1 * (d02 + w.w3))
    b := l.b ^^^ (cfg.p0 * (c13 + w.w2))
    c := l.c + (l.a ^^^ rot64 w.w0 cfg.s0)
    d := l.d - (l.b ^^^ rot64 w.w1 cfg.s2)
    e := l.e }

/-- The lane formulas of `SQUASH` (41_mix R85). -/
def squashLanes (cfg : Config) (l : Lanes) : Lanes :=
  { l with
    a := l.a ^^^ (cfg.p6 * (rot64 l.c cfg.s1 + l.d))
    b := l.b ^^^ (cfg.p5 * (l.c + rot64 l.d cfg.s1)) }

/-- `INIT` (41_mix R83; 46_crc32 R142 when `VAR[2] = 1`). -/
def execInit (s : State) : Host.Outcome State Fault Refusal :=
  .next (((s.setLanes (if varCrc s.var then initLanesCrc s.len s.seed else initLanes s.cfg s.len s.seed)).setOff 0).setPhase
    (phaseAfterInit s.len))

/-- `MIXBLOCK` (41_mix R84). -/
def execMixblock (s : State) : Host.Outcome State Fault Refusal :=
  match fetchBlock s with
  | .error a => .fault (.readNotAdmitted a)
  | .ok w =>
    .next ((((s.loaded (blockWords w) (blockAddrs s)).setLanes (mixBlock s.cfg s.lanes w)).setOff (s.off + 32)).setPhase
      (phaseAfterBlock s.len (s.off + 32)))

/-- `SQUASH` (41_mix R85). -/
def execSquash (s : State) : Host.Outcome State Fault Refusal :=
  .next ((s.setLanes (squashLanes s.cfg s.lanes)).setPhase (phaseAfterSquash s.len s.off))

end Sys2Proof.Machine
end

