-- ==== Sys2Proof/Machine/Tail.lean ====
section
/-! DEFINITION. The tail handler (42_tail): `TAIL`. -/

namespace Sys2Proof.Machine

/-- Absorb the tail words in order (42_tail R90): with `m` words left, counting the one at hand, the word meets lane `b` and
`P4` (`m = 4`), `a` and `P3` (3), `b` and `P2` (2), `a` and `P1` (1). -/
def tailAbsorb (cfg : Config) (l : Lanes) : List Word → Lanes
  | [] => l
  | v :: vs =>
    tailAbsorb cfg
      (if vs.length = 3 then { l with b := l.b + mux64 v cfg.p4 }
       else if vs.length = 2 then { l with a := l.a + mux64 v cfg.p3 }
       else if vs.length = 1 then { l with b := l.b + mux64 v cfg.p2 }
       else if vs.length = 0 then { l with a := l.a + mux64 v cfg.p1 }
       else l) vs

/-- `TAIL` (42_tail R90). -/
def execTail (s : State) : Host.Outcome State Fault Refusal :=
  match fetchTail s with
  | .error a => .fault (.readNotAdmitted a)
  | .ok vs =>
    .next ((((s.loaded vs (tailAddrs s)).setLanes (tailAbsorb s.cfg s.lanes vs)).setOff s.len).setPhase .final)

end Sys2Proof.Machine
end

