-- ==== Sys2Proof/Machine/Dispatch.lean ====
section
/-! DEFINITION. The meaning of every instruction: one arm per row of spec/opcode_table.json. -/

namespace Sys2Proof.Machine

def exec (i : Instr) (s : State) : Host.Outcome State Fault Refusal :=
  match i with
  | .t1ha => Sys2Proof.Machine.execT1ha s
  | .t1ha64le => Sys2Proof.Machine.execT1ha64le s
  | .t1ha64be => Sys2Proof.Machine.execT1ha64be s
  | .t1ha32le => Sys2Proof.Machine.execT1ha32le s
  | .t1ha32be => Sys2Proof.Machine.execT1ha32be s
  | .t1haIa32crc => Sys2Proof.Machine.execT1haIa32crc s
  | .init => Sys2Proof.Machine.execInit s
  | .mixblock => Sys2Proof.Machine.execMixblock s
  | .crcblock => Sys2Proof.Machine.execCrcblock s
  | .squash => Sys2Proof.Machine.execSquash s
  | .csquash => Sys2Proof.Machine.execCsquash s
  | .tail => Sys2Proof.Machine.execTail s
  | .final => Sys2Proof.Machine.execFinal s
  | .fold32 => Sys2Proof.Machine.execFold32 s
  | .load64le addr => Sys2Proof.Machine.execLoad64le addr s
  | .load64be addr => Sys2Proof.Machine.execLoad64be addr s
  | .tailldle addr n => Sys2Proof.Machine.execTailldle addr n s
  | .tailldbe addr n => Sys2Proof.Machine.execTailldbe addr n s
  | .fetchblk => Sys2Proof.Machine.execFetchblk s
  | .reserved w => Sys2Proof.Machine.execReserved w s

end Sys2Proof.Machine
end

