-- ==== Sys2Proof/Machine/Host.lean ====
section
/-! DEFINITION. The host's moves (10_state R22, R24; 70_reset_and_hazards R180, R182, R188) and the engine's step (44_variants64
R112). -/

namespace Sys2Proof.Machine

/-- A 64-bit host write of a register (10_state R22): `PTR`, `LEN` and `SEED` take the value unless a call runs, when the
write is dropped (R24); a write of `CMD` is the command the word decodes to; writes of `STATUS` and `DIGEST` are dropped. -/
def hostWrite (r : HostReg) (v : Word) (s : State) : Host.Outcome State Fault Refusal :=
  match r with
  | .ptr => .next (if busy s then s else s.setPtr v)
  | .len => .next (if busy s then s else s.setLen v)
  | .seed => .next (if busy s then s else s.setSeed v)
  | .cmd => exec (decodeCmd s.cfg.hasCrc32c v) s
  | .status => .next s
  | .digest => .next s

/-- A 64-bit host read of a register (10_state R22). What the spec leaves unspecified is a free value: `CMD` at any time
(R15) and `DIGEST` while `DONE = 0` (R17) (log 5). -/
def hostRead (r : HostReg) (s : State) : State :=
  match r with
  | .ptr => s.pushReply 0 s.ptr
  | .len => s.pushReply 1 s.len
  | .seed => s.pushReply 2 s.seed
  | .cmd => (s.pushReply 3 (Config.freeWord s.draws)).drawn
  | .status => s.pushReply 4 (statusWord s)
  | .digest => if s.done then s.pushReply 5 s.digest else (s.pushReply 5 (Config.freeWord s.draws)).drawn

/-- The reset event (70_reset_and_hazards R180, R181): every register at its value after reset; memory is not touched, the
configuration is the instance's, and what is outside the block (moves, schedule, replies, free values) goes on. -/
def resetEvent (s : State) : State :=
  { State.resetOf s.cfg with
    mem := s.mem
    moves := s.moves
    sched := s.sched
    replies := s.replies
    draws := s.draws }

/-- One host move, taken from the pending ones (of which `s` holds the rest). `wait` stays pending until it reads `DONE` as
1 (30_encoding R59). An access of another width or register number is not defined (10_state R11; log 27), and a write of memory
beyond the address space has nowhere to go (93_implementation_defined U12; log 36). -/
def hostMove (m : HostMove) (s : State) : Host.Outcome State Fault Refusal :=
  match m with
  | .write n bits v =>
    if bits ≠ 64 then .refused (.accessWidth bits)
    else match regOfNumber n with
      | none => .refused (.registerNumber n)
      | some r => hostWrite r v s
  | .read n bits =>
    if bits ≠ 64 then .refused (.accessWidth bits)
    else match regOfNumber n with
      | none => .refused (.registerNumber n)
      | some r => .next (hostRead r s)
  | .wait =>
    .next (if s.done then hostRead .status s else (hostRead .status s).setMoves (.wait :: s.moves))
  | .reset => .next (resetEvent s)
  | .store addr b => if addr < addressSpace s.cfg then .next (storeByte s addr b) else .refused (.storeAddress addr)

/-- The host moves of `CALL <command> p, n, s` (30_encoding R59, 70_reset_and_hazards R182), `w` the command's word. -/
def callMoves (w p n sd : Word) : List HostMove :=
  [.write 0 64 p, .write 1 64 n, .write 2 64 sd, .write 3 64 w, .wait, .read 5 64]

/-- The engine's step (44_variants64 R112): the micro-operation `USEL` selects. An idle engine has no step: nothing
happens. -/
def engineStep (s : State) : Host.Outcome State Fault Refusal :=
  match decodeUsel (usel s) with
  | .ok i => exec i s
  | .error _ => .next s

/-- Whether the engine has an enabled step: it is not idle and memory admits what the micro-operation reads (44_variants64
R112, 20_memory R43). -/
def engineEnabled (s : State) : Bool :=
  busy s &&
    match engineStep s with
    | .next _ => true
    | .fault _ => false
    | .refused _ => false

/-- Whose turn it is: the schedule's next entry; the engine's when the schedule is used up (70_reset_and_hazards R187; log
8). -/
def turn (s : State) : Agent := s.sched.headD .engine

/-- The state with this step's turn taken off the schedule. -/
def afterTurn (s : State) : State := s.setSched s.sched.tail

/-- One move of the machine, `who` having the turn: the agent whose turn it is moves if it can, else the other does (10_state
R10; log 8). With no host move pending only the engine can move: idle, nothing happens; stuck, its fault is the machine's. -/
def moveOf (who : Agent) (s : State) : Host.Outcome State Fault Refusal :=
  match s.moves with
  | [] => engineStep s
  | m :: ms =>
    match who with
    | .host => hostMove m (s.setMoves ms)
    | .engine => if engineEnabled s then engineStep s else hostMove m (s.setMoves ms)

end Sys2Proof.Machine
end

