-- ==== Sys2Proof/Machine/Step.lean ====
section
/-! DEFINITION. One step of the machine: one engine step or one host move (10_state R10), and how the host places an
instruction so that the next step runs it. -/

namespace Sys2Proof.Machine

/-- One step: the agent whose turn it is moves (10_state R10, 44_variants64 R112). -/
def step (s : State) : Host.Outcome State Fault Refusal := moveOf (turn s) (afterTurn s)

/-- `s` with an instruction of the opcode table placed so that the next step runs it (log 10). A command word (64 bits) is
the host's next move, a write to `CMD`, and the host has the turn. A selector (30_encoding R58) is put where the engine reads
it, in `PHASE` and `VAR[2]`, and the engine has the turn. -/
def State.withFetchWord (s : State) (nbits w : Nat) : State :=
  if nbits ≤ 8 then
    let u : BitVec 4 := BitVec.ofNat 4 w
    { s with
      phase := (phaseOfCode (u.extractLsb' 0 3)).getD .idle
      var := u.extractLsb' 3 1 ++ s.var.extractLsb' 0 2
      sched := .engine :: s.sched }
  else
    { s with
      moves := .write 3 64 (BitVec.ofNat 64 w) :: s.moves
      sched := .host :: s.sched }

end Sys2Proof.Machine
end

