-- ==== Sys2Proof/Machine/BigStep.lean ====
section
/-! DEFINITION. A call as a function of the buffer and the seed: `H64` (44_variants64 R116), `H32` (45_narrow32 R130) and `HCRC`
(46_crc32 R147), and the number of engine steps of a call (44_variants64 R118). -/

namespace Sys2Proof.Machine

/-- `word_o(B, p)` and `part_o(B, p, n)`: the bytes `B[p ..]`, at most 8 of them, in a byte order (44_variants64 R116). -/
def bufferWord (be : Bool) (B : List Byte) (p : Nat) : Word := assemble be ((B.drop p).take 8)

/-- The words of full block `j` as the mixer takes them (44_variants64 R116). -/
def bufferBlock (be : Bool) (B : List Byte) (j : Nat) : Block :=
  orderBlock be (bufferWord be B (32 * j)) (bufferWord be B (32 * j + 8)) (bufferWord be B (32 * j + 16))
    (bufferWord be B (32 * j + 24))

/-- The words of the tail `B[32*n .. L-1]` (42_tail R90): `ceil8(L mod 32)` of them, the last one possibly partial. -/
def bufferTail (be : Bool) (B : List Byte) : List Word :=
  (List.range (ceil8 (B.length % 32))).map (fun i => bufferWord be B (32 * (B.length / 32) + 8 * i))

/-- The lanes after the full blocks, `absorb` being the block formulas (44_variants64 R116, 46_crc32 R147). -/
def absorbBlocks (absorb : Lanes → Block → Lanes) (be : Bool) (B : List Byte) (l : Lanes) : Lanes :=
  (List.range (B.length / 32)).foldl (fun l j => absorb l (bufferBlock be B j)) l

/-- `H64(o, B, S)` (44_variants64 R116). -/
def h64 (cfg : Config) (be : Bool) (B : List Byte) (seed : Word) : Word :=
  let len := BitVec.ofNat 64 B.length
  let l := absorbBlocks (mixBlock cfg) be B (initLanes cfg len seed)
  let l := if 1 ≤ B.length / 32 then squashLanes cfg l else l
  finalDigest cfg (tailAbsorb cfg l (bufferTail be B)) len

/-- `H32(o, B, S)` (45_narrow32 R130). -/
def h32 (cfg : Config) (be : Bool) (B : List Byte) (seed : Word) : Half := fold32 cfg.pf (h64 cfg be B seed)

/-- `HCRC(B, S)` (46_crc32 R147). -/
def hcrc (cfg : Config) (B : List Byte) (seed : Word) : Word :=
  let len := BitVec.ofNat 64 B.length
  let l := absorbBlocks (crcBlock cfg) false B (initLanesCrc len seed)
  let l := if 1 ≤ B.length / 32 then csquashLanes cfg l else l
  finalDigest cfg (tailAbsorb cfg l (bufferTail false B)) len

/-- What `DIGEST` holds after a call of the command whose opcode is `op` (44_variants64 R113, R115; 45_narrow32 R132, R133;
46_crc32 R145). -/
def callDigest (cfg : Config) (op : BitVec 3) (B : List Byte) (seed : Word) : Word :=
  if varCrc op then hcrc cfg B seed
  else if varNarrow op then (h32 cfg (varBe op) B seed).setWidth 64
  else h64 cfg (varBe op) B seed

/-- The number of engine steps of a call (44_variants64 R118). -/
def callSteps (len : Nat) (op : BitVec 3) : Nat :=
  1 + len / 32 + (if 1 ≤ len / 32 then 1 else 0) + (if 0 < len % 32 then 1 else 0) + 1 + (if varNarrow op then 1 else 0)

/-- The phases of a call: the one before each engine step, and `IDLE` after the last (44_variants64 R111, R118). -/
def callPhases (len : Nat) (op : BitVec 3) : List Phase :=
  [.init] ++ List.replicate (len / 32) .block ++ (if 1 ≤ len / 32 then [.squash] else []) ++
    (if 0 < len % 32 then [.tail] else []) ++ [.final] ++ (if varNarrow op then [.fold32] else []) ++ [.idle]

end Sys2Proof.Machine
end

