-- ==== Sys2Proof/Safety.lean ====
section
/-! DEFINITION. The terms claims use: the buffer window and the contract of a call (20_memory R31, 70_reset_and_hazards R183), and
the invariant of the machine (10_state R20, R23; 20_memory R37, R38; 44_variants64 R118). -/

namespace Sys2Proof.Machine

/-- The `n` bytes from `addr` on are memory, and were when the call was launched (20_memory R43). -/
def Readable (s : State) (addr n : Nat) : Prop :=
  ∀ i, i < n → addr + i < addressSpace s.cfg ∧ (memByte s.mem (addr + i)).isSome ∧ addr + i ∉ s.late

/-- No byte of the `n` from `addr` on has been written since the accepted `START`, or is written later in the call
(70_reset_and_hazards R183 P5). -/
def Unwritten (s : State) (addr n : Nat) : Prop :=
  ∀ i, i < n →
    lostAt s.overwritten (addr + i) = [] ∧ lostAt (laterWrites s) (addr + i) = [] ∧ addr + i ∉ s.late

/-- Memory holds the bytes `B` from `addr` on, and none of them is written during the call (20_memory R32, R41). -/
def HoldsBytes (s : State) (addr : Nat) (B : List Byte) : Prop :=
  (∀ i, i < B.length → addr + i < addressSpace s.cfg ∧ memByte s.mem (addr + i) = B[i]?) ∧ Unwritten s addr B.length

/-- The number bytes spell with the first one least significant: the sum of `B[i] * 2^(8*i)` (40_load R70, R72). -/
def leNat : List Byte → Nat
  | [] => 0
  | b :: bs => b.toNat + 256 * leNat bs

/-- The number bytes spell with the first one most significant (40_load R71, R73). -/
def beNat (B : List Byte) : Nat := leNat B.reverse

/-- An address lies in the buffer window (20_memory R31). -/
def InWindow (s : State) (a : Nat) : Prop := s.ptr.toNat ≤ a ∧ a < s.ptr.toNat + s.len.toNat

/-- The window `[p, p+n)` holds the bytes `B` and does not pass the end of the address space (70_reset_and_hazards R183 P4).
DESIGN CHOICE (log 37): an empty window is a buffer at every address, as decision D35 says of `PTR` when `LEN = 0`, also where
`p` lies beyond 2^`AW`, which P4 read literally shuts out. -/
def HoldsBuffer (s : State) (p n : Word) (B : List Byte) : Prop :=
  B.length = n.toNat ∧ (n ≠ 0 → p.toNat + n.toNat ≤ addressSpace s.cfg) ∧
    ∀ i, i < B.length → memByte s.mem (p.toNat + i) = B[i]?

/-- A word is a command of the instance (30_encoding R52, R54; 70_reset_and_hazards R183 P1). -/
def LegalCommand (cfg : Config) (w : Word) : Prop :=
  w = 0 ∨ w = 1 ∨ w = 2 ∨ w = 3 ∨ (w = 4 ∧ cfg.hasCrc32c = true)

/-- What holds of a call in each phase (10_state R20, 44_variants64 R118, 20_memory R38): `OFF` never passes `LEN`, is a
multiple of 32 whenever a block or the tail is fetched, and exactly the bytes before `OFF` have been read, once each, in
order. -/
def CallInv (s : State) : Prop :=
  match s.phase with
  | .idle => True
  | .init => s.reads = []
  | .block => s.off.toNat + 32 ≤ s.len.toNat ∧ s.off.toNat % 32 = 0 ∧ s.reads = List.range' s.ptr.toNat s.off.toNat
  | .squash =>
    s.off.toNat ≤ s.len.toNat ∧ s.len.toNat < s.off.toNat + 32 ∧ 32 ≤ s.off.toNat ∧ s.off.toNat % 32 = 0 ∧
      s.reads = List.range' s.ptr.toNat s.off.toNat
  | .tail =>
    s.off.toNat < s.len.toNat ∧ s.len.toNat < s.off.toNat + 32 ∧ s.off.toNat % 32 = 0 ∧
      s.reads = List.range' s.ptr.toNat s.off.toNat
  | .final => s.off = s.len ∧ s.reads = List.range' s.ptr.toNat s.len.toNat
  | .fold32 => s.off = s.len ∧ s.reads = List.range' s.ptr.toNat s.len.toNat ∧ varNarrow s.var = true

/-- The invariant of the machine: memory is in canonical form, the configuration is one (00_scope R5), `DONE` implies `IDLE`
(10_state R23), a running call's `VAR` is the opcode of a command of the instance, and `CallInv`. -/
structure Inv (s : State) : Prop where
  mem : memWf (addressSpace s.cfg) s.mem = true
  cfg : s.cfg.Wf
  done : s.done = true → s.phase = .idle
  var : s.phase ≠ .idle → LegalCommand s.cfg (s.var.setWidth 64)
  call : CallInv s

/-- The operand registers have been written since reset, `PTR` only if `LEN` is not 0 (70_reset_and_hazards R183 P3). -/
def OperandsWritten (s : State) : Prop :=
  s.written.len = true ∧ s.written.seed = true ∧ (s.len ≠ 0 → s.written.ptr = true)

/-- What a claim about a call takes as premises at the host write of the command word `w` (70_reset_and_hazards R183 P1 to
P4): the word is legal, the engine idle, the operands written, the window holds `B`. P5 and P6, which bind the host's moves
during the call, are `KeepsContract`. -/
structure InContract (s : State) (w : Word) (B : List Byte) : Prop where
  legal : LegalCommand s.cfg w
  idle : s.phase = .idle
  operands : OperandsWritten s
  buffer : HoldsBuffer s s.ptr s.len B

/-- A move that keeps the contract of a call on the window of `s` (70_reset_and_hazards R183 P5, P6): it is not the reset
event, and it writes no byte of the window. -/
def KeepsContract (s : State) : HostMove → Prop
  | .write _ _ _ => True
  | .read _ _ => True
  | .wait => True
  | .reset => False
  | .store addr _ => ¬ InWindow s addr

/-- The engine is stuck: it is in a call and memory does not admit the reads of its next micro-operation (20_memory R43,
70_reset_and_hazards R185). -/
def Stuck (s : State) : Prop := s.phase ≠ .idle ∧ ∃ a, engineStep s = .fault (.readNotAdmitted a)

/-- The host moves that leave memory and the call alone: every move but the reset event and a write of memory. -/
def leavesCallAlone : HostMove → Bool
  | .write _ _ _ => true
  | .read _ _ => true
  | .wait => true
  | .reset => false
  | .store _ _ => false

/-- The host moves that only observe: reads and `WAIT`. -/
def onlyObserves : HostMove → Bool
  | .read _ _ => true
  | .wait => true
  | .write _ _ _ => false
  | .reset => false
  | .store _ _ => false

/-- `k` steps of the machine, up to the first fault or refusal. -/
def runSteps (k : Nat) (s : State) : Host.Outcome State Fault Refusal := Host.Core.run Sys2Proof.core k s

end Sys2Proof.Machine
end

