-- ==== Sys2Proof/Certificates/Slice0/Obligations.lean ====
section
/-! DEFINITION. The statements for the provers, each from the rules of spec/ its docstring cites. -/

open Sys2Proof Sys2Proof.Machine

/-! ## Reset -/

/-- 10_state section 8: after reset `PHASE` is `IDLE`, `DONE` is 0 and `STATUS` reads 0, on an instance of any
configuration, and a command of the instance is accepted. -/
def Obligations.ResetStateIsIdleAndReady : Prop :=
  State.reset = State.resetOf Config.default ∧
  ∀ cfg : Config,
    (State.resetOf cfg).phase = .idle ∧ (State.resetOf cfg).done = false ∧ statusWord (State.resetOf cfg) = 0 ∧
    ∀ w, LegalCommand cfg w →
      ∃ t, hostMove (.write 3 64 w) (State.resetOf cfg) = .next t ∧ t.phase = .init ∧ t.var = w.extractLsb' 0 3

/-- R180: the reset event, at any time the host has the turn, whatever the phase: `PHASE <- IDLE`, `DONE <- 0`, `STATUS`
reads 0, memory and configuration are not touched, and the block accepts a command of the instance. -/
def Obligations.ResetEventLeavesTheBlockIdle : Prop :=
  ∀ (s : State) (ms : List HostMove) (sc : List Agent), s.moves = .reset :: ms → s.sched = .host :: sc →
    ∃ t, step s = .next t ∧ t.phase = .idle ∧ t.done = false ∧ statusWord t = 0 ∧ t.mem = s.mem ∧ t.cfg = s.cfg ∧
      t.moves = ms ∧ t.sched = sc ∧
      ∀ w, LegalCommand t.cfg w →
        ∃ u, hostMove (.write 3 64 w) t = .next u ∧ u.phase = .init ∧ u.var = w.extractLsb' 0 3

/-! ## The host's register accesses -/

/-- R12 to R14, R22: while idle the operand registers take the value written, and nothing else changes (that the
register counts as written since reset is recorded, log 29); a write of `STATUS` or `DIGEST` is dropped in every phase. -/
def Obligations.HostWritesSetOperandRegisters : Prop :=
  ∀ (s : State) (v : Word),
    (s.phase = .idle →
      hostMove (.write 0 64 v) s = .next { s with ptr := v, written := { s.written with ptr := true } } ∧
      hostMove (.write 1 64 v) s = .next { s with len := v, written := { s.written with len := true } } ∧
      hostMove (.write 2 64 v) s = .next { s with seed := v, written := { s.written with seed := true } }) ∧
    hostMove (.write 4 64 v) s = .next s ∧ hostMove (.write 5 64 v) s = .next s

/-- R24: a write to `PTR`, `LEN`, `SEED` or `CMD` during a call is dropped, whatever the value (for `CMD`: whatever the
word). -/
def Obligations.WritesDuringACallAreDropped : Prop :=
  ∀ (s : State) (n : Nat) (v : Word), s.phase ≠ .idle → n ≤ 3 → hostMove (.write n 64 v) s = .next s

/-- R22: what a host read returns where the spec gives the value, in every phase; a read changes nothing. -/
def Obligations.HostReadsReturnTheRegisters : Prop :=
  ∀ s : State,
    hostMove (.read 0 64) s = .next { s with replies := (0, s.ptr) :: s.replies } ∧
    hostMove (.read 1 64) s = .next { s with replies := (1, s.len) :: s.replies } ∧
    hostMove (.read 2 64) s = .next { s with replies := (2, s.seed) :: s.replies } ∧
    (∃ v : Word, hostMove (.read 4 64) s = .next { s with replies := (4, v) :: s.replies } ∧
      v.toNat = (if s.done then 2 else 0) + (if s.phase = .idle then 0 else 1)) ∧
    (s.done = true → hostMove (.read 5 64) s = .next { s with replies := (5, s.digest) :: s.replies })

/-- R15, R17 (the model's choice, log 5): a read of `CMD`, and of `DIGEST` while `DONE = 0`, returns some value, which is
free, and changes nothing but the counter of free values. -/
def Obligations.UnspecifiedReadsReturnSomeValue : Prop :=
  ∀ s : State,
    (∃ v, hostMove (.read 3 64) s = .next { s with replies := (3, v) :: s.replies, draws := s.draws + 1 }) ∧
    (s.done = false →
      ∃ v, hostMove (.read 5 64) s = .next { s with replies := (5, v) :: s.replies, draws := s.draws + 1 })

/-- 10_state R11, 40_load R72, R73 (refusing them is the model's choice, log 27): an access of a width other than 64 bits, one of
a register number above 5, and a partial load with a byte count outside 1 to 7, none of which the spec defines, are refused by
name. -/
def Obligations.UndefinedAccessesAreRefused : Prop :=
  ∀ (s : State) (n bits : Nat) (v : Word) (addr : Nat),
    (bits ≠ 64 →
      hostMove (.write n bits v) s = .refused (.accessWidth bits) ∧
      hostMove (.read n bits) s = .refused (.accessWidth bits)) ∧
    (5 < n →
      hostMove (.write n 64 v) s = .refused (.registerNumber n) ∧
      hostMove (.read n 64) s = .refused (.registerNumber n)) ∧
    (n = 0 ∨ 8 ≤ n →
      exec (.tailldle addr n) s = .refused (.byteCount n) ∧ exec (.tailldbe addr n) s = .refused (.byteCount n))

/-- R59: `WAIT` reads `STATUS`; it ends when `DONE` is read as 1 and stays pending otherwise. -/
def Obligations.WaitPollsStatusUntilDone : Prop :=
  ∀ s : State,
    (s.done = true → hostMove .wait s = .next { s with replies := (4, statusWord s) :: s.replies }) ∧
    (s.done = false →
      hostMove .wait s = .next { s with replies := (4, statusWord s) :: s.replies, moves := .wait :: s.moves })

/-- R10, R43, R44: a write of memory from outside puts the byte there (at every address of the space, also where memory had
none: the model's choice, which R40 leaves open, log 30) and leaves every other byte; during a call the content
lost is kept as one a racing read may return, and where memory had no byte the call still has none (the form of these two
records is the model's, logs 6, 28); nothing else of the state changes. A write at or beyond 2^`AW`, where there is no memory
(U12), is refused by name (the model's choice, log 36). -/
def Obligations.MemoryWriteFromOutside : Prop :=
  ∀ (s : State) (a : Nat) (b : Byte),
    (a < 2 ^ s.cfg.aw →
      ∃ t, hostMove (.store a b) s = .next t ∧ memByte t.mem a = some b ∧
        (∀ k, k ≠ a → memByte t.mem k = memByte s.mem k) ∧
        (∀ k, k ≠ a → lostAt t.overwritten k = lostAt s.overwritten k) ∧
        (s.phase = .idle → t.overwritten = s.overwritten ∧ t.late = s.late) ∧
        (s.phase ≠ .idle → ∀ c, memByte s.mem a = some c →
          lostAt t.overwritten a = c :: lostAt s.overwritten a ∧ t.late = s.late) ∧
        (s.phase ≠ .idle → memByte s.mem a = none → t.overwritten = s.overwritten ∧ t.late = a :: s.late) ∧
        t = { s with mem := t.mem, overwritten := t.overwritten, late := t.late }) ∧
    (2 ^ s.cfg.aw ≤ a → hostMove (.store a b) s = .refused (.storeAddress a))

/-- R23: `BUSY` (bit 0 of `STATUS`) is 1 exactly when `PHASE != IDLE`, `DONE` is bit 1, the other bits are 0; and every
step keeps that `DONE = 1` implies `PHASE = IDLE`. -/
def Obligations.StatusFlagsFollowPhase : Prop :=
  (∀ s : State, ((statusWord s).getLsbD 0 = true ↔ s.phase ≠ .idle) ∧ (statusWord s).getLsbD 1 = s.done ∧
    ∀ i, 2 ≤ i → (statusWord s).getLsbD i = false) ∧
  ∀ s t : State, (s.done = true → s.phase = .idle) → step s = .next t → (t.done = true → t.phase = .idle)

/-- R24, R165: during a call no host move other than the reset event and a write of memory changes anything but the pending
moves, the replies and the counter of free values. -/
def Obligations.HostAccessesDoNotDisturbACall : Prop :=
  ∀ (s t : State) (m : HostMove), s.phase ≠ .idle → leavesCallAlone m = true → hostMove m s = .next t →
    t = { s with moves := t.moves, replies := t.replies, draws := t.draws }

/-! ## Encodings -/

/-- R52: a word selects a row of the command set exactly when `w & mask = match`; the CRC row only on an instance that has
it. -/
def Obligations.CommandSetIsTheTable : Prop :=
  ∀ (hc : Bool) (w : Word),
    (decodeCmd hc w = .t1ha ↔ w &&& 0xFFFFFFFFFFFFFFFF = 0x0000000000000000) ∧
    (decodeCmd hc w = .t1ha64be ↔ w &&& 0xFFFFFFFFFFFFFFFF = 0x0000000000000001) ∧
    (decodeCmd hc w = .t1ha32le ↔ w &&& 0xFFFFFFFFFFFFFFFF = 0x0000000000000002) ∧
    (decodeCmd hc w = .t1ha32be ↔ w &&& 0xFFFFFFFFFFFFFFFF = 0x0000000000000003) ∧
    (decodeCmd hc w = .t1haIa32crc ↔ w &&& 0xFFFFFFFFFFFFFFFF = 0x0000000000000004 ∧ hc = true)

/-- R54: the reserved words are those with a bit of 63:3 set, the opcodes 101, 110 and 111, and 4 on an instance without
`HAS_CRC32C`; writing one changes nothing, in any state. -/
def Obligations.ReservedWordsChangeNothing : Prop :=
  (∀ (hc : Bool) (w : Word), decodeCmd hc w = .reserved w ↔
    (w.extractLsb' 3 61 ≠ 0 ∨ w.extractLsb' 0 3 = 0b101 ∨ w.extractLsb' 0 3 = 0b110 ∨ w.extractLsb' 0 3 = 0b111 ∨
      (w = 4 ∧ hc = false))) ∧
  ∀ (s : State) (w : Word), decodeCmd s.cfg.hasCrc32c w = .reserved w →
    exec (.reserved w) s = .next s ∧ hostMove (.write 3 64 w) s = .next s

/-- R52, R53, R54, R58: decoding an encoding gives the instruction back (the alias as `T1HA`), for every well-formed
instruction of every instance; encoding what a word or a selector decodes to gives it back; and only the loads have no
encoding. -/
def Obligations.DecodeEncodeAgree : Prop :=
  (∀ (hc : Bool) (i : Instr), i.wf hc = true →
    (∀ w, encodeCmd i = some w → decodeCmd hc w = canonical i) ∧
    (∀ x u, encodeUsel x i = some u → decodeUsel u = .ok i) ∧
    (encodeCmd i = none → (∀ x, encodeUsel x i = none) →
      i = .fetchblk ∨ (∃ a, i = .load64le a ∨ i = .load64be a) ∨ ∃ a n, i = .tailldle a n ∨ i = .tailldbe a n)) ∧
  (∀ (hc : Bool) (w : Word), encodeCmd (decodeCmd hc w) = some w ∧ (decodeCmd hc w).wf hc = true) ∧
  ∀ (u : BitVec 4) (i : Instr), decodeUsel u = .ok i → encodeUsel (u.getLsbD 3) i = some u

/-- R53: the alias has the word of `T1HA`, a decoder sees one command, a disassembler prints `T1HA`, and the call is the
same. -/
def Obligations.AliasIsTheSameCommand : Prop :=
  encodeCmd .t1ha64le = encodeCmd .t1ha ∧ encodeCmd .t1ha64le = some 0x0000000000000000 ∧
  (∀ hc, decodeCmd hc 0x0000000000000000 = .t1ha) ∧ canonical .t1ha64le = .t1ha ∧
  ∀ s : State, exec .t1ha64le s = exec .t1ha s

/-- R52, R54, R58: words and selectors written out from the spec's encodings decode to what they stand for. -/
def Obligations.EncodingsOfTheSpecDecode : Prop :=
  decodeTableWord 64 0x0000000000000000 = some .t1ha ∧
  decodeTableWord 64 0x0000000000000001 = some .t1ha64be ∧
  decodeTableWord 64 0x0000000000000002 = some .t1ha32le ∧
  decodeTableWord 64 0x0000000000000003 = some .t1ha32be ∧
  decodeTableWord 64 0x0000000000000004 = some .t1haIa32crc ∧
  decodeTableWord 64 0x0000000100000000 = some (.reserved 0x0000000100000000) ∧
  decodeTableWord 8 0b0001 = some .init ∧
  decodeTableWord 8 0b0010 = some .mixblock ∧
  decodeTableWord 8 0b1010 = some .crcblock ∧
  decodeTableWord 8 0b1011 = some .csquash

/-- R58: the table of the selector is complete: each of its sixteen values selects the micro-operation the table gives, or
nothing. -/
def Obligations.SelectorTableIsComplete : Prop :=
  (∀ x : Bool,
    decodeUsel (BitVec.ofBool x ++ 0b000#3) = .error .engineIdle ∧
    decodeUsel (BitVec.ofBool x ++ 0b001#3) = .ok .init ∧
    decodeUsel (BitVec.ofBool x ++ 0b100#3) = .ok .tail ∧
    decodeUsel (BitVec.ofBool x ++ 0b101#3) = .ok .final ∧
    decodeUsel (BitVec.ofBool x ++ 0b110#3) = .ok .fold32 ∧
    decodeUsel (BitVec.ofBool x ++ 0b111#3) = .error .unusedPhase) ∧
  decodeUsel 0b0010 = .ok .mixblock ∧ decodeUsel 0b1010 = .ok .crcblock ∧
  decodeUsel 0b0011 = .ok .squash ∧ decodeUsel 0b1011 = .ok .csquash ∧
  ∀ s : State, usel s = BitVec.ofBool (s.var.getLsbD 2) ++ phaseCode s.phase

/-! ## Starting a call -/

/-- R110: `START`, the write of any word to `CMD`: dropped in a call, not accepted when reserved, else `VAR`, `DONE` and
`PHASE` are written, and nothing else of the block; and no other host move begins a call. (`reads`, `overwritten` and `late`,
the model's records of a call, begin anew: logs 6, 15, 28.) -/
def Obligations.StartFollowsItsRule : Prop :=
  ∀ (s : State) (w : Word),
    (s.phase ≠ .idle → hostMove (.write 3 64 w) s = .next s) ∧
    (s.phase = .idle → ¬ LegalCommand s.cfg w → hostMove (.write 3 64 w) s = .next s) ∧
    (s.phase = .idle → LegalCommand s.cfg w →
      hostMove (.write 3 64 w) s =
        .next { s with
          var := w.extractLsb' 0 3, done := false, phase := .init, reads := [], overwritten := [], late := [] }) ∧
    ∀ (t : State) (m : HostMove), s.phase = .idle → hostMove m s = .next t → t.phase ≠ .idle →
      ∃ v, m = .write 3 64 v ∧ LegalCommand s.cfg v

/-- R51, R113 to R115, R132, R133, R145, R146: every command, written while the block is idle, begins its call with its
opcode in `VAR`; the CRC command does on an instance that has it and changes nothing on one that has not. -/
def Obligations.CommandsBeginTheirCalls : Prop :=
  ∀ s : State, s.phase = .idle →
    exec .t1ha s = .next { s with var := 0b000, done := false, phase := .init, reads := [], overwritten := [], late := [] } ∧
    exec .t1ha64le s = .next { s with var := 0b000, done := false, phase := .init, reads := [], overwritten := [], late := [] } ∧
    exec .t1ha64be s = .next { s with var := 0b001, done := false, phase := .init, reads := [], overwritten := [], late := [] } ∧
    exec .t1ha32le s = .next { s with var := 0b010, done := false, phase := .init, reads := [], overwritten := [], late := [] } ∧
    exec .t1ha32be s = .next { s with var := 0b011, done := false, phase := .init, reads := [], overwritten := [], late := [] } ∧
    (s.cfg.hasCrc32c = true → exec .t1haIa32crc s =
      .next { s with var := 0b100, done := false, phase := .init, reads := [], overwritten := [], late := [] }) ∧
    (s.cfg.hasCrc32c = false → exec .t1haIa32crc s = .next s)

/-! ## A step -/

/-- 44_variants64 section 1, 30_encoding R50: when the host has the turn and its oldest move is a write of `CMD`, the step is
`exec` of the instruction the word decodes to, which is well-formed, with that move and that turn taken. -/
def Obligations.StepRunsTheWrittenCommand : Prop :=
  ∀ (s : State) (w : Word) (ms : List HostMove) (sc : List Agent),
    s.moves = .write 3 64 w :: ms → s.sched = .host :: sc →
    (decodeCmd s.cfg.hasCrc32c w).wf s.cfg.hasCrc32c = true ∧
    step s = exec (decodeCmd s.cfg.hasCrc32c w) { s with moves := ms, sched := sc }

/-- R58, R112: when the engine has the turn and the selector selects an instruction, the step is `exec` of it (with that turn
taken), if it can happen or no host move is pending. -/
def Obligations.StepRunsTheSelectedMicroOperation : Prop :=
  ∀ (s : State) (i : Instr), s.sched.head? ≠ some .host → decodeUsel (usel s) = .ok i →
    (∀ t, exec i { s with sched := s.sched.tail } = .next t → step s = .next t) ∧
    (s.moves = [] → step s = exec i { s with sched := s.sched.tail })

/-- R10, R112, R187 (who moves is the model's choice, log 8): with no host move pending an idle machine stays as it is (log 9)
and any other takes the engine's step, whose fault, when it is stuck, is then the machine's (log 3); a host move that has the
turn happens; when the engine has the turn (or the schedule is used up) and can step it does, and else the host's oldest move
happens. -/
def Obligations.OneAgentMovesAtAStep : Prop :=
  ∀ (s : State) (m : HostMove) (ms : List HostMove),
    (s.moves = [] → s.phase = .idle → step s = .next { s with sched := s.sched.tail }) ∧
    (s.moves = [] → s.phase ≠ .idle → step s = engineStep { s with sched := s.sched.tail }) ∧
    (s.moves = m :: ms → s.sched.head? = some .host →
      step s = hostMove m { s with moves := ms, sched := s.sched.tail }) ∧
    (s.moves = m :: ms → s.sched.head? ≠ some .host → s.phase ≠ .idle →
      ∀ t, engineStep { s with sched := s.sched.tail } = .next t → step s = .next t) ∧
    (s.moves = m :: ms → s.phase = .idle ∨ Stuck s →
      step s = hostMove m { s with moves := ms, sched := s.sched.tail })

/-! ## The micro-operations -/

/-- R83, R142: `INIT`, for both values of `VAR[2]`. -/
def Obligations.InitSetsLanesAndPhase : Prop :=
  ∀ s : State,
    exec .init s =
      .next { s with
        lanes :=
          if s.var.getLsbD 2 then
            { a := s.seed
              b := s.len
              c := (s.len.setWidth 32).setWidth 64
              d := (s.seed.setWidth 32).setWidth 64
              e := ((~~~s.seed ^^^ s.len).setWidth 32).setWidth 64 }
          else
            { a := s.seed
              b := s.len
              c := rot64 s.len s.cfg.s1 + s.seed
              d := s.len ^^^ rot64 s.seed s.cfg.s1
              e := 0 }
        off := 0
        phase := if 32 ≤ s.len.toNat then .block else if 0 < s.len.toNat then .tail else .final }

/-- R84: `MIXBLOCK`, whenever memory admits the 32 bytes at `PTR + OFF`. (`loadOut`, `reads` and `draws` are the model's
records: logs 14, 15, 6.) -/
def Obligations.MixblockAbsorbsABlock : Prop :=
  ∀ s : State, Readable s (s.ptr.toNat + s.off.toNat) 32 →
    ∃ w, fetchBlock s = .ok w ∧
      exec .mixblock s =
        .next { s with
          lanes :=
            { a := s.lanes.a ^^^ (s.cfg.p1 * ((w.w0 ^^^ rot64 (w.w2 + s.lanes.d) s.cfg.s1) + w.w3))
              b := s.lanes.b ^^^ (s.cfg.p0 * ((w.w1 ^^^ rot64 (w.w3 + s.lanes.c) s.cfg.s1) + w.w2))
              c := s.lanes.c + (s.lanes.a ^^^ rot64 w.w0 s.cfg.s0)
              d := s.lanes.d - (s.lanes.b ^^^ rot64 w.w1 s.cfg.s2)
              e := s.lanes.e }
          off := s.off + 32
          phase := if 32 ≤ (s.len - (s.off + 32)).toNat then .block else .squash
          loadOut := [w.w0, w.w1, w.w2, w.w3]
          reads := s.reads ++ List.range' (s.ptr.toNat + s.off.toNat) 32
          draws := s.draws + 1 }

/-- R143: `CRCBLOCK`, whenever memory admits the 32 bytes at `PTR + OFF`; lane `b` is not touched. With `VAR[0] = 1`, which no
CRC call has, the words are those of the big-endian fetch: the model's choice, log 32. (`loadOut`, `reads` and `draws` are the
model's records: logs 14, 15, 6.) -/
def Obligations.CrcblockAbsorbsABlock : Prop :=
  ∀ s : State, Readable s (s.ptr.toNat + s.off.toNat) 32 →
    ∃ w, fetchBlock s = .ok w ∧
      exec .crcblock s =
        .next { s with
          lanes :=
            { a := rot64 s.lanes.a s.cfg.s1 + s.cfg.p0 * w.w0
              b := s.lanes.b
              c := s.lanes.c + (crc32cU64 (s.lanes.d.setWidth 32) w.w1).setWidth 64
              d := s.lanes.d + (crc32cU64 (s.lanes.e.setWidth 32) w.w2).setWidth 64
              e := s.lanes.e + (crc32cU64 ((s.lanes.a + s.lanes.c).setWidth 32) w.w3).setWidth 64 }
          off := s.off + 32
          phase := if 32 ≤ (s.len - (s.off + 32)).toNat then .block else .squash
          loadOut := [w.w0, w.w1, w.w2, w.w3]
          reads := s.reads ++ List.range' (s.ptr.toNat + s.off.toNat) 32
          draws := s.draws + 1 }

/-- R85, R144: `SQUASH` and `CSQUASH`; lanes `c`, `d`, `e` keep their values. -/
def Obligations.SquashFoldsTheBlockLanes : Prop :=
  ∀ s : State,
    exec .squash s =
      .next { s with
        lanes := { s.lanes with
          a := s.lanes.a ^^^ (s.cfg.p6 * (rot64 s.lanes.c s.cfg.s1 + s.lanes.d))
          b := s.lanes.b ^^^ (s.cfg.p5 * (s.lanes.c + rot64 s.lanes.d s.cfg.s1)) }
        phase := if 0 < (s.len - s.off).toNat then .tail else .final } ∧
    exec .csquash s =
      .next { s with
        lanes := { s.lanes with
          a := s.lanes.a ^^^ (s.lanes.c * s.cfg.p5 + s.lanes.d * s.cfg.p6 + s.lanes.e)
          b := s.lanes.b ^^^ (s.lanes.c + s.lanes.d * s.cfg.p5 + s.lanes.e * s.cfg.p6) }
        phase := if 0 < (s.len - s.off).toNat then .tail else .final }

/-- R90: `TAIL` of `r = LEN - OFF` bytes, 1 to 31, whenever memory admits them: `k = ceil8(r)` words in address order, full
words but for a last one of `r mod 8` bytes when that is not 0, and the net effect on lanes `a` and `b`. -/
def Obligations.TailAbsorbsTheRemainder : Prop :=
  ∀ (s : State) (r k : Nat), r = (s.len - s.off).toNat → 1 ≤ r → r ≤ 31 → k = (r + 7) / 8 →
    Readable s (s.ptr.toNat + s.off.toNat) r →
    ∃ v : Nat → Word,
      (∀ i, i < k →
        loadWord s (s.var.getLsbD 0) (s.ptr.toNat + s.off.toNat + 8 * i) (if i < k - 1 ∨ r % 8 = 0 then 8 else r % 8) =
          .ok (v i)) ∧
      exec .tail s =
        .next { s with
          lanes := { s.lanes with
            a := s.lanes.a + (if 3 ≤ k then mux64 (v (k - 3)) s.cfg.p3 else 0) + mux64 (v (k - 1)) s.cfg.p1
            b := s.lanes.b + (if k = 4 then mux64 (v 0) s.cfg.p4 else 0) + (if 2 ≤ k then mux64 (v (k - 2)) s.cfg.p2 else 0) }
          off := s.len
          phase := .final
          loadOut := (List.range k).map v
          reads := s.reads ++ List.range' (s.ptr.toNat + s.off.toNat) r
          draws := s.draws + 1 }

/-- R100: `FINAL`, for 64-bit and for narrowing commands. -/
def Obligations.FinalComputesTheDigest : Prop :=
  ∀ s : State,
    (s.var.getLsbD 1 = false →
      exec .final s =
        .next { s with
          digest :=
            mux64 (rot64 (s.lanes.a + s.lanes.b) s.cfg.s1) s.cfg.p4 + mix s.cfg.s0 ((s.lanes.a ^^^ s.lanes.b) + s.len) s.cfg.p0
          done := true
          phase := .idle }) ∧
    (s.var.getLsbD 1 = true →
      exec .final s =
        .next { s with
          digest :=
            mux64 (rot64 (s.lanes.a + s.lanes.b) s.cfg.s1) s.cfg.p4 + mix s.cfg.s0 ((s.lanes.a ^^^ s.lanes.b) + s.len) s.cfg.p0
          phase := .fold32 })

/-- R131: `FOLD32`; bits 63:32 of `DIGEST` become zero. -/
def Obligations.Fold32NarrowsTheDigest : Prop :=
  ∀ s : State,
    exec .fold32 s =
      .next { s with digest := (fold32 s.cfg.pf s.digest).setWidth 64, done := true, phase := .idle } ∧
    ∀ t, exec .fold32 s = .next t → t.digest.toNat < 2 ^ 32 ∧ t.digest.setWidth 32 = fold32 s.cfg.pf s.digest

/-! ## The loads -/

/-- R70, R71: a full-word load of the eight bytes `B` that `MemRead(addr, 8)` returns reads exactly them and returns the number
they spell, least significant byte first for `LOAD64.LE`, most significant first for `LOAD64.BE`, at any alignment.
(`loadOut`, `reads` and `draws` are how the model hands over and records: logs 14, 15, 6.) -/
def Obligations.FullWordLoadsAssembleBytes : Prop :=
  ∀ (s : State) (addr : Nat) (B : List Byte), memRead s addr 8 = .ok B →
    exec (.load64le addr) s =
      .next { s with
        loadOut := [BitVec.ofNat 64 (leNat B)]
        reads := s.reads ++ List.range' addr 8
        draws := s.draws + 1 } ∧
    exec (.load64be addr) s =
      .next { s with
        loadOut := [BitVec.ofNat 64 (beNat B)]
        reads := s.reads ++ List.range' addr 8
        draws := s.draws + 1 } ∧
    B.length = 8 ∧ leNat B < 2 ^ 64 ∧ beNat B < 2 ^ 64

/-- R72, R73: a partial load of the `n` bytes `B`, 1 to 7, that `MemRead(addr, n)` returns reads exactly them and returns the
number they spell in the variant's order, zero-extended (below 2^(8n)). (`loadOut`, `reads` and `draws` are how the model
hands over and records: logs 14, 15, 6.) -/
def Obligations.PartialLoadsZeroExtend : Prop :=
  ∀ (s : State) (addr n : Nat) (B : List Byte), 1 ≤ n → n ≤ 7 → memRead s addr n = .ok B →
    exec (.tailldle addr n) s =
      .next { s with
        loadOut := [BitVec.ofNat 64 (leNat B)]
        reads := s.reads ++ List.range' addr n
        draws := s.draws + 1 } ∧
    exec (.tailldbe addr n) s =
      .next { s with
        loadOut := [BitVec.ofNat 64 (beNat B)]
        reads := s.reads ++ List.range' addr n
        draws := s.draws + 1 } ∧
    B.length = n ∧ leNat B < 2 ^ (8 * n) ∧ beNat B < 2 ^ (8 * n)

/-- R74: `FETCHBLK` reads exactly the 32 bytes at `PTR + OFF`, the eight bytes `B k` of word `k` at `PTR + OFF + 8*k`, and hands
over four little-endian words in address order, or four big-endian words in reverse order. (`loadOut`, `reads` and `draws` are
the model's records: logs 14, 15, 6.) -/
def Obligations.FetchblkOrdersTheWords : Prop :=
  ∀ (s : State) (B : Nat → List Byte),
    (∀ k, k < 4 → memRead s (s.ptr.toNat + s.off.toNat + 8 * k) 8 = .ok (B k)) →
    exec .fetchblk s =
      .next { s with
        loadOut :=
          if s.var.getLsbD 0 then
            [BitVec.ofNat 64 (beNat (B 3)), BitVec.ofNat 64 (beNat (B 2)), BitVec.ofNat 64 (beNat (B 1)),
              BitVec.ofNat 64 (beNat (B 0))]
          else
            [BitVec.ofNat 64 (leNat (B 0)), BitVec.ofNat 64 (leNat (B 1)), BitVec.ofNat 64 (leNat (B 2)),
              BitVec.ofNat 64 (leNat (B 3))]
        reads := s.reads ++ List.range' (s.ptr.toNat + s.off.toNat) 32
        draws := s.draws + 1 } ∧
    ∃ w, fetchBlock s = .ok w ∧ ∀ t, exec .fetchblk s = .next t → t.loadOut = [w.w0, w.w1, w.w2, w.w3]

/-- R70 to R74: every load of readable bytes completes, at any alignment (R35) and also when the bytes are being written during
the call (R44); it hands over one word (four for `FETCHBLK`), records the addresses, and changes nothing else. That a load run on its
own completes wherever memory has the bytes, also outside `[PTR, PTR+LEN)`, to which 00_scope section 6 admits `MemRead`, is the
model's choice, log 31; that it completes outside a call is log 35. (`loadOut`, `reads` and `draws` are the model's records: logs
14, 15, 6.) -/
def Obligations.LoadsOfReadableBytesComplete : Prop :=
  ∀ (s : State) (addr : Nat),
    (Readable s addr 8 →
      (∃ v, exec (.load64le addr) s =
        .next { s with loadOut := [v], reads := s.reads ++ List.range' addr 8, draws := s.draws + 1 }) ∧
      ∃ v, exec (.load64be addr) s =
        .next { s with loadOut := [v], reads := s.reads ++ List.range' addr 8, draws := s.draws + 1 }) ∧
    (∀ n, 1 ≤ n → n ≤ 7 → Readable s addr n →
      (∃ v, exec (.tailldle addr n) s =
        .next { s with loadOut := [v], reads := s.reads ++ List.range' addr n, draws := s.draws + 1 }) ∧
      ∃ v, exec (.tailldbe addr n) s =
        .next { s with loadOut := [v], reads := s.reads ++ List.range' addr n, draws := s.draws + 1 }) ∧
    (Readable s (s.ptr.toNat + s.off.toNat) 32 →
      ∃ w, exec .fetchblk s =
        .next { s with
          loadOut := blockWords w
          reads := s.reads ++ List.range' (s.ptr.toNat + s.off.toNat) 32
          draws := s.draws + 1 })

/-- R75: the big-endian load is the byte-swapped little-endian load, and for a partial load of `n` bytes the byte-swapped
one shifted right by `64 - 8n`. -/
def Obligations.BigEndianLoadIsByteSwapped : Prop :=
  ∀ (s : State) (addr : Nat),
    (∀ v, loadWord s false addr 8 = .ok v → loadWord s true addr 8 = .ok (bswap64 v)) ∧
    ∀ n v, 1 ≤ n → n ≤ 7 → loadWord s false addr n = .ok v →
      loadWord s true addr n = .ok (bswap64 v >>> (64 - 8 * n))

/-- R76: a load requests exactly its own bytes, in address order, and its value (or its stop) depends on no other byte. -/
def Obligations.LoadsTouchExactlyTheirBytes : Prop :=
  (∀ (s t : State) (addr : Nat),
    (exec (.load64le addr) s = .next t → t.reads = s.reads ++ List.range' addr 8) ∧
    (exec (.load64be addr) s = .next t → t.reads = s.reads ++ List.range' addr 8) ∧
    (∀ n, exec (.tailldle addr n) s = .next t → t.reads = s.reads ++ List.range' addr n) ∧
    ∀ n, exec (.tailldbe addr n) s = .next t → t.reads = s.reads ++ List.range' addr n) ∧
  ∀ (s : State) (m o : List Host.Cell) (l : List Nat) (be : Bool) (addr n : Nat),
    (∀ i, i < n → memByte m (addr + i) = memByte s.mem (addr + i) ∧ lostAt o (addr + i) = lostAt s.overwritten (addr + i) ∧
      (addr + i ∈ l ↔ addr + i ∈ s.late)) →
    loadWord { s with mem := m, overwritten := o, late := l } be addr n = loadWord s be addr n

/-- R43: a read that memory does not admit stops the micro-operation or load, which names an address among those it
requests; it never gives a value. -/
def Obligations.UnreadableByteStopsTheRead : Prop :=
  ∀ (s : State) (addr : Nat),
    (¬ Readable s (s.ptr.toNat + s.off.toNat) 32 →
      ∃ a, ¬ Readable s a 1 ∧ s.ptr.toNat + s.off.toNat ≤ a ∧ a < s.ptr.toNat + s.off.toNat + 32 ∧
        exec .mixblock s = .fault (.readNotAdmitted a) ∧ exec .crcblock s = .fault (.readNotAdmitted a) ∧
        exec .fetchblk s = .fault (.readNotAdmitted a)) ∧
    (¬ Readable s (s.ptr.toNat + s.off.toNat) (s.len - s.off).toNat →
      ∃ a, ¬ Readable s a 1 ∧ s.ptr.toNat + s.off.toNat ≤ a ∧ a < s.ptr.toNat + s.off.toNat + (s.len - s.off).toNat ∧
        exec .tail s = .fault (.readNotAdmitted a)) ∧
    (¬ Readable s addr 8 →
      ∃ a, ¬ Readable s a 1 ∧ addr ≤ a ∧ a < addr + 8 ∧
        exec (.load64le addr) s = .fault (.readNotAdmitted a) ∧ exec (.load64be addr) s = .fault (.readNotAdmitted a)) ∧
    ∀ n, 1 ≤ n → n ≤ 7 → ¬ Readable s addr n →
      ∃ a, ¬ Readable s a 1 ∧ addr ≤ a ∧ a < addr + n ∧
        exec (.tailldle addr n) s = .fault (.readNotAdmitted a) ∧ exec (.tailldbe addr n) s = .fault (.readNotAdmitted a)

/-- R43, R181: the engine has no step where memory does not admit what it reads: it is then stuck in its phase with `BUSY = 1` for
good, `DONE` never set and nothing of the call changed, through every host move but the reset event, writes of memory
included (log 28); the reset event leaves it idle; with no move pending the machine stops with the engine's fault (the fault is the
model's form of being stuck, log 3). -/
def Obligations.StuckCallStaysStuckUntilReset : Prop :=
  (∀ s : State,
    (s.phase = .block → ¬ Readable s (s.ptr.toNat + s.off.toNat) 32 → Stuck s) ∧
    (s.phase = .tail → ¬ Readable s (s.ptr.toNat + s.off.toNat) (s.len - s.off).toNat → Stuck s)) ∧
  ∀ s : State, Stuck s →
    (∀ m ms t, s.moves = m :: ms → m ≠ .reset → step s = .next t →
      Stuck t ∧ t.phase = s.phase ∧ t.done = s.done ∧ t.off = s.off ∧ t.lanes = s.lanes ∧ t.digest = s.digest ∧
        (statusWord t).getLsbD 0 = true) ∧
    (∀ ms, s.moves = .reset :: ms → ∃ t, step s = .next t ∧ t.phase = .idle ∧ t.done = false) ∧
    (s.moves = [] → ∃ a, step s = .fault (.readNotAdmitted a))

/-- R32, R41, R44: a read of a byte returns a content the byte holds, held since the accepted `START`, or gets before the call
ends; when it is not written during the call, the one memory holds, so that `MemRead` of bytes memory holds returns them in
order; and none where memory has none, or had none when the call was launched (log 28), or at or beyond 2^`AW` (U12). An accepted
`START` forgets what earlier calls recorded. What a byte gets before the call ends is what the run does: a host's turn during
the call takes the write at hand off the writes still to come, every other step leaves them, none are left when the call
ends, and the engine's step reads with those that come after it. (The form of these records is the model's, logs 6, 8, 34; what
a load outside a call returns is its choice, log 35.) -/
def Obligations.ReadsReturnAContentHeldDuringTheCall : Prop :=
  (∀ (s : State) (a : Nat) (b : Byte), byteAt s a = some b →
    a < 2 ^ s.cfg.aw ∧ (memByte s.mem a = some b ∨ b ∈ lostAt s.overwritten a ∨ b ∈ lostAt (laterWrites s) a)) ∧
  (∀ (s : State) (a : Nat) (b : Byte),
    a < 2 ^ s.cfg.aw → lostAt s.overwritten a = [] → lostAt (laterWrites s) a = [] → a ∉ s.late →
      (byteAt s a = some b ↔ memByte s.mem a = some b)) ∧
  (∀ (s : State) (addr : Nat) (B : List Byte), HoldsBytes s addr B → memRead s addr B.length = .ok B) ∧
  (∀ (s : State) (a : Nat), memByte s.mem a = none ∨ a ∈ s.late → byteAt s a = none) ∧
  (∀ (s : State) (w : Word) (a : Nat),
    lostAt (acceptStart s w).overwritten a = [] ∧ a ∉ (acceptStart s w).late) ∧
  (∀ s t : State, Inv s → s.phase ≠ .idle → ¬ Stuck s → step s = .next t →
    writesWithin s (stepsLeft s) =
      (if turn s = .host then storesOf s.cfg (s.moves.take 1) else []) ++ writesWithin t (stepsLeft t)) ∧
  (∀ s t : State, Inv s → s.phase ≠ .idle → engineStep s = .next t → laterWrites s = writesWithin t (stepsLeft t)) ∧
  ∀ s : State, s.phase = .idle → writesWithin s (stepsLeft s) = [] ∧ laterWrites s = []

/-! ## The primitives -/

/-- R80: `rot64` takes bit `i` to bit `(i - s) mod 64`, for every count a configuration may have; it is the rotation to the
right. -/
def Obligations.Rot64RotatesRight : Prop :=
  ∀ (v : Word) (s : Nat), 1 ≤ s → s ≤ 63 →
    (∀ i, i < 64 → (rot64 v s).getLsbD ((i + 64 - s) % 64) = v.getLsbD i) ∧ rot64 v s = v.rotateRight s

/-- R81, R82: `mux64` is the exclusive or of the halves of the exact product; `mix` multiplies modulo 2^64 and xors with its
own rotation. With the corner cases of the rules. -/
def Obligations.MultiplyPrimitives : Prop :=
  ∀ v p : Word,
    (mux64 v p).toNat = (v.toNat * p.toNat % 2 ^ 64) ^^^ (v.toNat * p.toNat / 2 ^ 64) ∧
    mux64 v p = mux64 p v ∧ mux64 0 p = 0 ∧ mux64 v 0 = 0 ∧ mux64 1 p = p ∧
    ∀ s0 : Nat,
      mix s0 v p = BitVec.ofNat 64 (v.toNat * p.toNat) ^^^ rot64 (BitVec.ofNat 64 (v.toNat * p.toNat)) s0 ∧
      mix s0 0 p = 0

/-- R130: `fold32` xors the halves of `mux64(h, PF)`; it takes 0, and for every odd `PF` all ones, to 0; `H32` is `fold32` of
`H64`. -/
def Obligations.Fold32FoldsTheHalves : Prop :=
  ∀ h pf : Word,
    (fold32 pf h).toNat = ((mux64 h pf).toNat / 2 ^ 32) ^^^ ((mux64 h pf).toNat % 2 ^ 32) ∧ fold32 pf 0 = 0 ∧
      (Config.odd pf → fold32 pf 0xFFFFFFFFFFFFFFFF = 0) ∧
      ∀ (cfg : Config) (be : Bool) (B : List Byte) (seed : Word), h32 cfg be B seed = fold32 cfg.pf (h64 cfg be B seed)

/-- R140, R141: `crc32c_u8` and `crc32c_u64`. -/
def Obligations.CrcPrimitives : Prop :=
  (∀ (c : Half) (x : Byte),
    crc32cU8 c x =
      (fun c : Half => if c.getLsbD 0 then (c >>> 1) ^^^ 0x82F63B78 else c >>> 1)^[8] (c ^^^ x.setWidth 32)) ∧
  ∀ (c : Half) (w : Word),
    crc32cU64 c w =
      crc32cU8 (crc32cU8 (crc32cU8 (crc32cU8 (crc32cU8 (crc32cU8 (crc32cU8 (crc32cU8 c (w.extractLsb' 0 8))
        (w.extractLsb' 8 8)) (w.extractLsb' 16 8)) (w.extractLsb' 24 8)) (w.extractLsb' 32 8)) (w.extractLsb' 40 8))
        (w.extractLsb' 48 8)) (w.extractLsb' 56 8)

/-! ## Control and frames -/

/-- R111: the next-phase function. -/
def Obligations.PhasesFollowTheTable : Prop :=
  (∀ (s : State) (w : Word), s.phase = .idle → LegalCommand s.cfg w →
    ∃ t, hostMove (.write 3 64 w) s = .next t ∧ t.phase = .init) ∧
  ∀ s t : State, engineStep s = .next t →
    (s.phase = .idle → t = s) ∧
    (s.phase = .init → t.off = 0 ∧
      t.phase = if 32 ≤ s.len.toNat then .block else if 0 < s.len.toNat then .tail else .final) ∧
    (s.phase = .block → t.off = s.off + 32 ∧ t.phase = if 32 ≤ (s.len - t.off).toNat then .block else .squash) ∧
    (s.phase = .squash → t.off = s.off ∧ t.phase = if 0 < (s.len - s.off).toNat then .tail else .final) ∧
    (s.phase = .tail → t.off = s.len ∧ t.phase = .final) ∧
    (s.phase = .final → (s.var.getLsbD 1 = true → t.phase = .fold32 ∧ t.done = s.done) ∧
      (s.var.getLsbD 1 = false → t.phase = .idle ∧ t.done = true)) ∧
    (s.phase = .fold32 → t.phase = .idle ∧ t.done = true)

/-- R88: which micro-operation runs next depends on `LEN`, `OFF` and `VAR` only: two states equal in these and in the phase
step to equal phases and offsets, whatever their lanes, seeds, addresses and memories. -/
def Obligations.ControlFlowIsDataIndependent : Prop :=
  ∀ s t s' t' : State, s.phase = t.phase → s.len = t.len → s.off = t.off → s.var = t.var →
    engineStep s = .next s' → engineStep t = .next t' →
    s'.phase = t'.phase ∧ s'.off = t'.off ∧ s'.var = t'.var ∧ usel s' = usel t'

/-- R39, R22: no instruction writes memory, an operand register, the configuration or anything of the host's; every byte
reads in memory as before. Only commands begin new records of what is written during a call. -/
def Obligations.NoInstructionWritesMemoryOrOperands : Prop :=
  ∀ (i : Instr) (s t : State), exec i s = .next t →
    (∀ a, memByte t.mem a = memByte s.mem a) ∧ t.mem = s.mem ∧ t.ptr = s.ptr ∧ t.len = s.len ∧ t.seed = s.seed ∧
    t.written = s.written ∧ t.cfg = s.cfg ∧ t.moves = s.moves ∧ t.sched = s.sched ∧ t.replies = s.replies ∧
    (encodeCmd i = none → t.overwritten = s.overwritten ∧ t.late = s.late ∧ t.var = s.var)

/-- R16, R17, R18, R19, R90, R143: the frame of every instruction on the block's own registers: which lanes, and whether
`OFF`, `DIGEST`, `DONE`, `VAR` and the load path, it may write. -/
def Obligations.InstructionsWriteOnlyTheirRegisters : Prop :=
  ∀ (s t : State),
    (∀ i, i ∈ [Instr.t1ha, .t1ha64le, .t1ha64be, .t1ha32le, .t1ha32be, .t1haIa32crc] ∨ (∃ w, i = .reserved w) →
      exec i s = .next t →
      t.lanes = s.lanes ∧ t.off = s.off ∧ t.digest = s.digest ∧ t.loadOut = s.loadOut ∧ t.draws = s.draws) ∧
    (∀ i, i ∈ [Instr.init, .squash, .csquash] → exec i s = .next t →
      t.digest = s.digest ∧ t.done = s.done ∧ t.var = s.var ∧ t.loadOut = s.loadOut ∧ t.reads = s.reads ∧
        t.draws = s.draws) ∧
    (∀ i, i ∈ [Instr.squash, .csquash] → exec i s = .next t →
      t.lanes.c = s.lanes.c ∧ t.lanes.d = s.lanes.d ∧ t.lanes.e = s.lanes.e ∧ t.off = s.off) ∧
    (∀ i, i ∈ [Instr.mixblock, .crcblock, .tail] → exec i s = .next t →
      t.digest = s.digest ∧ t.done = s.done ∧ t.var = s.var) ∧
    (exec .mixblock s = .next t → t.lanes.e = s.lanes.e) ∧
    (exec .crcblock s = .next t → t.lanes.b = s.lanes.b) ∧
    (exec .tail s = .next t → t.lanes.c = s.lanes.c ∧ t.lanes.d = s.lanes.d ∧ t.lanes.e = s.lanes.e) ∧
    (∀ i, i ∈ [Instr.final, .fold32] → exec i s = .next t →
      t.lanes = s.lanes ∧ t.off = s.off ∧ t.var = s.var ∧ t.loadOut = s.loadOut ∧ t.reads = s.reads ∧
        t.draws = s.draws) ∧
    (∀ i a n, i ∈ [Instr.load64le a, .load64be a, .tailldle a n, .tailldbe a n, .fetchblk] → exec i s = .next t →
      t = { s with loadOut := t.loadOut, reads := t.reads, draws := s.draws + 1 })

/-- R16, R17, R19: over whole steps, `VAR` changes, and `DONE` is cleared, only by an accepted `START` or the reset event;
`DIGEST` changes only by `FINAL`, `FOLD32` or the reset event; `DONE` is set only by the last micro-operation of a call. -/
def Obligations.OnlyTheNamedEventsChangeVarDigestDone : Prop :=
  ∀ s t : State, step s = .next t →
    (t.var ≠ s.var ∨ (s.done = true ∧ t.done = false) →
      (∃ ms, s.moves = .reset :: ms) ∨
        ∃ w ms, s.moves = .write 3 64 w :: ms ∧ s.phase = .idle ∧ LegalCommand s.cfg w ∧ t.phase = .init ∧
          t.var = w.extractLsb' 0 3) ∧
    (t.digest ≠ s.digest → s.phase = .final ∨ s.phase = .fold32 ∨ ∃ ms, s.moves = .reset :: ms) ∧
    (s.done = false → t.done = true →
      t.phase = .idle ∧ (s.phase = .fold32 ∨ (s.phase = .final ∧ s.var.getLsbD 1 = false)))

/-! ## The invariant -/

/-- The invariant holds after reset, of every instance whose configuration meets R5. -/
def Obligations.InvariantHoldsAtReset : Prop :=
  Inv State.reset ∧ ∀ cfg : Config, cfg.Wf → Inv (State.resetOf cfg)

/-- 10_state R20, R23, 44_variants64 R118, 20_memory R38: every step keeps the invariant: canonical memory, `DONE` only while
idle, a command's opcode in `VAR` during a call, `OFF <= LEN` and a multiple of 32 when a block or the tail is fetched, and
exactly the bytes before `OFF` read, once each, in order. -/
def Obligations.EveryStepKeepsTheInvariant : Prop := ∀ s t : State, Inv s → step s = .next t → Inv t

/-- R37: from every state that meets the invariant, each read request of the engine's step is inside the window, also the
one it stops at. -/
def Obligations.ReadRequestsStayInTheWindow : Prop :=
  ∀ s : State, Inv s →
    (∀ t, engineStep s = .next t → ∃ new, t.reads = s.reads ++ new ∧ ∀ a ∈ new, InWindow s a) ∧
    ∀ a, engineStep s = .fault (.readNotAdmitted a) → InWindow s a

/-- R38: when a call completes, each byte of the buffer has been requested exactly once, in increasing address order. -/
def Obligations.EachByteIsReadOnceInOrder : Prop :=
  ∀ s t : State, Inv s → s.phase ≠ .idle → engineStep s = .next t → t.phase = .idle →
    t.done = true ∧ t.reads = List.range' s.ptr.toNat s.len.toNat

/-! ## Whole calls -/

/-- R117: a call in contract takes exactly `callSteps` engine steps after the accepted `START`: at no earlier one is `DONE` set,
and at the last `PHASE` is `IDLE`, `DONE` is 1, `DIGEST` is the big-step digest of the command, and the operand registers and
memory are unchanged. (One execution, the `START` as the only move and an empty schedule: log 8.) -/
def Obligations.CallComputesTheDigest : Prop :=
  ∀ (s : State) (w : Word) (B : List Byte), InContract s w B → s.moves = [.write 3 64 w] → s.sched = [] →
    ∀ k, k ≤ callSteps s.len.toNat (w.extractLsb' 0 3) →
      ∃ t, runSteps (1 + k) s = .next t ∧
        (t.done = true ↔ k = callSteps s.len.toNat (w.extractLsb' 0 3)) ∧
        (t.phase = .idle ↔ k = callSteps s.len.toNat (w.extractLsb' 0 3)) ∧
        t.ptr = s.ptr ∧ t.len = s.len ∧ t.seed = s.seed ∧ t.mem = s.mem ∧
        (k = callSteps s.len.toNat (w.extractLsb' 0 3) → t.digest = callDigest s.cfg (w.extractLsb' 0 3) B s.seed)

/-- R118: the phases of a call in contract are those of `callPhases`, which depends on `LEN` and `VAR` alone, one for each of the
`callSteps` engine steps and `IDLE` at the end; `OFF` is `0, 32, ..., 32 * (LEN div 32)` and after the tail `LEN`. (One execution,
the `START` as the only move and an empty schedule: log 8.) -/
def Obligations.CallFollowsItsPhaseSequence : Prop :=
  (∀ (len : Nat) (op : BitVec 3), (callPhases len op).length = callSteps len op + 1) ∧
  ∀ (s : State) (w : Word) (B : List Byte), InContract s w B → s.moves = [.write 3 64 w] → s.sched = [] →
    ∀ k, k ≤ callSteps s.len.toNat (w.extractLsb' 0 3) →
      ∃ t, runSteps (1 + k) s = .next t ∧
        (callPhases s.len.toNat (w.extractLsb' 0 3))[k]? = some t.phase ∧
        (1 ≤ k →
          t.off.toNat =
            if k ≤ s.len.toNat / 32 + 1 then 32 * (k - 1)
            else if k ≤ s.len.toNat / 32 + 1 + (if 1 ≤ s.len.toNat / 32 then 1 else 0) then 32 * (s.len.toNat / 32)
            else s.len.toNat)

/-- R59, R182: the host program `CALL <command> p, n, s` on an idle block, with the buffer in memory, ends with `STATUS` read
as 2 and the digest read from `DIGEST`. (The schedule is the model's default, log 8; `WAIT` and `CALL` are
the model's form of them, log 24.) -/
def Obligations.CallProgramReadsTheDigest : Prop :=
  ∀ (s : State) (w p n sd : Word) (B : List Byte), s.phase = .idle → LegalCommand s.cfg w → HoldsBuffer s p n B →
    s.moves = callMoves w p n sd → s.sched = [] →
    ∃ t, runSteps (6 + callSteps n.toNat (w.extractLsb' 0 3)) s = .next t ∧ t.moves = [] ∧ t.phase = .idle ∧ t.mem = s.mem ∧
      t.replies = (5, callDigest s.cfg (w.extractLsb' 0 3) B sd) :: (4, 2) :: s.replies

/-- R165, R119: however the host's reads and polls are interleaved with the engine's steps, a call in contract that has ended
has left the same digest. -/
def Obligations.InterleavingDoesNotChangeTheDigest : Prop :=
  ∀ (s t : State) (w : Word) (B : List Byte) (ms : List HostMove) (sc : List Agent) (k : Nat), InContract s w B →
    (∀ m ∈ ms, onlyObserves m = true) → runSteps k { acceptStart s w with moves := ms, sched := sc } = .next t →
    t.done = true →
    t.phase = .idle ∧ t.mem = s.mem ∧ t.digest = callDigest s.cfg (w.extractLsb' 0 3) B s.seed

/-- R119: for one configuration the digest depends on the command, the bytes and the seed only, not on `PTR`, the lanes,
earlier calls or anything else of the state. (Each run has the `START` as its only move and an empty schedule: log 8.) -/
def Obligations.EqualInputsGiveEqualDigests : Prop :=
  ∀ (s s' : State) (w : Word) (B : List Byte), InContract s w B → InContract s' w B → s.cfg = s'.cfg → s.seed = s'.seed →
    s.moves = [.write 3 64 w] → s'.moves = [.write 3 64 w] → s.sched = [] → s'.sched = [] →
    ∃ t t', runSteps (1 + callSteps B.length (w.extractLsb' 0 3)) s = .next t ∧
      runSteps (1 + callSteps B.length (w.extractLsb' 0 3)) s' = .next t' ∧ t.done = true ∧ t'.done = true ∧
      t.phase = .idle ∧ t'.phase = .idle ∧ t.digest = t'.digest

/-- R121, R33: an empty buffer: the call reads no memory, whatever `PTR` and memory are, and gives the digest the rule
states, for every command; with its two values for the default configuration. (The `START` is the only move
and the schedule is empty: log 8.) -/
def Obligations.EmptyInputReadsNothing : Prop :=
  (∀ (cfg : Config) (be : Bool) (seed : Word),
    h64 cfg be [] seed = mux64 (rot64 seed cfg.s1) cfg.p4 + mix cfg.s0 seed cfg.p0 ∧
    hcrc cfg [] seed = mux64 (rot64 seed cfg.s1) cfg.p4 + mix cfg.s0 seed cfg.p0) ∧
  (∀ be : Bool, h64 Config.default be [] 0 = 0 ∧ h64 Config.default be [] 1 = 0x5C2DD46C53FEEE85) ∧
  ∀ (s : State) (w : Word), s.phase = .idle → LegalCommand s.cfg w → s.len = 0 → s.moves = [.write 3 64 w] → s.sched = [] →
    ∃ t, runSteps (if w.getLsbD 1 then 4 else 3) s = .next t ∧ t.phase = .idle ∧ t.done = true ∧ t.reads = [] ∧
      t.digest =
        (if w.getLsbD 1 then
          (fold32 s.cfg.pf (mux64 (rot64 s.seed s.cfg.s1) s.cfg.p4 + mix s.cfg.s0 s.seed s.cfg.p0)).setWidth 64
        else mux64 (rot64 s.seed s.cfg.s1) s.cfg.p4 + mix s.cfg.s0 s.seed s.cfg.p0)

/-- R122: coincidences of the formulas: the CRC digest is the portable one below 32 bytes; both byte orders agree, also when
narrowed, whenever every full block gives the same four words in both and every tail word is a palindrome of bytes, as at most
one byte and a buffer of equal bytes are. -/
def Obligations.DigestsCoincideWhereTheFormulasDo : Prop :=
  ∀ (cfg : Config) (seed : Word),
    (∀ B : List Byte, B.length < 32 → hcrc cfg B seed = h64 cfg false B seed) ∧
    (∀ B : List Byte, (∀ j, j < B.length / 32 → bufferBlock true B j = bufferBlock false B j) →
      (∀ i, i < 4 → ((B.drop (32 * (B.length / 32) + 8 * i)).take 8).reverse = (B.drop (32 * (B.length / 32) + 8 * i)).take 8) →
      h64 cfg true B seed = h64 cfg false B seed ∧ h32 cfg true B seed = h32 cfg false B seed) ∧
    (∀ B : List Byte, B.length ≤ 1 →
      h64 cfg true B seed = h64 cfg false B seed ∧ h32 cfg true B seed = h32 cfg false B seed) ∧
    ∀ (n : Nat) (x : Byte),
      h64 cfg true (List.replicate n x) seed = h64 cfg false (List.replicate n x) seed ∧
      h32 cfg true (List.replicate n x) seed = h32 cfg false (List.replicate n x) seed

/-- R134: for every buffer and seed the digest of a narrowing command is `fold32` of the digest of its parent, both run on
the machine: `T1HA_32LE` (2) of `T1HA` (0), `T1HA_32BE` (3) of `T1HA_64BE` (1). (Each run has the `START` as its
only move and an empty schedule: log 8.) -/
def Obligations.NarrowingIsTheFoldOfTheParent : Prop :=
  ∀ (s : State) (B : List Byte) (parent narrow : Word), (parent = 0 ∧ narrow = 2) ∨ (parent = 1 ∧ narrow = 3) →
    s.phase = .idle → HoldsBuffer s s.ptr s.len B → s.sched = [] →
    ∃ t u, runSteps (1 + callSteps B.length (parent.extractLsb' 0 3)) { s with moves := [.write 3 64 parent] } = .next t ∧
      runSteps (2 + callSteps B.length (parent.extractLsb' 0 3)) { s with moves := [.write 3 64 narrow] } = .next u ∧
      t.done = true ∧ u.done = true ∧ t.phase = .idle ∧ u.phase = .idle ∧
      u.digest = (fold32 s.cfg.pf t.digest).setWidth 64

/-- R183, R165, R24: a call in contract, whatever the host does during it that keeps P5 and P6 (reads, polls, writes of any
register, writes of memory outside the window) and however the schedule (log 8) interleaves it with the engine: `DONE` is set
within the call's steps after the schedule's turns, unless a host move is refused (logs 27, 36); up to that step the operand
registers and the window are as they were and the call is in progress, and that step leaves the block idle with the big-step
digest. -/
def Obligations.CallInContractEndsInItsDigest : Prop :=
  ∀ (s : State) (w : Word) (B : List Byte) (ms : List HostMove) (sc : List Agent), InContract s w B →
    (∀ m ∈ ms, KeepsContract s m) →
    (∃ j, j ≤ sc.length + callSteps s.len.toNat (w.extractLsb' 0 3) ∧
      ((∃ u, runSteps j { acceptStart s w with moves := ms, sched := sc } = .next u ∧ u.done = true) ∨
        ∃ r, runSteps j { acceptStart s w with moves := ms, sched := sc } = .refused r)) ∧
    ∀ (k : Nat) (t : State), runSteps k { acceptStart s w with moves := ms, sched := sc } = .next t →
      (∀ (j : Nat) (u : State), j < k →
        runSteps j { acceptStart s w with moves := ms, sched := sc } = .next u → u.done = false) →
      t.ptr = s.ptr ∧ t.len = s.len ∧ t.seed = s.seed ∧ (∀ a, InWindow s a → memByte t.mem a = memByte s.mem a) ∧
        (t.phase = .idle ↔ t.done = true) ∧
        (t.done = true → t.digest = callDigest s.cfg (w.extractLsb' 0 3) B s.seed)
end

