-- ==== Sys2Proof/Laws/State.lean ====
section
/-! SUPPORT. What each update of the state does to each field, so that no proof unfolds a record update. -/

namespace Sys2Proof.Machine

variable (s : State)

/-! `setPtr` -/

@[simp] theorem State.setPtr_cfg (v : Word) : (s.setPtr v).cfg = s.cfg := rfl
@[simp] theorem State.setPtr_ptr (v : Word) : (s.setPtr v).ptr = v := rfl
@[simp] theorem State.setPtr_len (v : Word) : (s.setPtr v).len = s.len := rfl
@[simp] theorem State.setPtr_seed (v : Word) : (s.setPtr v).seed = s.seed := rfl
@[simp] theorem State.setPtr_digest (v : Word) : (s.setPtr v).digest = s.digest := rfl
@[simp] theorem State.setPtr_done (v : Word) : (s.setPtr v).done = s.done := rfl
@[simp] theorem State.setPtr_lanes (v : Word) : (s.setPtr v).lanes = s.lanes := rfl
@[simp] theorem State.setPtr_var (v : Word) : (s.setPtr v).var = s.var := rfl
@[simp] theorem State.setPtr_phase (v : Word) : (s.setPtr v).phase = s.phase := rfl
@[simp] theorem State.setPtr_off (v : Word) : (s.setPtr v).off = s.off := rfl
@[simp] theorem State.setPtr_mem (v : Word) : (s.setPtr v).mem = s.mem := rfl
@[simp] theorem State.setPtr_overwritten (v : Word) : (s.setPtr v).overwritten = s.overwritten := rfl
@[simp] theorem State.setPtr_late (v : Word) : (s.setPtr v).late = s.late := rfl
@[simp] theorem State.setPtr_moves (v : Word) : (s.setPtr v).moves = s.moves := rfl
@[simp] theorem State.setPtr_sched (v : Word) : (s.setPtr v).sched = s.sched := rfl
@[simp] theorem State.setPtr_written (v : Word) : (s.setPtr v).written = { s.written with ptr := true } := rfl
@[simp] theorem State.setPtr_replies (v : Word) : (s.setPtr v).replies = s.replies := rfl
@[simp] theorem State.setPtr_reads (v : Word) : (s.setPtr v).reads = s.reads := rfl
@[simp] theorem State.setPtr_loadOut (v : Word) : (s.setPtr v).loadOut = s.loadOut := rfl
@[simp] theorem State.setPtr_draws (v : Word) : (s.setPtr v).draws = s.draws := rfl

/-! `setLen` -/

@[simp] theorem State.setLen_cfg (v : Word) : (s.setLen v).cfg = s.cfg := rfl
@[simp] theorem State.setLen_ptr (v : Word) : (s.setLen v).ptr = s.ptr := rfl
@[simp] theorem State.setLen_len (v : Word) : (s.setLen v).len = v := rfl
@[simp] theorem State.setLen_seed (v : Word) : (s.setLen v).seed = s.seed := rfl
@[simp] theorem State.setLen_digest (v : Word) : (s.setLen v).digest = s.digest := rfl
@[simp] theorem State.setLen_done (v : Word) : (s.setLen v).done = s.done := rfl
@[simp] theorem State.setLen_lanes (v : Word) : (s.setLen v).lanes = s.lanes := rfl
@[simp] theorem State.setLen_var (v : Word) : (s.setLen v).var = s.var := rfl
@[simp] theorem State.setLen_phase (v : Word) : (s.setLen v).phase = s.phase := rfl
@[simp] theorem State.setLen_off (v : Word) : (s.setLen v).off = s.off := rfl
@[simp] theorem State.setLen_mem (v : Word) : (s.setLen v).mem = s.mem := rfl
@[simp] theorem State.setLen_overwritten (v : Word) : (s.setLen v).overwritten = s.overwritten := rfl
@[simp] theorem State.setLen_late (v : Word) : (s.setLen v).late = s.late := rfl
@[simp] theorem State.setLen_moves (v : Word) : (s.setLen v).moves = s.moves := rfl
@[simp] theorem State.setLen_sched (v : Word) : (s.setLen v).sched = s.sched := rfl
@[simp] theorem State.setLen_written (v : Word) : (s.setLen v).written = { s.written with len := true } := rfl
@[simp] theorem State.setLen_replies (v : Word) : (s.setLen v).replies = s.replies := rfl
@[simp] theorem State.setLen_reads (v : Word) : (s.setLen v).reads = s.reads := rfl
@[simp] theorem State.setLen_loadOut (v : Word) : (s.setLen v).loadOut = s.loadOut := rfl
@[simp] theorem State.setLen_draws (v : Word) : (s.setLen v).draws = s.draws := rfl

/-! `setSeed` -/

@[simp] theorem State.setSeed_cfg (v : Word) : (s.setSeed v).cfg = s.cfg := rfl
@[simp] theorem State.setSeed_ptr (v : Word) : (s.setSeed v).ptr = s.ptr := rfl
@[simp] theorem State.setSeed_len (v : Word) : (s.setSeed v).len = s.len := rfl
@[simp] theorem State.setSeed_seed (v : Word) : (s.setSeed v).seed = v := rfl
@[simp] theorem State.setSeed_digest (v : Word) : (s.setSeed v).digest = s.digest := rfl
@[simp] theorem State.setSeed_done (v : Word) : (s.setSeed v).done = s.done := rfl
@[simp] theorem State.setSeed_lanes (v : Word) : (s.setSeed v).lanes = s.lanes := rfl
@[simp] theorem State.setSeed_var (v : Word) : (s.setSeed v).var = s.var := rfl
@[simp] theorem State.setSeed_phase (v : Word) : (s.setSeed v).phase = s.phase := rfl
@[simp] theorem State.setSeed_off (v : Word) : (s.setSeed v).off = s.off := rfl
@[simp] theorem State.setSeed_mem (v : Word) : (s.setSeed v).mem = s.mem := rfl
@[simp] theorem State.setSeed_overwritten (v : Word) : (s.setSeed v).overwritten = s.overwritten := rfl
@[simp] theorem State.setSeed_late (v : Word) : (s.setSeed v).late = s.late := rfl
@[simp] theorem State.setSeed_moves (v : Word) : (s.setSeed v).moves = s.moves := rfl
@[simp] theorem State.setSeed_sched (v : Word) : (s.setSeed v).sched = s.sched := rfl
@[simp] theorem State.setSeed_written (v : Word) : (s.setSeed v).written = { s.written with seed := true } := rfl
@[simp] theorem State.setSeed_replies (v : Word) : (s.setSeed v).replies = s.replies := rfl
@[simp] theorem State.setSeed_reads (v : Word) : (s.setSeed v).reads = s.reads := rfl
@[simp] theorem State.setSeed_loadOut (v : Word) : (s.setSeed v).loadOut = s.loadOut := rfl
@[simp] theorem State.setSeed_draws (v : Word) : (s.setSeed v).draws = s.draws := rfl

/-! `setDigest` -/

@[simp] theorem State.setDigest_cfg (v : Word) : (s.setDigest v).cfg = s.cfg := rfl
@[simp] theorem State.setDigest_ptr (v : Word) : (s.setDigest v).ptr = s.ptr := rfl
@[simp] theorem State.setDigest_len (v : Word) : (s.setDigest v).len = s.len := rfl
@[simp] theorem State.setDigest_seed (v : Word) : (s.setDigest v).seed = s.seed := rfl
@[simp] theorem State.setDigest_digest (v : Word) : (s.setDigest v).digest = v := rfl
@[simp] theorem State.setDigest_done (v : Word) : (s.setDigest v).done = s.done := rfl
@[simp] theorem State.setDigest_lanes (v : Word) : (s.setDigest v).lanes = s.lanes := rfl
@[simp] theorem State.setDigest_var (v : Word) : (s.setDigest v).var = s.var := rfl
@[simp] theorem State.setDigest_phase (v : Word) : (s.setDigest v).phase = s.phase := rfl
@[simp] theorem State.setDigest_off (v : Word) : (s.setDigest v).off = s.off := rfl
@[simp] theorem State.setDigest_mem (v : Word) : (s.setDigest v).mem = s.mem := rfl
@[simp] theorem State.setDigest_overwritten (v : Word) : (s.setDigest v).overwritten = s.overwritten := rfl
@[simp] theorem State.setDigest_late (v : Word) : (s.setDigest v).late = s.late := rfl
@[simp] theorem State.setDigest_moves (v : Word) : (s.setDigest v).moves = s.moves := rfl
@[simp] theorem State.setDigest_sched (v : Word) : (s.setDigest v).sched = s.sched := rfl
@[simp] theorem State.setDigest_written (v : Word) : (s.setDigest v).written = s.written := rfl
@[simp] theorem State.setDigest_replies (v : Word) : (s.setDigest v).replies = s.replies := rfl
@[simp] theorem State.setDigest_reads (v : Word) : (s.setDigest v).reads = s.reads := rfl
@[simp] theorem State.setDigest_loadOut (v : Word) : (s.setDigest v).loadOut = s.loadOut := rfl
@[simp] theorem State.setDigest_draws (v : Word) : (s.setDigest v).draws = s.draws := rfl

/-! `setDone` -/

@[simp] theorem State.setDone_cfg (v : Bool) : (s.setDone v).cfg = s.cfg := rfl
@[simp] theorem State.setDone_ptr (v : Bool) : (s.setDone v).ptr = s.ptr := rfl
@[simp] theorem State.setDone_len (v : Bool) : (s.setDone v).len = s.len := rfl
@[simp] theorem State.setDone_seed (v : Bool) : (s.setDone v).seed = s.seed := rfl
@[simp] theorem State.setDone_digest (v : Bool) : (s.setDone v).digest = s.digest := rfl
@[simp] theorem State.setDone_done (v : Bool) : (s.setDone v).done = v := rfl
@[simp] theorem State.setDone_lanes (v : Bool) : (s.setDone v).lanes = s.lanes := rfl
@[simp] theorem State.setDone_var (v : Bool) : (s.setDone v).var = s.var := rfl
@[simp] theorem State.setDone_phase (v : Bool) : (s.setDone v).phase = s.phase := rfl
@[simp] theorem State.setDone_off (v : Bool) : (s.setDone v).off = s.off := rfl
@[simp] theorem State.setDone_mem (v : Bool) : (s.setDone v).mem = s.mem := rfl
@[simp] theorem State.setDone_overwritten (v : Bool) : (s.setDone v).overwritten = s.overwritten := rfl
@[simp] theorem State.setDone_late (v : Bool) : (s.setDone v).late = s.late := rfl
@[simp] theorem State.setDone_moves (v : Bool) : (s.setDone v).moves = s.moves := rfl
@[simp] theorem State.setDone_sched (v : Bool) : (s.setDone v).sched = s.sched := rfl
@[simp] theorem State.setDone_written (v : Bool) : (s.setDone v).written = s.written := rfl
@[simp] theorem State.setDone_replies (v : Bool) : (s.setDone v).replies = s.replies := rfl
@[simp] theorem State.setDone_reads (v : Bool) : (s.setDone v).reads = s.reads := rfl
@[simp] theorem State.setDone_loadOut (v : Bool) : (s.setDone v).loadOut = s.loadOut := rfl
@[simp] theorem State.setDone_draws (v : Bool) : (s.setDone v).draws = s.draws := rfl

/-! `setLanes` -/

@[simp] theorem State.setLanes_cfg (v : Lanes) : (s.setLanes v).cfg = s.cfg := rfl
@[simp] theorem State.setLanes_ptr (v : Lanes) : (s.setLanes v).ptr = s.ptr := rfl
@[simp] theorem State.setLanes_len (v : Lanes) : (s.setLanes v).len = s.len := rfl
@[simp] theorem State.setLanes_seed (v : Lanes) : (s.setLanes v).seed = s.seed := rfl
@[simp] theorem State.setLanes_digest (v : Lanes) : (s.setLanes v).digest = s.digest := rfl
@[simp] theorem State.setLanes_done (v : Lanes) : (s.setLanes v).done = s.done := rfl
@[simp] theorem State.setLanes_lanes (v : Lanes) : (s.setLanes v).lanes = v := rfl
@[simp] theorem State.setLanes_var (v : Lanes) : (s.setLanes v).var = s.var := rfl
@[simp] theorem State.setLanes_phase (v : Lanes) : (s.setLanes v).phase = s.phase := rfl
@[simp] theorem State.setLanes_off (v : Lanes) : (s.setLanes v).off = s.off := rfl
@[simp] theorem State.setLanes_mem (v : Lanes) : (s.setLanes v).mem = s.mem := rfl
@[simp] theorem State.setLanes_overwritten (v : Lanes) : (s.setLanes v).overwritten = s.overwritten := rfl
@[simp] theorem State.setLanes_late (v : Lanes) : (s.setLanes v).late = s.late := rfl
@[simp] theorem State.setLanes_moves (v : Lanes) : (s.setLanes v).moves = s.moves := rfl
@[simp] theorem State.setLanes_sched (v : Lanes) : (s.setLanes v).sched = s.sched := rfl
@[simp] theorem State.setLanes_written (v : Lanes) : (s.setLanes v).written = s.written := rfl
@[simp] theorem State.setLanes_replies (v : Lanes) : (s.setLanes v).replies = s.replies := rfl
@[simp] theorem State.setLanes_reads (v : Lanes) : (s.setLanes v).reads = s.reads := rfl
@[simp] theorem State.setLanes_loadOut (v : Lanes) : (s.setLanes v).loadOut = s.loadOut := rfl
@[simp] theorem State.setLanes_draws (v : Lanes) : (s.setLanes v).draws = s.draws := rfl

/-! `setVar` -/

@[simp] theorem State.setVar_cfg (v : BitVec 3) : (s.setVar v).cfg = s.cfg := rfl
@[simp] theorem State.setVar_ptr (v : BitVec 3) : (s.setVar v).ptr = s.ptr := rfl
@[simp] theorem State.setVar_len (v : BitVec 3) : (s.setVar v).len = s.len := rfl
@[simp] theorem State.setVar_seed (v : BitVec 3) : (s.setVar v).seed = s.seed := rfl
@[simp] theorem State.setVar_digest (v : BitVec 3) : (s.setVar v).digest = s.digest := rfl
@[simp] theorem State.setVar_done (v : BitVec 3) : (s.setVar v).done = s.done := rfl
@[simp] theorem State.setVar_lanes (v : BitVec 3) : (s.setVar v).lanes = s.lanes := rfl
@[simp] theorem State.setVar_var (v : BitVec 3) : (s.setVar v).var = v := rfl
@[simp] theorem State.setVar_phase (v : BitVec 3) : (s.setVar v).phase = s.phase := rfl
@[simp] theorem State.setVar_off (v : BitVec 3) : (s.setVar v).off = s.off := rfl
@[simp] theorem State.setVar_mem (v : BitVec 3) : (s.setVar v).mem = s.mem := rfl
@[simp] theorem State.setVar_overwritten (v : BitVec 3) : (s.setVar v).overwritten = s.overwritten := rfl
@[simp] theorem State.setVar_late (v : BitVec 3) : (s.setVar v).late = s.late := rfl
@[simp] theorem State.setVar_moves (v : BitVec 3) : (s.setVar v).moves = s.moves := rfl
@[simp] theorem State.setVar_sched (v : BitVec 3) : (s.setVar v).sched = s.sched := rfl
@[simp] theorem State.setVar_written (v : BitVec 3) : (s.setVar v).written = s.written := rfl
@[simp] theorem State.setVar_replies (v : BitVec 3) : (s.setVar v).replies = s.replies := rfl
@[simp] theorem State.setVar_reads (v : BitVec 3) : (s.setVar v).reads = s.reads := rfl
@[simp] theorem State.setVar_loadOut (v : BitVec 3) : (s.setVar v).loadOut = s.loadOut := rfl
@[simp] theorem State.setVar_draws (v : BitVec 3) : (s.setVar v).draws = s.draws := rfl

/-! `setPhase` -/

@[simp] theorem State.setPhase_cfg (v : Phase) : (s.setPhase v).cfg = s.cfg := rfl
@[simp] theorem State.setPhase_ptr (v : Phase) : (s.setPhase v).ptr = s.ptr := rfl
@[simp] theorem State.setPhase_len (v : Phase) : (s.setPhase v).len = s.len := rfl
@[simp] theorem State.setPhase_seed (v : Phase) : (s.setPhase v).seed = s.seed := rfl
@[simp] theorem State.setPhase_digest (v : Phase) : (s.setPhase v).digest = s.digest := rfl
@[simp] theorem State.setPhase_done (v : Phase) : (s.setPhase v).done = s.done := rfl
@[simp] theorem State.setPhase_lanes (v : Phase) : (s.setPhase v).lanes = s.lanes := rfl
@[simp] theorem State.setPhase_var (v : Phase) : (s.setPhase v).var = s.var := rfl
@[simp] theorem State.setPhase_phase (v : Phase) : (s.setPhase v).phase = v := rfl
@[simp] theorem State.setPhase_off (v : Phase) : (s.setPhase v).off = s.off := rfl
@[simp] theorem State.setPhase_mem (v : Phase) : (s.setPhase v).mem = s.mem := rfl
@[simp] theorem State.setPhase_overwritten (v : Phase) : (s.setPhase v).overwritten = s.overwritten := rfl
@[simp] theorem State.setPhase_late (v : Phase) : (s.setPhase v).late = s.late := rfl
@[simp] theorem State.setPhase_moves (v : Phase) : (s.setPhase v).moves = s.moves := rfl
@[simp] theorem State.setPhase_sched (v : Phase) : (s.setPhase v).sched = s.sched := rfl
@[simp] theorem State.setPhase_written (v : Phase) : (s.setPhase v).written = s.written := rfl
@[simp] theorem State.setPhase_replies (v : Phase) : (s.setPhase v).replies = s.replies := rfl
@[simp] theorem State.setPhase_reads (v : Phase) : (s.setPhase v).reads = s.reads := rfl
@[simp] theorem State.setPhase_loadOut (v : Phase) : (s.setPhase v).loadOut = s.loadOut := rfl
@[simp] theorem State.setPhase_draws (v : Phase) : (s.setPhase v).draws = s.draws := rfl

/-! `setOff` -/

@[simp] theorem State.setOff_cfg (v : Word) : (s.setOff v).cfg = s.cfg := rfl
@[simp] theorem State.setOff_ptr (v : Word) : (s.setOff v).ptr = s.ptr := rfl
@[simp] theorem State.setOff_len (v : Word) : (s.setOff v).len = s.len := rfl
@[simp] theorem State.setOff_seed (v : Word) : (s.setOff v).seed = s.seed := rfl
@[simp] theorem State.setOff_digest (v : Word) : (s.setOff v).digest = s.digest := rfl
@[simp] theorem State.setOff_done (v : Word) : (s.setOff v).done = s.done := rfl
@[simp] theorem State.setOff_lanes (v : Word) : (s.setOff v).lanes = s.lanes := rfl
@[simp] theorem State.setOff_var (v : Word) : (s.setOff v).var = s.var := rfl
@[simp] theorem State.setOff_phase (v : Word) : (s.setOff v).phase = s.phase := rfl
@[simp] theorem State.setOff_off (v : Word) : (s.setOff v).off = v := rfl
@[simp] theorem State.setOff_mem (v : Word) : (s.setOff v).mem = s.mem := rfl
@[simp] theorem State.setOff_overwritten (v : Word) : (s.setOff v).overwritten = s.overwritten := rfl
@[simp] theorem State.setOff_late (v : Word) : (s.setOff v).late = s.late := rfl
@[simp] theorem State.setOff_moves (v : Word) : (s.setOff v).moves = s.moves := rfl
@[simp] theorem State.setOff_sched (v : Word) : (s.setOff v).sched = s.sched := rfl
@[simp] theorem State.setOff_written (v : Word) : (s.setOff v).written = s.written := rfl
@[simp] theorem State.setOff_replies (v : Word) : (s.setOff v).replies = s.replies := rfl
@[simp] theorem State.setOff_reads (v : Word) : (s.setOff v).reads = s.reads := rfl
@[simp] theorem State.setOff_loadOut (v : Word) : (s.setOff v).loadOut = s.loadOut := rfl
@[simp] theorem State.setOff_draws (v : Word) : (s.setOff v).draws = s.draws := rfl

/-! `setMoves` -/

@[simp] theorem State.setMoves_cfg (v : List HostMove) : (s.setMoves v).cfg = s.cfg := rfl
@[simp] theorem State.setMoves_ptr (v : List HostMove) : (s.setMoves v).ptr = s.ptr := rfl
@[simp] theorem State.setMoves_len (v : List HostMove) : (s.setMoves v).len = s.len := rfl
@[simp] theorem State.setMoves_seed (v : List HostMove) : (s.setMoves v).seed = s.seed := rfl
@[simp] theorem State.setMoves_digest (v : List HostMove) : (s.setMoves v).digest = s.digest := rfl
@[simp] theorem State.setMoves_done (v : List HostMove) : (s.setMoves v).done = s.done := rfl
@[simp] theorem State.setMoves_lanes (v : List HostMove) : (s.setMoves v).lanes = s.lanes := rfl
@[simp] theorem State.setMoves_var (v : List HostMove) : (s.setMoves v).var = s.var := rfl
@[simp] theorem State.setMoves_phase (v : List HostMove) : (s.setMoves v).phase = s.phase := rfl
@[simp] theorem State.setMoves_off (v : List HostMove) : (s.setMoves v).off = s.off := rfl
@[simp] theorem State.setMoves_mem (v : List HostMove) : (s.setMoves v).mem = s.mem := rfl
@[simp] theorem State.setMoves_overwritten (v : List HostMove) : (s.setMoves v).overwritten = s.overwritten := rfl
@[simp] theorem State.setMoves_late (v : List HostMove) : (s.setMoves v).late = s.late := rfl
@[simp] theorem State.setMoves_moves (v : List HostMove) : (s.setMoves v).moves = v := rfl
@[simp] theorem State.setMoves_sched (v : List HostMove) : (s.setMoves v).sched = s.sched := rfl
@[simp] theorem State.setMoves_written (v : List HostMove) : (s.setMoves v).written = s.written := rfl
@[simp] theorem State.setMoves_replies (v : List HostMove) : (s.setMoves v).replies = s.replies := rfl
@[simp] theorem State.setMoves_reads (v : List HostMove) : (s.setMoves v).reads = s.reads := rfl
@[simp] theorem State.setMoves_loadOut (v : List HostMove) : (s.setMoves v).loadOut = s.loadOut := rfl
@[simp] theorem State.setMoves_draws (v : List HostMove) : (s.setMoves v).draws = s.draws := rfl

/-! `setSched` -/

@[simp] theorem State.setSched_cfg (v : List Agent) : (s.setSched v).cfg = s.cfg := rfl
@[simp] theorem State.setSched_ptr (v : List Agent) : (s.setSched v).ptr = s.ptr := rfl
@[simp] theorem State.setSched_len (v : List Agent) : (s.setSched v).len = s.len := rfl
@[simp] theorem State.setSched_seed (v : List Agent) : (s.setSched v).seed = s.seed := rfl
@[simp] theorem State.setSched_digest (v : List Agent) : (s.setSched v).digest = s.digest := rfl
@[simp] theorem State.setSched_done (v : List Agent) : (s.setSched v).done = s.done := rfl
@[simp] theorem State.setSched_lanes (v : List Agent) : (s.setSched v).lanes = s.lanes := rfl
@[simp] theorem State.setSched_var (v : List Agent) : (s.setSched v).var = s.var := rfl
@[simp] theorem State.setSched_phase (v : List Agent) : (s.setSched v).phase = s.phase := rfl
@[simp] theorem State.setSched_off (v : List Agent) : (s.setSched v).off = s.off := rfl
@[simp] theorem State.setSched_mem (v : List Agent) : (s.setSched v).mem = s.mem := rfl
@[simp] theorem State.setSched_overwritten (v : List Agent) : (s.setSched v).overwritten = s.overwritten := rfl
@[simp] theorem State.setSched_late (v : List Agent) : (s.setSched v).late = s.late := rfl
@[simp] theorem State.setSched_moves (v : List Agent) : (s.setSched v).moves = s.moves := rfl
@[simp] theorem State.setSched_sched (v : List Agent) : (s.setSched v).sched = v := rfl
@[simp] theorem State.setSched_written (v : List Agent) : (s.setSched v).written = s.written := rfl
@[simp] theorem State.setSched_replies (v : List Agent) : (s.setSched v).replies = s.replies := rfl
@[simp] theorem State.setSched_reads (v : List Agent) : (s.setSched v).reads = s.reads := rfl
@[simp] theorem State.setSched_loadOut (v : List Agent) : (s.setSched v).loadOut = s.loadOut := rfl
@[simp] theorem State.setSched_draws (v : List Agent) : (s.setSched v).draws = s.draws := rfl

/-! `setMem` -/

@[simp] theorem State.setMem_cfg (m o : List Host.Cell) (l : List Nat) : (s.setMem m o l).cfg = s.cfg := rfl
@[simp] theorem State.setMem_ptr (m o : List Host.Cell) (l : List Nat) : (s.setMem m o l).ptr = s.ptr := rfl
@[simp] theorem State.setMem_len (m o : List Host.Cell) (l : List Nat) : (s.setMem m o l).len = s.len := rfl
@[simp] theorem State.setMem_seed (m o : List Host.Cell) (l : List Nat) : (s.setMem m o l).seed = s.seed := rfl
@[simp] theorem State.setMem_digest (m o : List Host.Cell) (l : List Nat) : (s.setMem m o l).digest = s.digest := rfl
@[simp] theorem State.setMem_done (m o : List Host.Cell) (l : List Nat) : (s.setMem m o l).done = s.done := rfl
@[simp] theorem State.setMem_lanes (m o : List Host.Cell) (l : List Nat) : (s.setMem m o l).lanes = s.lanes := rfl
@[simp] theorem State.setMem_var (m o : List Host.Cell) (l : List Nat) : (s.setMem m o l).var = s.var := rfl
@[simp] theorem State.setMem_phase (m o : List Host.Cell) (l : List Nat) : (s.setMem m o l).phase = s.phase := rfl
@[simp] theorem State.setMem_off (m o : List Host.Cell) (l : List Nat) : (s.setMem m o l).off = s.off := rfl
@[simp] theorem State.setMem_mem (m o : List Host.Cell) (l : List Nat) : (s.setMem m o l).mem = m := rfl
@[simp] theorem State.setMem_overwritten (m o : List Host.Cell) (l : List Nat) : (s.setMem m o l).overwritten = o := rfl
@[simp] theorem State.setMem_late (m o : List Host.Cell) (l : List Nat) : (s.setMem m o l).late = l := rfl
@[simp] theorem State.setMem_moves (m o : List Host.Cell) (l : List Nat) : (s.setMem m o l).moves = s.moves := rfl
@[simp] theorem State.setMem_sched (m o : List Host.Cell) (l : List Nat) : (s.setMem m o l).sched = s.sched := rfl
@[simp] theorem State.setMem_written (m o : List Host.Cell) (l : List Nat) : (s.setMem m o l).written = s.written := rfl
@[simp] theorem State.setMem_replies (m o : List Host.Cell) (l : List Nat) : (s.setMem m o l).replies = s.replies := rfl
@[simp] theorem State.setMem_reads (m o : List Host.Cell) (l : List Nat) : (s.setMem m o l).reads = s.reads := rfl
@[simp] theorem State.setMem_loadOut (m o : List Host.Cell) (l : List Nat) : (s.setMem m o l).loadOut = s.loadOut := rfl
@[simp] theorem State.setMem_draws (m o : List Host.Cell) (l : List Nat) : (s.setMem m o l).draws = s.draws := rfl

/-! `pushReply` -/

@[simp] theorem State.pushReply_cfg (n : Nat) (v : Word) : (s.pushReply n v).cfg = s.cfg := rfl
@[simp] theorem State.pushReply_ptr (n : Nat) (v : Word) : (s.pushReply n v).ptr = s.ptr := rfl
@[simp] theorem State.pushReply_len (n : Nat) (v : Word) : (s.pushReply n v).len = s.len := rfl
@[simp] theorem State.pushReply_seed (n : Nat) (v : Word) : (s.pushReply n v).seed = s.seed := rfl
@[simp] theorem State.pushReply_digest (n : Nat) (v : Word) : (s.pushReply n v).digest = s.digest := rfl
@[simp] theorem State.pushReply_done (n : Nat) (v : Word) : (s.pushReply n v).done = s.done := rfl
@[simp] theorem State.pushReply_lanes (n : Nat) (v : Word) : (s.pushReply n v).lanes = s.lanes := rfl
@[simp] theorem State.pushReply_var (n : Nat) (v : Word) : (s.pushReply n v).var = s.var := rfl
@[simp] theorem State.pushReply_phase (n : Nat) (v : Word) : (s.pushReply n v).phase = s.phase := rfl
@[simp] theorem State.pushReply_off (n : Nat) (v : Word) : (s.pushReply n v).off = s.off := rfl
@[simp] theorem State.pushReply_mem (n : Nat) (v : Word) : (s.pushReply n v).mem = s.mem := rfl
@[simp] theorem State.pushReply_overwritten (n : Nat) (v : Word) : (s.pushReply n v).overwritten = s.overwritten := rfl
@[simp] theorem State.pushReply_late (n : Nat) (v : Word) : (s.pushReply n v).late = s.late := rfl
@[simp] theorem State.pushReply_moves (n : Nat) (v : Word) : (s.pushReply n v).moves = s.moves := rfl
@[simp] theorem State.pushReply_sched (n : Nat) (v : Word) : (s.pushReply n v).sched = s.sched := rfl
@[simp] theorem State.pushReply_written (n : Nat) (v : Word) : (s.pushReply n v).written = s.written := rfl
@[simp] theorem State.pushReply_replies (n : Nat) (v : Word) : (s.pushReply n v).replies = (n, v) :: s.replies := rfl
@[simp] theorem State.pushReply_reads (n : Nat) (v : Word) : (s.pushReply n v).reads = s.reads := rfl
@[simp] theorem State.pushReply_loadOut (n : Nat) (v : Word) : (s.pushReply n v).loadOut = s.loadOut := rfl
@[simp] theorem State.pushReply_draws (n : Nat) (v : Word) : (s.pushReply n v).draws = s.draws := rfl

/-! `loaded` -/

@[simp] theorem State.loaded_cfg (ws : List Word) (as : List Nat) : (s.loaded ws as).cfg = s.cfg := rfl
@[simp] theorem State.loaded_ptr (ws : List Word) (as : List Nat) : (s.loaded ws as).ptr = s.ptr := rfl
@[simp] theorem State.loaded_len (ws : List Word) (as : List Nat) : (s.loaded ws as).len = s.len := rfl
@[simp] theorem State.loaded_seed (ws : List Word) (as : List Nat) : (s.loaded ws as).seed = s.seed := rfl
@[simp] theorem State.loaded_digest (ws : List Word) (as : List Nat) : (s.loaded ws as).digest = s.digest := rfl
@[simp] theorem State.loaded_done (ws : List Word) (as : List Nat) : (s.loaded ws as).done = s.done := rfl
@[simp] theorem State.loaded_lanes (ws : List Word) (as : List Nat) : (s.loaded ws as).lanes = s.lanes := rfl
@[simp] theorem State.loaded_var (ws : List Word) (as : List Nat) : (s.loaded ws as).var = s.var := rfl
@[simp] theorem State.loaded_phase (ws : List Word) (as : List Nat) : (s.loaded ws as).phase = s.phase := rfl
@[simp] theorem State.loaded_off (ws : List Word) (as : List Nat) : (s.loaded ws as).off = s.off := rfl
@[simp] theorem State.loaded_mem (ws : List Word) (as : List Nat) : (s.loaded ws as).mem = s.mem := rfl
@[simp] theorem State.loaded_overwritten (ws : List Word) (as : List Nat) : (s.loaded ws as).overwritten = s.overwritten := rfl
@[simp] theorem State.loaded_late (ws : List Word) (as : List Nat) : (s.loaded ws as).late = s.late := rfl
@[simp] theorem State.loaded_moves (ws : List Word) (as : List Nat) : (s.loaded ws as).moves = s.moves := rfl
@[simp] theorem State.loaded_sched (ws : List Word) (as : List Nat) : (s.loaded ws as).sched = s.sched := rfl
@[simp] theorem State.loaded_written (ws : List Word) (as : List Nat) : (s.loaded ws as).written = s.written := rfl
@[simp] theorem State.loaded_replies (ws : List Word) (as : List Nat) : (s.loaded ws as).replies = s.replies := rfl
@[simp] theorem State.loaded_reads (ws : List Word) (as : List Nat) : (s.loaded ws as).reads = s.reads ++ as := rfl
@[simp] theorem State.loaded_loadOut (ws : List Word) (as : List Nat) : (s.loaded ws as).loadOut = ws := rfl
@[simp] theorem State.loaded_draws (ws : List Word) (as : List Nat) : (s.loaded ws as).draws = s.draws + 1 := rfl

/-! `drawn` -/

@[simp] theorem State.drawn_cfg : (s.drawn).cfg = s.cfg := rfl
@[simp] theorem State.drawn_ptr : (s.drawn).ptr = s.ptr := rfl
@[simp] theorem State.drawn_len : (s.drawn).len = s.len := rfl
@[simp] theorem State.drawn_seed : (s.drawn).seed = s.seed := rfl
@[simp] theorem State.drawn_digest : (s.drawn).digest = s.digest := rfl
@[simp] theorem State.drawn_done : (s.drawn).done = s.done := rfl
@[simp] theorem State.drawn_lanes : (s.drawn).lanes = s.lanes := rfl
@[simp] theorem State.drawn_var : (s.drawn).var = s.var := rfl
@[simp] theorem State.drawn_phase : (s.drawn).phase = s.phase := rfl
@[simp] theorem State.drawn_off : (s.drawn).off = s.off := rfl
@[simp] theorem State.drawn_mem : (s.drawn).mem = s.mem := rfl
@[simp] theorem State.drawn_overwritten : (s.drawn).overwritten = s.overwritten := rfl
@[simp] theorem State.drawn_late : (s.drawn).late = s.late := rfl
@[simp] theorem State.drawn_moves : (s.drawn).moves = s.moves := rfl
@[simp] theorem State.drawn_sched : (s.drawn).sched = s.sched := rfl
@[simp] theorem State.drawn_written : (s.drawn).written = s.written := rfl
@[simp] theorem State.drawn_replies : (s.drawn).replies = s.replies := rfl
@[simp] theorem State.drawn_reads : (s.drawn).reads = s.reads := rfl
@[simp] theorem State.drawn_loadOut : (s.drawn).loadOut = s.loadOut := rfl
@[simp] theorem State.drawn_draws : (s.drawn).draws = s.draws + 1 := rfl

/-! `newCall` -/

@[simp] theorem State.newCall_cfg : (s.newCall).cfg = s.cfg := rfl
@[simp] theorem State.newCall_ptr : (s.newCall).ptr = s.ptr := rfl
@[simp] theorem State.newCall_len : (s.newCall).len = s.len := rfl
@[simp] theorem State.newCall_seed : (s.newCall).seed = s.seed := rfl
@[simp] theorem State.newCall_digest : (s.newCall).digest = s.digest := rfl
@[simp] theorem State.newCall_done : (s.newCall).done = s.done := rfl
@[simp] theorem State.newCall_lanes : (s.newCall).lanes = s.lanes := rfl
@[simp] theorem State.newCall_var : (s.newCall).var = s.var := rfl
@[simp] theorem State.newCall_phase : (s.newCall).phase = s.phase := rfl
@[simp] theorem State.newCall_off : (s.newCall).off = s.off := rfl
@[simp] theorem State.newCall_mem : (s.newCall).mem = s.mem := rfl
@[simp] theorem State.newCall_overwritten : (s.newCall).overwritten = [] := rfl
@[simp] theorem State.newCall_late : (s.newCall).late = [] := rfl
@[simp] theorem State.newCall_moves : (s.newCall).moves = s.moves := rfl
@[simp] theorem State.newCall_sched : (s.newCall).sched = s.sched := rfl
@[simp] theorem State.newCall_written : (s.newCall).written = s.written := rfl
@[simp] theorem State.newCall_replies : (s.newCall).replies = s.replies := rfl
@[simp] theorem State.newCall_reads : (s.newCall).reads = [] := rfl
@[simp] theorem State.newCall_loadOut : (s.newCall).loadOut = s.loadOut := rfl
@[simp] theorem State.newCall_draws : (s.newCall).draws = s.draws := rfl

/-! `completeCall`, `acceptStart`, `resetEvent`, `storeByte`: the updates the rules name. -/

@[simp] theorem completeCall_cfg : (completeCall s).cfg = s.cfg := rfl
@[simp] theorem completeCall_ptr : (completeCall s).ptr = s.ptr := rfl
@[simp] theorem completeCall_len : (completeCall s).len = s.len := rfl
@[simp] theorem completeCall_seed : (completeCall s).seed = s.seed := rfl
@[simp] theorem completeCall_digest : (completeCall s).digest = s.digest := rfl
@[simp] theorem completeCall_done : (completeCall s).done = true := rfl
@[simp] theorem completeCall_lanes : (completeCall s).lanes = s.lanes := rfl
@[simp] theorem completeCall_var : (completeCall s).var = s.var := rfl
@[simp] theorem completeCall_phase : (completeCall s).phase = .idle := rfl
@[simp] theorem completeCall_off : (completeCall s).off = s.off := rfl
@[simp] theorem completeCall_mem : (completeCall s).mem = s.mem := rfl
@[simp] theorem completeCall_overwritten : (completeCall s).overwritten = s.overwritten := rfl
@[simp] theorem completeCall_late : (completeCall s).late = s.late := rfl
@[simp] theorem completeCall_moves : (completeCall s).moves = s.moves := rfl
@[simp] theorem completeCall_sched : (completeCall s).sched = s.sched := rfl
@[simp] theorem completeCall_written : (completeCall s).written = s.written := rfl
@[simp] theorem completeCall_replies : (completeCall s).replies = s.replies := rfl
@[simp] theorem completeCall_reads : (completeCall s).reads = s.reads := rfl
@[simp] theorem completeCall_loadOut : (completeCall s).loadOut = s.loadOut := rfl
@[simp] theorem completeCall_draws : (completeCall s).draws = s.draws := rfl
@[simp] theorem acceptStart_cfg (w : Word) : (acceptStart s w).cfg = s.cfg := rfl
@[simp] theorem acceptStart_ptr (w : Word) : (acceptStart s w).ptr = s.ptr := rfl
@[simp] theorem acceptStart_len (w : Word) : (acceptStart s w).len = s.len := rfl
@[simp] theorem acceptStart_seed (w : Word) : (acceptStart s w).seed = s.seed := rfl
@[simp] theorem acceptStart_digest (w : Word) : (acceptStart s w).digest = s.digest := rfl
@[simp] theorem acceptStart_done (w : Word) : (acceptStart s w).done = false := rfl
@[simp] theorem acceptStart_lanes (w : Word) : (acceptStart s w).lanes = s.lanes := rfl
@[simp] theorem acceptStart_var (w : Word) : (acceptStart s w).var = cmdOp w := rfl
@[simp] theorem acceptStart_phase (w : Word) : (acceptStart s w).phase = .init := rfl
@[simp] theorem acceptStart_off (w : Word) : (acceptStart s w).off = s.off := rfl
@[simp] theorem acceptStart_mem (w : Word) : (acceptStart s w).mem = s.mem := rfl
@[simp] theorem acceptStart_overwritten (w : Word) : (acceptStart s w).overwritten = [] := rfl
@[simp] theorem acceptStart_late (w : Word) : (acceptStart s w).late = [] := rfl
@[simp] theorem acceptStart_moves (w : Word) : (acceptStart s w).moves = s.moves := rfl
@[simp] theorem acceptStart_sched (w : Word) : (acceptStart s w).sched = s.sched := rfl
@[simp] theorem acceptStart_written (w : Word) : (acceptStart s w).written = s.written := rfl
@[simp] theorem acceptStart_replies (w : Word) : (acceptStart s w).replies = s.replies := rfl
@[simp] theorem acceptStart_reads (w : Word) : (acceptStart s w).reads = [] := rfl
@[simp] theorem acceptStart_loadOut (w : Word) : (acceptStart s w).loadOut = s.loadOut := rfl
@[simp] theorem acceptStart_draws (w : Word) : (acceptStart s w).draws = s.draws := rfl
@[simp] theorem resetEvent_cfg : (resetEvent s).cfg = s.cfg := rfl
@[simp] theorem resetEvent_ptr : (resetEvent s).ptr = 0 := rfl
@[simp] theorem resetEvent_len : (resetEvent s).len = 0 := rfl
@[simp] theorem resetEvent_seed : (resetEvent s).seed = 0 := rfl
@[simp] theorem resetEvent_digest : (resetEvent s).digest = 0 := rfl
@[simp] theorem resetEvent_done : (resetEvent s).done = false := rfl
@[simp] theorem resetEvent_lanes : (resetEvent s).lanes = ⟨0, 0, 0, 0, 0⟩ := rfl
@[simp] theorem resetEvent_var : (resetEvent s).var = 0 := rfl
@[simp] theorem resetEvent_phase : (resetEvent s).phase = .idle := rfl
@[simp] theorem resetEvent_off : (resetEvent s).off = 0 := rfl
@[simp] theorem resetEvent_mem : (resetEvent s).mem = s.mem := rfl
@[simp] theorem resetEvent_overwritten : (resetEvent s).overwritten = [] := rfl
@[simp] theorem resetEvent_late : (resetEvent s).late = [] := rfl
@[simp] theorem resetEvent_moves : (resetEvent s).moves = s.moves := rfl
@[simp] theorem resetEvent_sched : (resetEvent s).sched = s.sched := rfl
@[simp] theorem resetEvent_written : (resetEvent s).written = ⟨false, false, false⟩ := rfl
@[simp] theorem resetEvent_replies : (resetEvent s).replies = s.replies := rfl
@[simp] theorem resetEvent_reads : (resetEvent s).reads = [] := rfl
@[simp] theorem resetEvent_loadOut : (resetEvent s).loadOut = [] := rfl
@[simp] theorem resetEvent_draws : (resetEvent s).draws = s.draws := rfl
@[simp] theorem storeByte_cfg (a : Nat) (b : Byte) : (storeByte s a b).cfg = s.cfg := rfl
@[simp] theorem storeByte_ptr (a : Nat) (b : Byte) : (storeByte s a b).ptr = s.ptr := rfl
@[simp] theorem storeByte_len (a : Nat) (b : Byte) : (storeByte s a b).len = s.len := rfl
@[simp] theorem storeByte_seed (a : Nat) (b : Byte) : (storeByte s a b).seed = s.seed := rfl
@[simp] theorem storeByte_digest (a : Nat) (b : Byte) : (storeByte s a b).digest = s.digest := rfl
@[simp] theorem storeByte_done (a : Nat) (b : Byte) : (storeByte s a b).done = s.done := rfl
@[simp] theorem storeByte_lanes (a : Nat) (b : Byte) : (storeByte s a b).lanes = s.lanes := rfl
@[simp] theorem storeByte_var (a : Nat) (b : Byte) : (storeByte s a b).var = s.var := rfl
@[simp] theorem storeByte_phase (a : Nat) (b : Byte) : (storeByte s a b).phase = s.phase := rfl
@[simp] theorem storeByte_off (a : Nat) (b : Byte) : (storeByte s a b).off = s.off := rfl
@[simp] theorem storeByte_mem (a : Nat) (b : Byte) : (storeByte s a b).mem = memPut s.mem a b := rfl
@[simp] theorem storeByte_moves (a : Nat) (b : Byte) : (storeByte s a b).moves = s.moves := rfl
@[simp] theorem storeByte_sched (a : Nat) (b : Byte) : (storeByte s a b).sched = s.sched := rfl
@[simp] theorem storeByte_written (a : Nat) (b : Byte) : (storeByte s a b).written = s.written := rfl
@[simp] theorem storeByte_replies (a : Nat) (b : Byte) : (storeByte s a b).replies = s.replies := rfl
@[simp] theorem storeByte_reads (a : Nat) (b : Byte) : (storeByte s a b).reads = s.reads := rfl
@[simp] theorem storeByte_loadOut (a : Nat) (b : Byte) : (storeByte s a b).loadOut = s.loadOut := rfl
@[simp] theorem storeByte_draws (a : Nat) (b : Byte) : (storeByte s a b).draws = s.draws := rfl
@[simp] theorem afterTurn_cfg : (afterTurn s).cfg = s.cfg := rfl
@[simp] theorem afterTurn_ptr : (afterTurn s).ptr = s.ptr := rfl
@[simp] theorem afterTurn_len : (afterTurn s).len = s.len := rfl
@[simp] theorem afterTurn_seed : (afterTurn s).seed = s.seed := rfl
@[simp] theorem afterTurn_digest : (afterTurn s).digest = s.digest := rfl
@[simp] theorem afterTurn_done : (afterTurn s).done = s.done := rfl
@[simp] theorem afterTurn_lanes : (afterTurn s).lanes = s.lanes := rfl
@[simp] theorem afterTurn_var : (afterTurn s).var = s.var := rfl
@[simp] theorem afterTurn_phase : (afterTurn s).phase = s.phase := rfl
@[simp] theorem afterTurn_off : (afterTurn s).off = s.off := rfl
@[simp] theorem afterTurn_mem : (afterTurn s).mem = s.mem := rfl
@[simp] theorem afterTurn_overwritten : (afterTurn s).overwritten = s.overwritten := rfl
@[simp] theorem afterTurn_late : (afterTurn s).late = s.late := rfl
@[simp] theorem afterTurn_moves : (afterTurn s).moves = s.moves := rfl
@[simp] theorem afterTurn_sched : (afterTurn s).sched = s.sched.tail := rfl
@[simp] theorem afterTurn_written : (afterTurn s).written = s.written := rfl
@[simp] theorem afterTurn_replies : (afterTurn s).replies = s.replies := rfl
@[simp] theorem afterTurn_reads : (afterTurn s).reads = s.reads := rfl
@[simp] theorem afterTurn_loadOut : (afterTurn s).loadOut = s.loadOut := rfl
@[simp] theorem afterTurn_draws : (afterTurn s).draws = s.draws := rfl

end Sys2Proof.Machine
end

