-- ==== Sys2Proof/Laws/Memory.lean ====
section
/-! SUPPORT. Memory as a list in canonical form: reading after writing, and that every memory operation keeps the form. -/

namespace Sys2Proof.Machine

theorem memByte_memPut_same (m : List Host.Cell) (a : Nat) (b : Byte) : memByte (memPut m a b) a = some b := by
  induction m with
  | nil => simp [memPut, memByte]
  | cons c m ih =>
    obtain ⟨k, x⟩ := c
    unfold memPut
    split
    · simp [memByte]
    · split
      · simp [memByte]
      · rename_i h1 h2
        have : k ≠ a := fun h => h2 h.symm
        simp [memByte, this, ih]

theorem memByte_memPut_other (m : List Host.Cell) (a k : Nat) (b : Byte) (h : k ≠ a) :
    memByte (memPut m a b) k = memByte m k := by
  induction m with
  | nil => simp [memPut, memByte, Ne.symm h]
  | cons c m ih =>
    obtain ⟨j, x⟩ := c
    unfold memPut
    split
    · simp [memByte, Ne.symm h]
    · split
      · subst_vars
        simp [memByte, Ne.symm h]
      · simp [memByte, ih]

theorem memAbove_mono {j k : Nat} {m : List Host.Cell} (h : memAbove k m = true) (hjk : j ≤ k) :
    memAbove j m = true := by
  cases m with
  | nil => rfl
  | cons c m =>
    simp only [memAbove, Bool.and_eq_true, decide_eq_true_eq] at h ⊢
    exact ⟨by omega, h.2⟩

theorem memAbove_memPut {k a : Nat} {b : Byte} {m : List Host.Cell} (h : memAbove k m = true) (hka : k < a) :
    memAbove k (memPut m a b) = true := by
  induction m generalizing k with
  | nil => simp [memPut, memAbove, hka]
  | cons c m ih =>
    obtain ⟨j, x⟩ := c
    simp only [memAbove, Bool.and_eq_true, decide_eq_true_eq] at h
    unfold memPut
    split
    · simp [memAbove, h.2, *]
    · split
      · subst_vars; simp [memAbove, h.1, h.2]
      · have : j < a := by omega
        simp [memAbove, h.1, ih h.2 this]

/-- The canonical form, in two parts: rising addresses, all of them in the address space. -/
theorem memWf_iff (space : Nat) (m : List Host.Cell) :
    memWf space m = true ↔
      (∀ c m', m = c :: m' → memAbove c.1 m' = true) ∧ ∀ c ∈ m, c.1 < space := by
  cases m with
  | nil => simp [memWf]
  | cons c m =>
    obtain ⟨k, x⟩ := c
    simp only [memWf, Bool.and_eq_true, List.all_eq_true, decide_eq_true_eq]
    constructor
    · rintro ⟨h1, h2⟩
      refine ⟨?_, h2⟩
      intro c' m' h
      cases h
      exact h1
    · rintro ⟨h1, h2⟩
      exact ⟨h1 (k, x) m rfl, h2⟩

theorem mem_memPut {m : List Host.Cell} {a : Nat} {b : Byte} {c : Host.Cell} (h : c ∈ memPut m a b) :
    c = (a, b) ∨ c ∈ m := by
  induction m with
  | nil => simpa [memPut] using h
  | cons d m ih =>
    obtain ⟨j, x⟩ := d
    unfold memPut at h
    split at h
    · simpa using h
    · split at h
      · simp only [List.mem_cons] at h ⊢
        tauto
      · simp only [List.mem_cons] at h ⊢
        rcases h with h | h
        · exact .inr (.inl h)
        · rcases ih h with h | h
          · exact .inl h
          · exact .inr (.inr h)

/-- A write keeps the canonical form. -/
theorem memWf_memPut {space : Nat} {m : List Host.Cell} {a : Nat} {b : Byte} (h : memWf space m = true)
    (ha : a < space) : memWf space (memPut m a b) = true := by
  rw [memWf_iff] at h ⊢
  refine ⟨?_, fun c hc => ?_⟩
  · intro c m' hm
    cases m with
    | nil => simp only [memPut, List.cons.injEq] at hm; rw [← hm.2]; rfl
    | cons d m =>
      obtain ⟨j, x⟩ := d
      have h1 := h.1 (j, x) m rfl
      unfold memPut at hm
      split at hm
      · rename_i hlt
        obtain ⟨rfl, rfl⟩ := List.cons.inj hm
        simp [memAbove, hlt, h1]
      · split at hm
        · subst_vars
          obtain ⟨rfl, rfl⟩ := List.cons.inj hm
          exact h1
        · obtain ⟨rfl, rfl⟩ := List.cons.inj hm
          exact memAbove_memPut h1 (by dsimp only; omega)
  · rcases mem_memPut hc with rfl | hc
    · exact ha
    · exact h.2 c hc

/-- Reset memory is in canonical form, on every instance. -/
theorem memWf_reset (cfg : Config) : memWf (addressSpace cfg) (State.resetOf cfg).mem = true := rfl

/-- A memory write from outside keeps the canonical form. -/
theorem memWf_storeByte {s : State} {a : Nat} {b : Byte} (h : memWf (addressSpace s.cfg) s.mem = true)
    (ha : a < addressSpace s.cfg) : memWf (addressSpace s.cfg) (storeByte s a b).mem = true := memWf_memPut h ha

end Sys2Proof.Machine
end

