-- ==== Sys2Proof/Laws/Ops.lean ====
section
/-! SUPPORT. What the shared operations over memory can do: one byte, a run of bytes, one word, a block, the tail. -/

namespace Sys2Proof.Machine

theorem byteAt_isSome (s : State) (a : Nat) :
    (byteAt s a).isSome = true ↔ a < addressSpace s.cfg ∧ (memByte s.mem a).isSome = true ∧ a ∉ s.late := by
  unfold byteAt
  split
  · rename_i h
    cases hm : memByte s.mem a <;> simp [h]
  · rename_i h
    simp only [Option.isSome_none, Bool.false_eq_true, false_iff]
    exact fun h' => h ⟨h'.1, h'.2.2⟩

/-- A write among those of the host's moves is one of the moves, inside the address space. -/
theorem mem_storesOf {cfg : Config} {ms : List HostMove} {c : Host.Cell} (h : c ∈ storesOf cfg ms) :
    HostMove.store c.1 c.2 ∈ ms ∧ c.1 < addressSpace cfg := by
  induction ms with
  | nil => cases h
  | cons m ms ih =>
    have tail : c ∈ storesOf cfg ms → HostMove.store c.1 c.2 ∈ m :: ms ∧ c.1 < addressSpace cfg :=
      fun h => ⟨List.mem_cons_of_mem _ (ih h).1, (ih h).2⟩
    cases m with
    | wait => cases h
    | reset => cases h
    | write n bits v =>
      simp only [storesOf] at h
      split at h
      · exact tail h
      · cases h
    | read n bits =>
      simp only [storesOf] at h
      split at h
      · exact tail h
      · cases h
    | store a b =>
      simp only [storesOf] at h
      split at h
      · rename_i ha
        rcases List.mem_cons.mp h with rfl | h
        · exact ⟨List.mem_cons_self .., ha⟩
        · exact tail h
      · cases h

/-- A byte that no pending move writes is not written later in the call. -/
theorem lostAt_laterWrites_eq_nil {s : State} {a : Nat} (h : ∀ b, HostMove.store a b ∉ s.moves) :
    lostAt (laterWrites s) a = [] := by
  unfold lostAt
  rw [List.map_eq_nil_iff, List.filter_eq_nil_iff]
  intro c hc
  simp only [decide_eq_true_eq]
  rintro rfl
  exact h c.2 (List.mem_of_mem_take (mem_storesOf hc).1)

@[simp] theorem hostTurns_zero (sc : List Agent) : hostTurns 0 sc = 0 := by
  induction sc with
  | nil => rfl
  | cons a sc ih => cases a <;> simp [hostTurns, ih]

@[simp] theorem writesWithin_zero (s : State) : writesWithin s 0 = [] := by simp [writesWithin, storesOf]

/-- While the engine is idle no call is in progress, and nothing is written later in it. -/
theorem laterWrites_of_idle {s : State} (h : s.phase = .idle) : laterWrites s = [] := by
  simp [laterWrites, stepsLeft, h]

/-- A byte that is not written during the call reads as memory holds it. -/
theorem byteAt_of_unwritten {s : State} {a : Nat} (h : lostAt s.overwritten a = [])
    (hw : lostAt (laterWrites s) a = []) (hl : a ∉ s.late) (ha : a < addressSpace s.cfg) : byteAt s a = memByte s.mem a := by
  unfold byteAt
  rw [if_pos ⟨ha, hl⟩, h, hw]
  cases memByte s.mem a <;> rfl

/-- A run of bytes is read when each is, and then it is those bytes in order. -/
theorem memRead_ok_iff (s : State) (addr n : Nat) (bs : List Byte) :
    memRead s addr n = .ok bs ↔ bs.length = n ∧ ∀ i, i < n → byteAt s (addr + i) = bs[i]? := by
  induction n generalizing addr bs with
  | zero =>
    simp only [memRead, Except.ok.injEq]
    constructor
    · rintro rfl; simp
    · rintro ⟨h, -⟩; exact (List.length_eq_zero_iff.mp h).symm
  | succ n ih =>
    unfold memRead
    cases hb : byteAt s addr with
    | none =>
      simp only [reduceCtorEq, false_iff, not_and]
      intro hlen h
      have := h 0 (by omega)
      rw [Nat.add_zero, hb] at this
      cases bs with
      | nil => simp at hlen
      | cons b bs => simp at this
    | some b =>
      cases hr : memRead s (addr + 1) n with
      | error e =>
        simp only [reduceCtorEq, false_iff, not_and]
        intro hlen h
        cases bs with
        | nil => simp at hlen
        | cons c cs =>
          have hcs : memRead s (addr + 1) n = .ok cs := (ih (addr + 1) cs).mpr
            ⟨by simpa using hlen, fun i hi => by
              have := h (i + 1) (by omega)
              simpa [Nat.add_assoc, Nat.add_comm 1 i] using this⟩
          rw [hcs] at hr
          cases hr
      | ok cs =>
        obtain ⟨hl, hi⟩ := (ih (addr + 1) cs).mp hr
        simp only [Except.ok.injEq]
        constructor
        · rintro rfl
          refine ⟨by simp [hl], fun i h => ?_⟩
          cases i with
          | zero => simpa using hb
          | succ i =>
            have := hi i (by omega)
            simpa [Nat.add_assoc, Nat.add_comm 1 i] using this
        · rintro ⟨hlen, h⟩
          cases bs with
          | nil => simp at hlen
          | cons c ds =>
            have h0 := h 0 (by omega)
            rw [Nat.add_zero, hb] at h0
            have hds : memRead s (addr + 1) n = .ok ds := (ih (addr + 1) ds).mpr
              ⟨by simpa using hlen, fun i hi => by
                have := h (i + 1) (by omega)
                simpa [Nat.add_assoc, Nat.add_comm 1 i] using this⟩
            rw [hr] at hds
            cases hds
            simp at h0
            rw [h0]

/-- A run of bytes that is not read stops at the first address memory does not admit. -/
theorem memRead_error {s : State} {addr n e : Nat} (h : memRead s addr n = .error e) :
    addr ≤ e ∧ e < addr + n ∧ byteAt s e = none := by
  induction n generalizing addr with
  | zero => simp [memRead] at h
  | succ n ih =>
    unfold memRead at h
    cases hb : byteAt s addr with
    | none =>
      rw [hb] at h
      cases h
      exact ⟨Nat.le_refl _, by omega, hb⟩
    | some b =>
      rw [hb] at h
      cases hr : memRead s (addr + 1) n with
      | error e' =>
        simp only [hr] at h
        cases h
        have := ih hr
        exact ⟨by omega, by omega, this.2.2⟩
      | ok bs => simp [hr] at h

/-- Reading depends on the bytes read and nothing else. -/
theorem memRead_congr {s t : State} {addr n : Nat} (h : ∀ i, i < n → byteAt t (addr + i) = byteAt s (addr + i)) :
    memRead t addr n = memRead s addr n := by
  induction n generalizing addr with
  | zero => rfl
  | succ n ih =>
    have h0 := h 0 (by omega)
    have hr := ih (addr := addr + 1) (fun i hi => by
      have := h (i + 1) (by omega)
      simpa [Nat.add_assoc, Nat.add_comm 1 i] using this)
    simp only [Nat.add_zero] at h0
    simp [memRead, h0, hr]

/-- What is readable is read. -/
theorem memRead_of_readable {s : State} {addr n : Nat} (h : Readable s addr n) :
    ∃ bs, memRead s addr n = .ok bs ∧ bs.length = n := by
  cases hr : memRead s addr n with
  | ok bs => exact ⟨bs, rfl, ((memRead_ok_iff s addr n bs).mp hr).1⟩
  | error e =>
    obtain ⟨h1, h2, h3⟩ := memRead_error hr
    have := (byteAt_isSome s e).mpr (by
      have := h (e - addr) (by omega)
      rwa [Nat.add_sub_cancel' h1] at this)
    rw [h3] at this
    cases this

/-- In contract a run of bytes reads as the buffer's content (20_memory R32). -/
theorem memRead_of_holds {s : State} {addr : Nat} {B : List Byte} (h : HoldsBytes s addr B) :
    memRead s addr B.length = .ok B := by
  refine (memRead_ok_iff s addr B.length B).mpr ⟨rfl, fun i hi => ?_⟩
  rw [byteAt_of_unwritten (h.2 i hi).1 (h.2 i hi).2.1 (h.2 i hi).2.2 (h.1 i hi).1]
  exact (h.1 i hi).2

@[simp] theorem loadWord_of_memRead {s : State} {be : Bool} {addr n : Nat} {bs : List Byte}
    (h : memRead s addr n = .ok bs) : loadWord s be addr n = .ok (assemble be bs) := by
  simp [loadWord, h, bind, Except.bind, pure, Except.pure]

theorem loadWord_error {s : State} {be : Bool} {addr n e : Nat} (h : loadWord s be addr n = .error e) :
    memRead s addr n = .error e := by
  cases hr : memRead s addr n with
  | ok bs => simp [loadWord_of_memRead hr] at h
  | error e' => simpa [loadWord, hr, bind, Except.bind] using h

theorem readable_sub {s : State} {addr n k m : Nat} (h : Readable s addr n) (hk : k + m ≤ n) :
    Readable s (addr + k) m := fun i hi => by
  simpa [Nat.add_assoc] using h (k + i) (by omega)

theorem loadWord_of_readable {s : State} {addr n : Nat} (be : Bool) (h : Readable s addr n) :
    ∃ v, loadWord s be addr n = .ok v := by
  obtain ⟨bs, hb, -⟩ := memRead_of_readable h
  exact ⟨_, loadWord_of_memRead hb⟩

theorem loadWord_congr {s t : State} {be : Bool} {addr n : Nat}
    (h : ∀ i, i < n → byteAt t (addr + i) = byteAt s (addr + i)) : loadWord t be addr n = loadWord s be addr n := by
  unfold loadWord
  rw [memRead_congr h]

/-- A block fetch depends on where it fetches, the byte order and the 32 bytes. -/
theorem fetchBlock_congr {s t : State} (hn : nextAddr t = nextAddr s) (hv : t.var = s.var)
    (h : ∀ i, i < 32 → byteAt t (nextAddr s + i) = byteAt s (nextAddr s + i)) : fetchBlock t = fetchBlock s := by
  have hl : ∀ (be : Bool) k, k + 8 ≤ 32 → loadWord t be (nextAddr s + k) 8 = loadWord s be (nextAddr s + k) 8 :=
    fun be k hk => loadWord_congr fun i hi => by
      have := h (k + i) (by omega)
      rwa [← Nat.add_assoc] at this
  have h0 := fun be => hl be 0 (by omega)
  simp only [Nat.add_zero] at h0
  unfold fetchBlock
  rw [hn, hv]
  simp only [h0, hl _ 8 (by omega), hl _ 16 (by omega), hl _ 24 (by omega)]

theorem tailWords_congr {s t : State} {be : Bool} {r : Nat} :
    ∀ {k addr : Nat},
      (∀ i, i < 8 * (k - 1) + (if r % 8 = 0 then 8 else r % 8) → byteAt t (addr + i) = byteAt s (addr + i)) →
        tailWords t be r k addr = tailWords s be r k addr := by
  intro k
  induction k with
  | zero => intros; rfl
  | succ k ih =>
    intro addr h
    have hl : loadWord t be addr (if 0 < k ∨ r % 8 = 0 then 8 else r % 8) =
        loadWord s be addr (if 0 < k ∨ r % 8 = 0 then 8 else r % 8) := by
      refine loadWord_congr fun i hi => h i ?_
      split at hi <;> split <;> omega
    have hr : tailWords t be r k (addr + 8) = tailWords s be r k (addr + 8) := by
      rcases Nat.eq_zero_or_pos k with rfl | h0
      · rfl
      · refine ih fun i hi => ?_
        have := h (8 + i) (by omega)
        rwa [← Nat.add_assoc] at this
    simp only [tailWords, hl, hr]

/-- The tail's loads depend on where they load, `LEN - OFF`, the byte order and the bytes left. -/
theorem fetchTail_congr {s t : State} (hn : nextAddr t = nextAddr s) (hr : remaining t = remaining s) (hv : t.var = s.var)
    (h : ∀ i, i < remaining s → byteAt t (nextAddr s + i) = byteAt s (nextAddr s + i)) : fetchTail t = fetchTail s := by
  unfold fetchTail
  rw [hn, hr, hv]
  rcases Nat.eq_zero_or_pos (remaining s) with h0 | h0
  · simp [h0, ceil8, tailWords]
  · refine tailWords_congr fun i hi => h i ?_
    unfold ceil8 at hi
    split at hi <;> omega

/-- The four loads of a block, when memory admits its 32 bytes (40_load R74). -/
theorem fetchBlock_of_readable {s : State} (h : Readable s (nextAddr s) 32) : ∃ w, fetchBlock s = .ok w := by
  obtain ⟨v0, h0⟩ := loadWord_of_readable (varBe s.var) (readable_sub (k := 0) (m := 8) h (by omega))
  obtain ⟨v1, h1⟩ := loadWord_of_readable (varBe s.var) (readable_sub (k := 8) (m := 8) h (by omega))
  obtain ⟨v2, h2⟩ := loadWord_of_readable (varBe s.var) (readable_sub (k := 16) (m := 8) h (by omega))
  obtain ⟨v3, h3⟩ := loadWord_of_readable (varBe s.var) (readable_sub (k := 24) (m := 8) h (by omega))
  rw [Nat.add_zero] at h0
  exact ⟨orderBlock (varBe s.var) v0 v1 v2 v3, by
    simp [fetchBlock, h0, h1, h2, h3, bind, Except.bind, pure, Except.pure]⟩

/-- A block fetch that answers is its four loads in the variant's order. -/
theorem fetchBlock_ok {s : State} {w : Block} (h : fetchBlock s = .ok w) :
    ∃ v0 v1 v2 v3, loadWord s (varBe s.var) (nextAddr s) 8 = .ok v0 ∧
      loadWord s (varBe s.var) (nextAddr s + 8) 8 = .ok v1 ∧ loadWord s (varBe s.var) (nextAddr s + 16) 8 = .ok v2 ∧
      loadWord s (varBe s.var) (nextAddr s + 24) 8 = .ok v3 ∧ w = orderBlock (varBe s.var) v0 v1 v2 v3 := by
  simp only [fetchBlock, bind, Except.bind, pure, Except.pure] at h
  split at h; · cases h
  split at h; · cases h
  split at h; · cases h
  split at h; · cases h
  cases h
  exact ⟨_, _, _, _, ‹_›, ‹_›, ‹_›, ‹_›, rfl⟩

/-- A block fetch that does not answer stops at an address of the block that memory does not admit. -/
theorem fetchBlock_error {s : State} {e : Nat} (h : fetchBlock s = .error e) :
    nextAddr s ≤ e ∧ e < nextAddr s + 32 ∧ byteAt s e = none := by
  simp only [fetchBlock, bind, Except.bind, pure, Except.pure] at h
  split at h
  · rename_i he; cases h; have := memRead_error (loadWord_error he); exact ⟨by omega, by omega, this.2.2⟩
  split at h
  · rename_i he; cases h; have := memRead_error (loadWord_error he); exact ⟨by omega, by omega, this.2.2⟩
  split at h
  · rename_i he; cases h; have := memRead_error (loadWord_error he); exact ⟨by omega, by omega, this.2.2⟩
  split at h
  · rename_i he; cases h; have := memRead_error (loadWord_error he); exact ⟨by omega, by omega, this.2.2⟩
  cases h

/-- `k` tail words are loaded when memory admits their bytes: full words, and a last one of 8 or `r mod 8` bytes. -/
theorem tailWords_of_readable {s : State} (be : Bool) {r : Nat} :
    ∀ {k addr : Nat}, Readable s addr (8 * (k - 1) + if r % 8 = 0 then 8 else r % 8) →
      ∃ vs, tailWords s be r k addr = .ok vs ∧ vs.length = k := by
  intro k
  induction k with
  | zero => intro addr _; exact ⟨[], rfl, rfl⟩
  | succ k ih =>
    intro addr h
    have hl : Readable s addr (if 0 < k ∨ r % 8 = 0 then 8 else r % 8) := by
      refine fun i hi => h i ?_
      split at hi <;> split <;> omega
    obtain ⟨v, hv⟩ := loadWord_of_readable be hl
    have hr : Readable s (addr + 8) (8 * (k - 1) + if r % 8 = 0 then 8 else r % 8) ∨ k = 0 := by
      rcases Nat.eq_zero_or_pos k with h0 | h0
      · exact .inr h0
      · exact .inl (readable_sub h (by omega))
    rcases hr with hr | rfl
    · obtain ⟨vs, hvs, hlen⟩ := ih hr
      exact ⟨v :: vs, by simp [tailWords, hv, hvs, bind, Except.bind, pure, Except.pure], by simp [hlen]⟩
    · simp only [lt_irrefl, false_or] at hv
      exact ⟨[v], by simp [tailWords, hv, bind, Except.bind, pure, Except.pure], rfl⟩

/-- The loads of the tail, when memory admits its bytes (42_tail R90). -/
theorem fetchTail_of_readable {s : State} (h : Readable s (nextAddr s) (remaining s)) :
    ∃ vs, fetchTail s = .ok vs ∧ vs.length = ceil8 (remaining s) := by
  rcases Nat.eq_zero_or_pos (remaining s) with h0 | h0
  · exact ⟨[], by simp [fetchTail, h0, ceil8, tailWords, pure, Except.pure], by simp [h0, ceil8]⟩
  · refine tailWords_of_readable _ ?_
    refine fun i hi => h i ?_
    unfold ceil8 at hi
    split at hi <;> omega

/-- A tail load that does not answer stops at an address of the tail that memory does not admit. -/
theorem tailWords_error {s : State} {be : Bool} {r : Nat} :
    ∀ {k addr e : Nat}, tailWords s be r k addr = .error e →
      addr ≤ e ∧ e < addr + (8 * (k - 1) + if r % 8 = 0 then 8 else r % 8) ∧ byteAt s e = none := by
  intro k
  induction k with
  | zero => intro addr e h; simp [tailWords, pure, Except.pure] at h
  | succ k ih =>
    intro addr e h
    simp only [tailWords, bind, Except.bind, pure, Except.pure] at h
    split at h
    · rename_i he
      cases h
      have := memRead_error (loadWord_error he)
      refine ⟨this.1, ?_, this.2.2⟩
      have h2 := this.2.1
      split at h2 <;> split <;> omega
    · split at h
      · rename_i he
        cases h
        have := ih he
        refine ⟨by omega, ?_, this.2.2⟩
        have h2 := this.2.1
        have : k ≠ 0 := by
          rintro rfl
          simp [tailWords, pure, Except.pure] at he
        omega
      · cases h

theorem fetchTail_error {s : State} {e : Nat} (h : fetchTail s = .error e) :
    nextAddr s ≤ e ∧ e < nextAddr s + remaining s ∧ byteAt s e = none := by
  have hr := tailWords_error h
  refine ⟨hr.1, ?_, hr.2.2⟩
  have h2 := hr.2.1
  rcases Nat.eq_zero_or_pos (remaining s) with h0 | h0
  · simp [fetchTail, h0, ceil8, tailWords, pure, Except.pure] at h
  · unfold ceil8 at h2
    split at h2 <;> omega

end Sys2Proof.Machine
end

