-- ==== Sys2Proof/Laws/Exec.lean ====
section
/-! SUPPORT. Everything a shared operation can do: `START`, the loads, the reading micro-operations, a move and a step. -/

namespace Sys2Proof.Machine

theorem busy_iff (s : State) : busy s = true ↔ s.phase ≠ .idle := by simp [busy]

/-- `START` changes nothing or is accepted (44_variants64 R110). -/
theorem start_cases (s : State) (w : Word) :
    (start s w = .next s ∧ (s.phase ≠ .idle ∨ cmdReserved s.cfg.hasCrc32c w = true)) ∨
      (start s w = .next (acceptStart s w) ∧ s.phase = .idle ∧ cmdReserved s.cfg.hasCrc32c w = false) := by
  unfold start
  by_cases h : s.phase = .idle
  · cases hr : cmdReserved s.cfg.hasCrc32c w <;> simp [h]
  · simp [h]

theorem start_of_busy {s : State} (h : s.phase ≠ .idle) (w : Word) : start s w = .next s := by simp [start, h]

theorem start_of_idle {s : State} {w : Word} (h : s.phase = .idle) (hr : cmdReserved s.cfg.hasCrc32c w = false) :
    start s w = .next (acceptStart s w) := by simp [start, h, hr]

theorem opcode_cases (op : BitVec 3) :
    op = 0 ∨ op = 1 ∨ op = 2 ∨ op = 3 ∨ op = 4 ∨ op = 5 ∨ op = 6 ∨ op = 7 := by bv_omega

/-- A word that is not reserved is its opcode, zero-extended (30_encoding R50, R54). -/
theorem word_of_not_reserved {hc : Bool} {w : Word} (h : cmdReserved hc w = false) : w = (cmdOp w).setWidth 64 := by
  have h0 : cmdZero w = 0 := by
    simp only [cmdReserved, Bool.or_eq_false_iff, decide_eq_false_iff_not, not_not] at h
    exact h.1.1.1.1
  apply BitVec.eq_of_toNat_eq
  have h1 := congrArg BitVec.toNat h0
  simp only [cmdZero, BitVec.extractLsb'_toNat, Nat.shiftRight_eq_div_pow, BitVec.ofNat_eq_ofNat, BitVec.toNat_ofNat,
    Nat.zero_mod] at h1
  simp only [cmdOp, BitVec.toNat_setWidth, BitVec.extractLsb'_toNat, Nat.shiftRight_zero]
  have := w.isLt
  omega

/-- The words that are not reserved are the five command words (30_encoding R52, R54). -/
theorem not_reserved_cases {hc : Bool} {w : Word} (h : cmdReserved hc w = false) :
    w = 0 ∨ w = 1 ∨ w = 2 ∨ w = 3 ∨ (w = 4 ∧ hc = true) := by
  have hw := word_of_not_reserved h
  generalize cmdOp w = op at hw
  subst hw
  revert h
  rcases opcode_cases op with rfl | rfl | rfl | rfl | rfl | rfl | rfl | rfl <;> cases hc <;> decide

/-- Decoding a word written to `CMD` and running the command is `START` of that word, whatever the word (30_encoding R52,
44_variants64 R110). -/
theorem exec_decodeCmd (s : State) (hc : Bool) (w : Word) : exec (decodeCmd hc w) s = start s w := by
  cases hr : cmdReserved hc w with
  | true => simp only [decodeCmd, hr, if_true]; rfl
  | false =>
    rcases not_reserved_cases hr with rfl | rfl | rfl | rfl | ⟨rfl, rfl⟩ <;> rfl

/-- The commands of an instance are the words that are not reserved (30_encoding R52, R54). -/
theorem legalCommand_iff (cfg : Config) (w : Word) : LegalCommand cfg w ↔ cmdReserved cfg.hasCrc32c w = false := by
  constructor
  · rintro (rfl | rfl | rfl | rfl | ⟨rfl, h⟩)
    · cases cfg.hasCrc32c <;> rfl
    · cases cfg.hasCrc32c <;> rfl
    · cases cfg.hasCrc32c <;> rfl
    · cases cfg.hasCrc32c <;> rfl
    · rw [h]; rfl
  · exact not_reserved_cases

/-- A 64-bit host write of `CMD` is `START` of the word. -/
theorem hostMove_write_cmd (s : State) (w : Word) : hostMove (.write 3 64 w) s = start s w := exec_decodeCmd s _ w

/-- Everything a host move that answers can do: it leaves the state but for what the host sees of it (a read, a poll, a
dropped or unaccepted write), writes an operand register of an idle block, starts a call, resets, or writes memory inside the
address space. -/
theorem hostMove_cases {m : HostMove} {s t : State} (h : hostMove m s = .next t) :
    (t = { s with moves := t.moves, replies := t.replies, draws := t.draws }) ∨
      (s.phase = .idle ∧ ∃ v n, m = .write n 64 v ∧ (t = s.setPtr v ∨ t = s.setLen v ∨ t = s.setSeed v)) ∨
      (s.phase = .idle ∧ ∃ w, m = .write 3 64 w ∧ cmdReserved s.cfg.hasCrc32c w = false ∧ t = acceptStart s w) ∨
      (m = .reset ∧ t = resetEvent s) ∨
      ∃ a b, m = .store a b ∧ a < addressSpace s.cfg ∧ t = storeByte s a b := by
  have hidle : ∀ u : State, busy u = false → u.phase = .idle := fun u hu => by simpa [busy] using hu
  cases m with
  | write n bits v =>
    simp only [hostMove] at h
    split at h
    · cases h
    · rename_i hb
      rw [not_not] at hb
      subst hb
      split at h
      · cases h
      · rename_i r hr
        cases r with
        | ptr =>
          cases hb : busy s <;> simp only [hostWrite, hb, Bool.false_eq_true, if_false, if_true] at h <;> cases h
          · exact .inr (.inl ⟨hidle s hb, v, n, rfl, .inl rfl⟩)
          · exact .inl rfl
        | len =>
          cases hb : busy s <;> simp only [hostWrite, hb, Bool.false_eq_true, if_false, if_true] at h <;> cases h
          · exact .inr (.inl ⟨hidle s hb, v, n, rfl, .inr (.inl rfl)⟩)
          · exact .inl rfl
        | seed =>
          cases hb : busy s <;> simp only [hostWrite, hb, Bool.false_eq_true, if_false, if_true] at h <;> cases h
          · exact .inr (.inl ⟨hidle s hb, v, n, rfl, .inr (.inr rfl)⟩)
          · exact .inl rfl
        | cmd =>
          have hn : n = 3 := by
            unfold regOfNumber at hr
            split at hr <;> first | rfl | cases hr
          subst hn
          simp only [hostWrite] at h
          rw [exec_decodeCmd] at h
          rcases start_cases s v with ⟨h', -⟩ | ⟨h', h1, h2⟩ <;> rw [h'] at h <;> cases h
          · exact .inl rfl
          · exact .inr (.inr (.inl ⟨h1, v, rfl, h2, rfl⟩))
        | status => cases h; exact .inl rfl
        | digest => cases h; exact .inl rfl
  | read n bits =>
    simp only [hostMove] at h
    split at h
    · cases h
    · split at h
      · cases h
      · rename_i r hr
        cases h
        left
        cases r <;> simp only [hostRead] <;> (try split) <;> rfl
  | wait =>
    cases h
    left
    split <;> rfl
  | reset => cases h; exact .inr (.inr (.inr (.inl ⟨rfl, rfl⟩)))
  | store a b =>
    simp only [hostMove] at h
    split at h
    · rename_i ha
      cases h
      exact .inr (.inr (.inr (.inr ⟨a, b, rfl, ha, rfl⟩)))
    · cases h

/-- A load hands one word over, or stops at an address memory does not admit (40_load R70 to R73). -/
theorem loadInto_cases (s : State) (be : Bool) (addr : Nat) (n : Nat) :
    (∃ v, loadWord s be addr n = .ok v ∧
        loadInto s be addr n = .next (s.loaded [v] (List.range' addr n))) ∨
      ∃ e, loadWord s be addr n = .error e ∧ loadInto s be addr n = .fault (.readNotAdmitted e) := by
  unfold loadInto
  cases h : loadWord s be addr n with
  | ok v => exact .inl ⟨v, rfl, rfl⟩
  | error e => exact .inr ⟨e, rfl, rfl⟩

/-- The state after a block has been absorbed into lanes `l` (41_mix R84, 46_crc32 R143). -/
theorem execMixblock_cases (s : State) :
    (∃ w, fetchBlock s = .ok w ∧
        execMixblock s =
          .next ((((s.loaded (blockWords w) (blockAddrs s)).setLanes (mixBlock s.cfg s.lanes w)).setOff (s.off + 32)).setPhase
            (phaseAfterBlock s.len (s.off + 32)))) ∨
      ∃ e, fetchBlock s = .error e ∧ execMixblock s = .fault (.readNotAdmitted e) := by
  unfold execMixblock
  cases h : fetchBlock s with
  | ok w => exact .inl ⟨w, rfl, rfl⟩
  | error e => exact .inr ⟨e, rfl, rfl⟩

theorem execCrcblock_cases (s : State) :
    (∃ w, fetchBlock s = .ok w ∧
        execCrcblock s =
          .next ((((s.loaded (blockWords w) (blockAddrs s)).setLanes (crcBlock s.cfg s.lanes w)).setOff (s.off + 32)).setPhase
            (phaseAfterBlock s.len (s.off + 32)))) ∨
      ∃ e, fetchBlock s = .error e ∧ execCrcblock s = .fault (.readNotAdmitted e) := by
  unfold execCrcblock
  cases h : fetchBlock s with
  | ok w => exact .inl ⟨w, rfl, rfl⟩
  | error e => exact .inr ⟨e, rfl, rfl⟩

theorem execFetchblk_cases (s : State) :
    (∃ w, fetchBlock s = .ok w ∧ execFetchblk s = .next (s.loaded (blockWords w) (blockAddrs s))) ∨
      ∃ e, fetchBlock s = .error e ∧ execFetchblk s = .fault (.readNotAdmitted e) := by
  unfold execFetchblk
  cases h : fetchBlock s with
  | ok w => exact .inl ⟨w, rfl, rfl⟩
  | error e => exact .inr ⟨e, rfl, rfl⟩

theorem execTail_cases (s : State) :
    (∃ vs, fetchTail s = .ok vs ∧
        execTail s =
          .next ((((s.loaded vs (tailAddrs s)).setLanes (tailAbsorb s.cfg s.lanes vs)).setOff s.len).setPhase .final)) ∨
      ∃ e, fetchTail s = .error e ∧ execTail s = .fault (.readNotAdmitted e) := by
  unfold execTail
  cases h : fetchTail s with
  | ok vs => exact .inl ⟨vs, rfl, rfl⟩
  | error e => exact .inr ⟨e, rfl, rfl⟩

/-- The engine's step in each phase (44_variants64 R112, 30_encoding R58). -/
theorem engineStep_eq (s : State) :
    engineStep s =
      match s.phase with
      | .idle => .next s
      | .init => execInit s
      | .block => if varCrc s.var then execCrcblock s else execMixblock s
      | .squash => if varCrc s.var then execCsquash s else execSquash s
      | .tail => execTail s
      | .final => execFinal s
      | .fold32 => execFold32 s := by
  have hu : ∀ (c : Bool) (p : Phase),
      decodeUsel (BitVec.ofBool c ++ phaseCode p) =
        match p with
        | .idle => .error .engineIdle
        | .init => .ok .init
        | .block => .ok (if c then .crcblock else .mixblock)
        | .squash => .ok (if c then .csquash else .squash)
        | .tail => .ok .tail
        | .final => .ok .final
        | .fold32 => .ok .fold32 := by
    intro c p
    cases c <;> cases p <;> rfl
  unfold engineStep usel
  rw [hu]
  cases s.phase <;> cases varCrc s.var <;> rfl

/-- The engine's step never refuses. -/
theorem engineStep_outcome (s : State) :
    (∃ t, engineStep s = .next t) ∨ ∃ e, engineStep s = .fault (.readNotAdmitted e) := by
  rw [engineStep_eq]
  cases hp : s.phase with
  | idle => exact .inl ⟨_, rfl⟩
  | init => exact .inl ⟨_, rfl⟩
  | block =>
    cases varCrc s.var with
    | false =>
      rcases execMixblock_cases s with ⟨w, -, h⟩ | ⟨e, -, h⟩
      · exact .inl ⟨_, h⟩
      · exact .inr ⟨e, h⟩
    | true =>
      rcases execCrcblock_cases s with ⟨w, -, h⟩ | ⟨e, -, h⟩
      · exact .inl ⟨_, h⟩
      · exact .inr ⟨e, h⟩
  | squash => cases varCrc s.var <;> exact .inl ⟨_, rfl⟩
  | tail =>
    rcases execTail_cases s with ⟨w, -, h⟩ | ⟨e, -, h⟩
    · exact .inl ⟨_, h⟩
    · exact .inr ⟨e, h⟩
  | final => exact .inl ⟨_, rfl⟩
  | fold32 => exact .inl ⟨_, rfl⟩

theorem engineEnabled_iff (s : State) :
    engineEnabled s = true ↔ s.phase ≠ .idle ∧ ∃ t, engineStep s = .next t := by
  unfold engineEnabled
  rw [Bool.and_eq_true, busy_iff]
  rcases engineStep_outcome s with ⟨t, h⟩ | ⟨e, h⟩ <;> simp [h]

/-- The state with another host side: the moves to come, the schedule, the replies. No instruction writes these. -/
def withHostSide (s : State) (ms : List HostMove) (sc : List Agent) (rs : List (Nat × Word)) : State :=
  { s with moves := ms, sched := sc, replies := rs }

/-- The same change to what an outcome leaves. -/
def outcomeHostSide (ms : List HostMove) (sc : List Agent) (rs : List (Nat × Word)) :
    Host.Outcome State Fault Refusal → Host.Outcome State Fault Refusal
  | .next t => .next (withHostSide t ms sc rs)
  | .fault f => .fault f
  | .refused r => .refused r

/-- The host side shows in a read of memory only in the contents the byte gets later in the call (20_memory R44). -/
theorem byteAt_withHostSide {s : State} {ms sc rs} {a : Nat}
    (h : lostAt (laterWrites (withHostSide s ms sc rs)) a = lostAt (laterWrites s) a) :
    byteAt (withHostSide s ms sc rs) a = byteAt s a := by
  unfold byteAt
  rw [h]
  rfl

/-- The engine's step does not write the host side, and reads it only through the bytes it fetches: it is the same with
another host side in which those bytes read the same. -/
theorem engineStep_withHostSide {s : State} {ms sc rs}
    (h : ∀ a, nextAddr s ≤ a → a < nextAddr s + max 32 (remaining s) →
      byteAt (withHostSide s ms sc rs) a = byteAt s a) :
    engineStep (withHostSide s ms sc rs) = outcomeHostSide ms sc rs (engineStep s) := by
  have hf : fetchBlock (withHostSide s ms sc rs) = fetchBlock s :=
    fetchBlock_congr rfl rfl fun i hi => h _ (by omega) (by omega)
  have ht : fetchTail (withHostSide s ms sc rs) = fetchTail s :=
    fetchTail_congr rfl rfl rfl fun i hi => h _ (by omega) (by omega)
  rw [engineStep_eq, engineStep_eq]
  have hp : (withHostSide s ms sc rs).phase = s.phase := rfl
  have hv : (withHostSide s ms sc rs).var = s.var := rfl
  rw [hp, hv]
  cases s.phase with
  | idle => rfl
  | init => rfl
  | block =>
    cases varCrc s.var <;> simp only [execMixblock, execCrcblock, hf] <;> cases fetchBlock s <;> rfl
  | squash => cases varCrc s.var <;> rfl
  | tail =>
    simp only [execTail, ht]
    cases fetchTail s <;> rfl
  | final =>
    simp only [execFinal, outcomeHostSide]
    rw [hv]
    cases varNarrow s.var <;> rfl
  | fold32 => rfl

/-- One step is the engine's step or the oldest host move: everything a step can be. -/
theorem step_cases (s : State) :
    (s.moves = [] ∧ step s = engineStep (afterTurn s)) ∨
      (∃ m ms, s.moves = m :: ms ∧ turn s = .engine ∧ engineEnabled (afterTurn s) = true ∧
        step s = engineStep (afterTurn s)) ∨
      ∃ m ms, s.moves = m :: ms ∧ (turn s = .host ∨ engineEnabled (afterTurn s) = false) ∧
        step s = hostMove m ((afterTurn s).setMoves ms) := by
  unfold step moveOf
  rw [afterTurn_moves]
  cases hm : s.moves with
  | nil => exact .inl ⟨rfl, rfl⟩
  | cons m ms =>
    right
    cases ht : turn s with
    | host => exact .inr ⟨m, ms, rfl, .inl rfl, rfl⟩
    | engine =>
      cases he : engineEnabled (afterTurn s) with
      | true => exact .inl ⟨m, ms, rfl, rfl, rfl, rfl⟩
      | false => exact .inr ⟨m, ms, rfl, .inr rfl, rfl⟩

end Sys2Proof.Machine
end

