-- ==== Sys2Proof/Laws/Engine.lean ====
section
/-! SUPPORT. What an engine step can be, when it can happen, and what being stuck depends on. -/

namespace Sys2Proof.Machine

/-- Taking the turn off the schedule is a change of the host's side only. -/
theorem afterTurn_eq (s : State) : afterTurn s = withHostSide s s.moves s.sched.tail s.replies := rfl

theorem turn_iff (s : State) : turn s = .host ↔ s.sched.head? = some .host := by
  unfold turn; cases h : s.sched with
        | nil => simp
        | cons a as => cases a <;> simp_all

/-- Stuck is: in a call, with no step that answers. -/
theorem stuck_iff (s : State) : Stuck s ↔ s.phase ≠ .idle ∧ ¬ ∃ t, engineStep s = .next t := by
  unfold Stuck
  constructor
  · rintro ⟨h, a, ha⟩; exact ⟨h, by rw [ha]; rintro ⟨t, ht⟩; cases ht⟩
  · rintro ⟨h, hn⟩
    rcases engineStep_outcome s with h' | h'
    · exact absurd h' hn
    · exact ⟨h, h'⟩

theorem readable_byte (s : State) (a : Nat) : Readable s a 1 ↔ (byteAt s a).isSome = true := by
  rw [byteAt_isSome]
  constructor
  · intro h; simpa using h 0 (by omega)
  · intro h i hi
    have : i = 0 := by omega
    subst this; simpa using h

theorem readable_append {s : State} {a n m : Nat} (h1 : Readable s a n) (h2 : Readable s (a+n) m) : Readable s a (n+m) := by
  intro i hi
  by_cases h : i < n
  · exact h1 i h
  · have := h2 (i - n) (by omega)
    have e : a + n + (i - n) = a + i := by omega
    rwa [e] at this

/-- A load that answers had readable bytes. -/
theorem loadWord_readable {s : State} {be : Bool} {addr n : Nat} {v : Word} (h : loadWord s be addr n = .ok v) :
    Readable s addr n := by
  cases hr : memRead s addr n with
  | error e => simp [loadWord, hr, bind, Except.bind] at h
  | ok bs =>
    obtain ⟨hl, hb⟩ := (memRead_ok_iff _ _ _ _).mp hr
    intro i hi
    rw [← byteAt_isSome, hb i hi]
    simp [hl, hi]

/-- A block fetch that answers had readable bytes. -/
theorem fetchBlock_readable {s : State} {w} (h : fetchBlock s = .ok w) : Readable s (nextAddr s) 32 := by
  obtain ⟨v0, v1, v2, v3, h0, h1, h2, h3, -⟩ := fetchBlock_ok h
  have r0 := loadWord_readable h0
  have r1 := loadWord_readable h1
  have r2 := loadWord_readable h2
  have r3 := loadWord_readable h3
  have r01 := readable_append (n := 8) (m := 8) r0 r1
  have r012 := readable_append (n := 16) (m := 8) r01 r2
  exact readable_append (n := 24) (m := 8) r012 r3

theorem tailWords_readable {s : State} {be : Bool} {r : Nat} : ∀ {k addr vs}, tailWords s be r (k + 1) addr = .ok vs →
    Readable s addr (8 * k + if r % 8 = 0 then 8 else r % 8) := by
  intro k
  induction k with
  | zero =>
    intro addr vs h
    simp only [tailWords, bind, Except.bind, pure, Except.pure] at h
    split at h; · cases h
    rename_i he
    simpa using loadWord_readable he
  | succ k ih =>
    intro addr vs h
    rw [tailWords] at h
    simp only [bind, Except.bind, pure, Except.pure] at h
    split at h; · cases h
    rename_i he
    split at h; · cases h
    rename_i hs
    have r1 := loadWord_readable he
    simp only [Nat.zero_lt_succ, true_or, if_true] at r1
    have := readable_append r1 (ih hs)
    have e : 8 * (k+1) = 8 + 8 * k := by omega
    rw [e, Nat.add_assoc]; exact this

/-- A tail fetch that answers had readable bytes. -/
theorem fetchTail_readable {s : State} {vs} (h : fetchTail s = .ok vs) : Readable s (nextAddr s) (remaining s) := by
  rcases Nat.eq_zero_or_pos (remaining s) with h0 | h0
  · rw [h0]; intro i hi; omega
  · have : ceil8 (remaining s) = (ceil8 (remaining s) - 1) + 1 := by unfold ceil8; omega
    unfold fetchTail at h
    rw [this] at h
    have := tailWords_readable h
    refine fun i hi => this i ?_
    unfold ceil8
    split <;> omega

/-- Everything an engine step that answers can be (44_variants64 R111, R112). -/
theorem engine_cases {s t : State} (h : engineStep s = .next t) :
    (s.phase = .idle ∧ t = s) ∨
    (s.phase = .init ∧ execInit s = .next t) ∨
    (s.phase = .block ∧ varCrc s.var = false ∧ ∃ w, fetchBlock s = .ok w ∧
      t = (((s.loaded (blockWords w) (blockAddrs s)).setLanes (mixBlock s.cfg s.lanes w)).setOff (s.off + 32)).setPhase
        (phaseAfterBlock s.len (s.off + 32))) ∨
    (s.phase = .block ∧ varCrc s.var = true ∧ ∃ w, fetchBlock s = .ok w ∧
      t = (((s.loaded (blockWords w) (blockAddrs s)).setLanes (crcBlock s.cfg s.lanes w)).setOff (s.off + 32)).setPhase
        (phaseAfterBlock s.len (s.off + 32))) ∨
    (s.phase = .squash ∧
      t = (s.setLanes (if varCrc s.var then csquashLanes s.cfg s.lanes else squashLanes s.cfg s.lanes)).setPhase
        (phaseAfterSquash s.len s.off)) ∨
    (s.phase = .tail ∧ ∃ vs, fetchTail s = .ok vs ∧
      t = (((s.loaded vs (tailAddrs s)).setLanes (tailAbsorb s.cfg s.lanes vs)).setOff s.len).setPhase .final) ∨
    (s.phase = .final ∧ execFinal s = .next t) ∨
    (s.phase = .fold32 ∧ execFold32 s = .next t) := by
  rw [engineStep_eq] at h
  cases hph : s.phase <;> rw [hph] at h <;> simp only at h
  · cases h; simp
  · simp [h]
  · split at h
    · rename_i hc
      rcases execCrcblock_cases s with ⟨w, hw, h'⟩ | ⟨e, -, h'⟩ <;> rw [h'] at h <;> cases h
      simp [hc, hw]
    · rename_i hc
      rcases execMixblock_cases s with ⟨w, hw, h'⟩ | ⟨e, -, h'⟩ <;> rw [h'] at h <;> cases h
      simp [hc, hw]
  · split at h <;> rename_i hc <;> cases h <;> simp [hc]
  · rcases execTail_cases s with ⟨w, hw, h'⟩ | ⟨e, -, h'⟩ <;> rw [h'] at h <;> cases h
    simp [hw]
  · simp [h]
  · simp [h]

/-- Being stuck depends on what is readable, the phase, `VAR`, `PTR`, `OFF` and `LEN` only, and nothing readable is lost. -/
theorem stuck_congr {s t : State} (h : Stuck s) (hr : ∀ a n, Readable t a n → Readable s a n) (hp : t.phase = s.phase) (hv : t.var = s.var)
    (h1 : t.ptr = s.ptr) (h2 : t.off = s.off) (h3 : t.len = s.len) : Stuck t := by
  rw [stuck_iff] at h ⊢
  refine ⟨by rw [hp]; exact h.1, ?_⟩
  rintro ⟨u, hu⟩
  apply h.2
  have hna : nextAddr t = nextAddr s := by simp [nextAddr, h1, h2]
  have hrem : remaining t = remaining s := by simp [remaining, h2, h3]
  rw [engineStep_eq] at hu ⊢
  rw [hp, hv] at hu
  cases hph : s.phase with
  | idle => exact ⟨_, rfl⟩
  | init => exact ⟨_, rfl⟩
  | block =>
    rw [hph] at hu
    have : Readable t (nextAddr t) 32 := by
      cases hc : varCrc s.var <;> simp only [hc, Bool.false_eq_true, if_false, if_true] at hu
      · rcases execMixblock_cases t with ⟨w, hw, -⟩ | ⟨e, -, h'⟩
        · exact fetchBlock_readable hw
        · rw [h'] at hu; cases hu
      · rcases execCrcblock_cases t with ⟨w, hw, -⟩ | ⟨e, -, h'⟩
        · exact fetchBlock_readable hw
        · rw [h'] at hu; cases hu
    obtain ⟨w, hw⟩ := fetchBlock_of_readable (hr _ _ (hna ▸ this))
    cases hc : varCrc s.var <;> simp only [Bool.false_eq_true, if_false, if_true]
    · exact ⟨_, by simp only [execMixblock, hw]; rfl⟩
    · exact ⟨_, by simp only [execCrcblock, hw]; rfl⟩
  | squash => cases varCrc s.var <;> exact ⟨_, rfl⟩
  | tail =>
    rw [hph] at hu
    have : Readable t (nextAddr t) (remaining t) := by
      rcases execTail_cases t with ⟨w, hw, -⟩ | ⟨e, -, h'⟩
      · exact fetchTail_readable hw
      · simp only at hu; rw [h'] at hu; cases hu
    rw [hna, hrem] at this
    obtain ⟨w, hw, -⟩ := fetchTail_of_readable (hr _ _ this)
    exact ⟨_, by simp only [execTail, hw]; rfl⟩
  | final => exact ⟨_, rfl⟩
  | fold32 => exact ⟨_, rfl⟩

/-- A stuck engine is stuck whoever has the turn. -/
theorem stuck_afterTurn {s : State} (h : Stuck s) : Stuck (afterTurn s) :=
  stuck_congr h (fun _ _ hr => hr) rfl rfl rfl rfl rfl

/-- A write of memory during a call makes nothing readable to that call (20_memory R43). -/
theorem readable_storeByte {s : State} (hp : s.phase ≠ .idle) (a : Nat) (b : Byte) (addr n : Nat)
    (h : Readable (storeByte s a b) addr n) : Readable s addr n := by
  intro i hi
  obtain ⟨h1, h2, h3⟩ := h i hi
  simp only [storeByte, State.setMem_mem, State.setMem_late, lateAfter] at h2 h3
  refine ⟨h1, ?_, ?_⟩
  · by_cases hk : addr + i = a
    · cases hm : memByte s.mem (addr + i) with
      | some c => rfl
      | none =>
        rw [hk] at hm
        simp [hp, hm, hk] at h3
    · rwa [memByte_memPut_other _ _ _ _ hk] at h2
  · split at h3
    · exact fun hm => h3 (List.mem_cons_of_mem _ hm)
    · exact h3

end Sys2Proof.Machine
end

