-- ==== Sys2Proof/Laws/PerInstr.lean ====
section
/-! SUPPORT. Statements about every instruction as syntax, one lemma per constructor. -/

namespace Sys2Proof.Laws.Encoding

/-- The two encodings of the spec are apart (30_encoding R50, R58): no instruction has both a command word and a selector, and
a selector pattern has the `CRC` bit it is asked for and never the code of `IDLE` or of the unused phase. -/
def Statement (i : Instr) : Prop :=
  (encodeCmd i = none ∨ ∀ x, encodeUsel x i = none) ∧
    ∀ x u, encodeUsel x i = some u → u.getLsbD 3 = x ∧ u.extractLsb' 0 3 ≠ 0 ∧ u.extractLsb' 0 3 ≠ 7

theorem no_selector {i : Instr} (h : ∀ x, encodeUsel x i = none) : Statement i :=
  ⟨.inr h, fun x u hu => by rw [h x] at hu; cases hu⟩

theorem t1ha : Statement .t1ha := no_selector fun _ => rfl
theorem t1ha64le : Statement .t1ha64le := no_selector fun _ => rfl
theorem t1ha64be : Statement .t1ha64be := no_selector fun _ => rfl
theorem t1ha32le : Statement .t1ha32le := no_selector fun _ => rfl
theorem t1ha32be : Statement .t1ha32be := no_selector fun _ => rfl
theorem t1haIa32crc : Statement .t1haIa32crc := no_selector fun _ => rfl
theorem init : Statement .init := by unfold Statement; decide
theorem mixblock : Statement .mixblock := by unfold Statement; decide
theorem crcblock : Statement .crcblock := by unfold Statement; decide
theorem squash : Statement .squash := by unfold Statement; decide
theorem csquash : Statement .csquash := by unfold Statement; decide
theorem tail : Statement .tail := by unfold Statement; decide
theorem final : Statement .final := by unfold Statement; decide
theorem fold32 : Statement .fold32 := by unfold Statement; decide
theorem load64le (addr : Nat) : Statement (.load64le addr) := no_selector fun _ => rfl
theorem load64be (addr : Nat) : Statement (.load64be addr) := no_selector fun _ => rfl
theorem tailldle (addr : Nat) (n : Nat) : Statement (.tailldle addr n) := no_selector fun _ => rfl
theorem tailldbe (addr : Nat) (n : Nat) : Statement (.tailldbe addr n) := no_selector fun _ => rfl
theorem fetchblk : Statement .fetchblk := no_selector fun _ => rfl
theorem reserved (w : Word) : Statement (.reserved w) := no_selector fun _ => rfl

end Sys2Proof.Laws.Encoding
end

