-- ==== Sys2Proof/Tests/Slice0.lean ====
section
/-! SUPPORT. Tests of the model's own: the checks of well-formedness, words decoded from the spec's encodings, single steps with
the values of the spec's worked examples, and for every obligation with hypotheses a state and operands that meet them. -/

namespace Sys2Proof.Tests

open Sys2Proof.Machine

-- One theorem at a time: elaborated all at once, the kernel evaluations below hold a thread each.
set_option Elab.async false

/-! ## Well-formedness: every check refuses an ill-formed term, at the values next to its bounds -/

theorem test_wf_byteCount :
    (Instr.tailldle 0 0).wf true = false ∧ (Instr.tailldle 0 1).wf true = true ∧ (Instr.tailldle 0 7).wf true = true ∧
      (Instr.tailldle 0 8).wf true = false ∧ (Instr.tailldbe 0 0).wf true = false ∧ (Instr.tailldbe 0 1).wf true = true ∧
      (Instr.tailldbe 0 7).wf true = true ∧ (Instr.tailldbe 0 8).wf true = false := by decide

theorem test_wf_crcCommand : Instr.t1haIa32crc.wf true = true ∧ Instr.t1haIa32crc.wf false = false := by decide

theorem test_wf_reserved :
    (Instr.reserved 3).wf true = false ∧ (Instr.reserved 4).wf true = false ∧ (Instr.reserved 4).wf false = true ∧
      (Instr.reserved 5).wf true = true ∧ (Instr.reserved 0xFFFFFFFFFFFFFFFF).wf true = true := by decide

/-! ## Decoding: words written out from 30_encoding R52 to R54 and R58 -/

theorem test_decode_t1ha : decodeCmd true 0x0000000000000000 = .t1ha := by decide
theorem test_decode_t1ha64be : decodeCmd true 0x0000000000000001 = .t1ha64be := by decide
theorem test_decode_t1ha32le : decodeCmd false 0x0000000000000002 = .t1ha32le := by decide
theorem test_decode_t1ha32be : decodeCmd false 0x0000000000000003 = .t1ha32be := by decide
theorem test_decode_t1haIa32crc : decodeCmd true 0x0000000000000004 = .t1haIa32crc := by decide
theorem test_encode_t1ha64le : encodeCmd .t1ha64le = some 0x0000000000000000 := by decide
theorem test_decode_noCrcCommand : decodeCmd false 0x0000000000000004 = .reserved 0x0000000000000004 := by decide
theorem test_decode_reservedOpcode : decodeCmd true 0x0000000000000005 = .reserved 0x0000000000000005 := by decide
/-- R50: bit 3 is in `ZERO`, so 8 is not the word of the opcode 000. -/
theorem test_decode_reservedZero : decodeCmd true 0x0000000000000008 = .reserved 0x0000000000000008 := by decide

theorem test_decode_init : decodeUsel 0b0001 = .ok .init ∧ decodeUsel 0b1001 = .ok .init := by decide
theorem test_decode_mixblock : decodeUsel 0b0010 = .ok .mixblock := by decide
theorem test_decode_crcblock : decodeUsel 0b1010 = .ok .crcblock := by decide
theorem test_decode_squash : decodeUsel 0b0011 = .ok .squash := by decide
theorem test_decode_csquash : decodeUsel 0b1011 = .ok .csquash := by decide
theorem test_decode_tail : decodeUsel 0b0100 = .ok .tail ∧ decodeUsel 0b1100 = .ok .tail := by decide
theorem test_decode_final : decodeUsel 0b0101 = .ok .final ∧ decodeUsel 0b1101 = .ok .final := by decide
theorem test_decode_fold32 : decodeUsel 0b0110 = .ok .fold32 ∧ decodeUsel 0b1110 = .ok .fold32 := by decide
theorem test_decode_nothing :
    decodeUsel 0b0000 = .error .engineIdle ∧ decodeUsel 0b1000 = .error .engineIdle ∧
      decodeUsel 0b0111 = .error .unusedPhase ∧ decodeUsel 0b1111 = .error .unusedPhase := by decide

theorem test_decodeTableWord :
    decodeTableWord 64 1 = some .t1ha64be ∧ decodeTableWord 8 3 = some .squash ∧ decodeTableWord 8 7 = none ∧
      decodeTableWord 8 16 = none := by decide

/-! ## Small states -/

/-- The bytes `B` at `p` on. -/
def bytesAt (p : Nat) (B : List Nat) : List Host.Cell :=
  (List.range B.length).map (fun i => (p + i, BitVec.ofNat 8 (B.getD i 0)))

/-- The bytes `first, first+1, ...`, `n` of them, at `p` on. -/
def seqAt (p first n : Nat) : List Host.Cell := bytesAt p ((List.range n).map (fun i => first + i))

/-- An idle block with a buffer of `n` bytes `first, first+1, ...` at 0x1000. -/
def idleState (first n : Nat) : State :=
  { State.reset with
    ptr := 0x1000, len := BitVec.ofNat 64 n, written := ⟨true, true, true⟩, mem := seqAt 0x1000 first n }

/-- The same block in a call of the command `op`. -/
def callState (first n : Nat) (p : Phase) (op : BitVec 3) : State := { idleState first n with phase := p, var := op }

/-- The state an outcome leaves. -/
def nextOf : Host.Outcome State Fault Refusal → Option State
  | .next t => some t
  | .fault _ => none
  | .refused _ => none

/-- The fault of an outcome. -/
def faultOf : Host.Outcome State Fault Refusal → Option Fault
  | .next _ => none
  | .fault f => some f
  | .refused _ => none

/-- The refusal of an outcome. -/
def refusalOf : Host.Outcome State Fault Refusal → Option Refusal
  | .next _ => none
  | .fault _ => none
  | .refused r => some r

theorem next_of_isSome {o : Host.Outcome State Fault Refusal} (h : (nextOf o).isSome = true) : ∃ t, o = .next t := by
  cases o with
  | next t => exact ⟨t, rfl⟩
  | fault f => cases h
  | refused r => cases h

/-! ## Primitives: 95_test_vectors V-PRIM -/

theorem test_rot64 :
    rot64 1 17 = 0x0000800000000000 ∧ rot64 0xEC99BF0D8372CAAB 41 = 0x86C1B96555F64CDF := by decide

theorem test_mux64 :
    mux64 0x0807060504030201 0xD4F06DB99D67BE4B = 0xF45A8A99485C1800 ∧ mux64 0x8000000000000000 2 = 1 := by decide

theorem test_mix : mix 41 0xFFFFFFFFFFFFFFFF 0xEC99BF0D8372CAAB = 0x6A580668D6048675 := by decide

theorem test_fold32 : fold32 0xBD9CACC22C6E9571 0x65822BA9EC9FB5A9 = 0xE8BFA0D1 := by decide

theorem test_crc32cU8 : crc32cU8 0 0x01 = 0xF26B8303 ∧ crc32cU8 0xFFFFFFFF 0x00 = 0xAD82ACAE := by decide

theorem test_crc32cU64 :
    crc32cU64 0 0x0F0E0D0C0B0A0908 = 0x76AB22E2 ∧ crc32cU64 0x00000020 0x1F1E1D1C1B1A1918 = 0x9AF51FDD := by
  decide +kernel

/-! ## Loads: 95_test_vectors V-LOAD (bytes A0, A1, ... at 0x1000), 40_load R74 -/

def loadState : State := { State.reset with mem := seqAt 0x1000 0xA0 16 }

theorem test_load64le_unaligned :
    (nextOf (exec (.load64le 0x1003) loadState)).map (fun t => (t.loadOut, t.reads)) =
      some ([0xAAA9A8A7A6A5A4A3], List.range' 0x1003 8) := by decide +kernel

theorem test_load64be_unaligned :
    (nextOf (exec (.load64be 0x1003) loadState)).map (fun t => t.loadOut) = some [0xA3A4A5A6A7A8A9AA] := by decide +kernel

theorem test_load64le_beyond :
    faultOf (exec (.load64le 0x1009) loadState) = some (.readNotAdmitted 0x1010) := by decide +kernel

/-- R4, R30, U12: on an instance with `AW` = 12 there is no memory at 0x1000 and beyond, whatever is listed. -/
theorem test_load64le_addressWidth :
    (nextOf (exec (.load64le 0x0FF8) { loadState with cfg := { Config.default with aw := 12 }, mem := seqAt 0x0FF8 0xA0 9 })).map
        (fun t => t.loadOut) = some [0xA7A6A5A4A3A2A1A0] ∧
      faultOf (exec (.load64le 0x0FF9) { loadState with cfg := { Config.default with aw := 12 }, mem := seqAt 0x0FF8 0xA0 9 }) =
        some (.readNotAdmitted 0x1000) := by decide +kernel

theorem test_tailldle :
    (nextOf (exec (.tailldle 0x1008 3) loadState)).map (fun t => t.loadOut) = some [0x0000000000AAA9A8] ∧
      (nextOf (exec (.tailldle 0x1008 7) loadState)).map (fun t => t.loadOut) = some [0x00AEADACABAAA9A8] := by
  decide +kernel

theorem test_tailldbe :
    (nextOf (exec (.tailldbe 0x1008 3) loadState)).map (fun t => t.loadOut) = some [0x0000000000A8A9AA] ∧
      (nextOf (exec (.tailldbe 0x1008 1) loadState)).map (fun t => t.loadOut) = some [0x00000000000000A8] := by
  decide +kernel

theorem test_fetchblk_le :
    (nextOf (exec .fetchblk (callState 0 32 .block 0b000))).map (fun t => t.loadOut) =
      some [0x0706050403020100, 0x0F0E0D0C0B0A0908, 0x1716151413121110, 0x1F1E1D1C1B1A1918] := by decide +kernel

theorem test_fetchblk_be :
    (nextOf (exec .fetchblk (callState 0 32 .block 0b001))).map (fun t => t.loadOut) =
      some [0x18191A1B1C1D1E1F, 0x1011121314151617, 0x08090A0B0C0D0E0F, 0x0001020304050607] := by decide +kernel

/-! ## Micro-operations: the worked examples of 41_mix, 42_tail, 43_final, 45_narrow32, 46_crc32 -/

/-- R83, example: `SEED` = 1, `LEN` = 3. -/
theorem test_init :
    (nextOf (exec .init { callState 0x61 3 .init 0b000 with seed := 1 })).map (fun t => (t.lanes, t.phase)) =
      some (⟨1, 3, 0x0001800000000001, 0x0000800000000003, 0⟩, .tail) := by decide +kernel

/-- R142, example: `SEED` = 0x0123456789ABCDEF, `LEN` = 64. -/
theorem test_init_crc :
    (nextOf (exec .init { callState 0 0 .init 0b100 with seed := 0x0123456789ABCDEF, len := 64 })).map
        (fun t => (t.lanes, t.phase)) =
      some (⟨0x0123456789ABCDEF, 0x40, 0x40, 0x89ABCDEF, 0x76543250⟩, .block) := by decide +kernel

/-- R84, example: the buffer 00 to 1F, seed 0. -/
theorem test_mixblock :
    (nextOf (exec .mixblock { callState 0 32 .block 0b000 with lanes := ⟨0, 0x20, 0x0010000000000000, 0x20, 0⟩ })).map
        (fun t => (t.lanes, t.off, t.phase)) =
      some (⟨0xE6D3240339DACBD9, 0x679BFECDB4A1FCA7, 0x8211810080038302, 0xE9EBEDEFE1E3E5E8, 0⟩, 32, .squash) := by
  decide +kernel

/-- R85, continuing the example of R84. -/
theorem test_squash :
    (nextOf (exec .squash { callState 0 32 .squash 0b000 with
        off := 32
        lanes := ⟨0xE6D3240339DACBD9, 0x679BFECDB4A1FCA7, 0x8211810080038302, 0xE9EBEDEFE1E3E5E8, 0⟩ })).map
        (fun t => (t.lanes.a, t.lanes.b, t.lanes.c, t.phase)) =
      some (0x68A166981F870640, 0x9F13A50FEFA015D8, 0x8211810080038302, .final) := by decide +kernel

/-- R143, example: the buffer 00 to 1F, seed 0. -/
theorem test_crcblock :
    (nextOf (exec .crcblock { callState 0 32 .block 0b100 with lanes := ⟨0, 0x20, 0x20, 0, 0xFFFFFFDF⟩ })).map
        (fun t => (t.lanes, t.off, t.phase)) =
      some (⟨0xF926EE750920AB00, 0x20, 0x76AB2302, 0x998D7EFB, 0x000000019AF51FBC⟩, 32, .squash) := by decide +kernel

/-- R144, continuing the example of R143. -/
theorem test_csquash :
    (nextOf (exec .csquash { callState 0 32 .squash 0b100 with
        off := 32
        lanes := ⟨0xF926EE750920AB00, 0x20, 0x76AB2302, 0x998D7EFB, 0x000000019AF51FBC⟩ })).map
        (fun t => (t.lanes.a, t.lanes.b, t.phase)) =
      some (0x3254DA585F8CCC51, 0xEF4F0CC691B80085, .final) := by decide +kernel

/-- R90, example: the buffer 01 to 0B, little-endian, seed 0. -/
theorem test_tail_le :
    (nextOf (exec .tail { callState 1 11 .tail 0b000 with lanes := ⟨0, 0xB, 0, 0, 0⟩ })).map
        (fun t => (t.lanes.a, t.lanes.b, t.off, t.phase)) =
      some (0xA4808D446E8A3EFE, 0xF45A8A99485C180B, 11, .final) := by decide +kernel

/-- R90, the same buffer, big-endian. -/
theorem test_tail_be :
    (nextOf (exec .tail { callState 1 11 .tail 0b001 with lanes := ⟨0, 0xB, 0, 0, 0⟩ })).map
        (fun t => (t.loadOut, t.lanes.a, t.lanes.b)) =
      some ([0x0102030405060708, 0x0000000000090A0B], 0x09350F5CADD31809, 0xE1B68EBC107AC4BF) := by decide +kernel

/-- R100, example 1. -/
theorem test_final :
    (nextOf (exec .final { callState 0x61 3 .final 0b000 with lanes := ⟨0x07393E6FB867E48E, 3, 0, 0, 0⟩ })).map
        (fun t => (t.digest, t.done, t.phase)) =
      some (0x65822BA9EC9FB5A9, true, .idle) := by decide +kernel

/-- R100, example 2, on a narrowing command: `DONE` is not set yet. -/
theorem test_final_narrow :
    (nextOf (exec .final { callState 0 0 .final 0b010 with lanes := ⟨1, 0, 0, 0, 0⟩ })).map
        (fun t => (t.digest, t.done, t.phase)) =
      some (0x5C2DD46C53FEEE85, false, .fold32) := by decide +kernel

/-- R131, example. -/
theorem test_fold32_step :
    (nextOf (exec .fold32 { callState 0x61 3 .fold32 0b010 with digest := 0x65822BA9EC9FB5A9 })).map
        (fun t => (t.digest, t.done, t.phase)) =
      some (0x00000000E8BFA0D1, true, .idle) := by decide +kernel

/-! ## Commands and host moves -/

/-- R110: an accepted `START` clears `DONE` and sets `VAR` and `PHASE`. -/
theorem test_t1ha32be :
    (nextOf (exec .t1ha32be { idleState 0x61 3 with done := true })).map (fun t => (t.var, t.done, t.phase)) =
      some (0b011, false, .init) := by decide +kernel

theorem test_t1haIa32crc :
    (nextOf (exec .t1haIa32crc (idleState 0x61 3))).map (fun t => (t.var, t.phase)) = some (0b100, .init) := by
  decide +kernel

/-- R24: a command written during a call is dropped. -/
theorem test_t1ha_busy :
    (nextOf (exec .t1ha (callState 0x61 3 .tail 0b011))).map (fun t => (t.var, t.phase)) = some (0b011, .tail) := by
  decide +kernel

/-- R183 P3: a `START` straight from reset is not in contract, whatever the word and the buffer. -/
theorem test_reset_not_in_contract (w : Word) (B : List Byte) : ¬ InContract State.reset w B :=
  fun h => by cases h.operands.1

/-- R22, R183 P3: a write that the register takes counts; one that is dropped does not. -/
theorem test_written :
    (nextOf (hostMove (.write 1 64 5) State.reset)).map (fun t => (t.len, t.written)) = some (5, ⟨false, true, false⟩) ∧
      (nextOf (hostMove (.write 1 64 5) { State.reset with phase := .tail })).map (fun t => t.written) =
        some ⟨false, false, false⟩ ∧
      (resetEvent (idleState 0 0)).written = ⟨false, false, false⟩ := by decide

/-- R54: a reserved word starts nothing and leaves `DONE`. -/
theorem test_reserved :
    (nextOf (exec (.reserved 0x0000000100000000) { idleState 0x61 3 with done := true })).map
      (fun t => (t.done, t.phase)) = some (true, .idle) := by decide +kernel

/-- R16: `STATUS` reads 1 during a call and 2 after it. -/
theorem test_statusWord :
    statusWord (callState 0 0 .tail 0) = 1 ∧ statusWord { idleState 0 0 with done := true } = 2 ∧
      statusWord State.reset = 0 := by decide

/-- R180: the reset event during a call. -/
theorem test_resetEvent :
    (nextOf (hostMove .reset (callState 0x61 3 .tail 0b011))).map (fun t => (t.phase, t.done, t.mem)) =
      some (.idle, false, seqAt 0x1000 0x61 3) := by decide +kernel

/-- R44: a byte written during a call leaves its old content among those a racing read may return. -/
theorem test_storeByte :
    (nextOf (hostMove (.store 0x1001 0xFF) (callState 0x61 3 .tail 0))).map
        (fun t => (memByte t.mem 0x1001, t.overwritten)) =
      some (some 0xFF, [(0x1001, 0x62)]) := by decide +kernel

/-- U12: the last address of the space takes a write, the next one is none. -/
theorem test_storeByte_addressSpace :
    (nextOf (hostMove (.store 0xFFFFFFFFFFFFFFFF 5) State.reset)).map (fun t => t.mem) = some [(0xFFFFFFFFFFFFFFFF, 5)] ∧
      refusalOf (hostMove (.store 0x10000000000000000 5) State.reset) = some (.storeAddress 0x10000000000000000) := by
  decide +kernel

/-- R44: the write that comes before the call's last step is one of the contents a read of `TAIL` draws from; one that comes after
it, or after a `WAIT`, is not. -/
theorem test_laterWrites :
    laterWrites { callState 0x61 3 .tail 0 with moves := [.store 0x1001 0xFF, .store 0x1001 0xFE], sched := [.host, .engine, .host] } =
        [(0x1001, 0xFF)] ∧
      laterWrites { callState 0x61 3 .tail 0b010 with moves := [.wait, .store 0x1001 0xFF], sched := [.host, .host, .host] } = [] ∧
      laterWrites { callState 0x61 3 .tail 0 with moves := [.store 0x1001 0xFF] } = [] := by decide +kernel

/-- R43: a byte that memory did not have when the call was launched is not there for the call, also after a write of it. -/
theorem test_storeByte_late :
    (nextOf (hostMove (.store 0x1003 0xFF) (callState 0x61 3 .tail 0))).map
        (fun t => (memByte t.mem 0x1003, byteAt t 0x1003, byteAt (acceptStart t 0) 0x1003)) =
      some (some 0xFF, none, some 0xFF) := by decide +kernel

/-- The first step from reset with a command placed, and with a selector placed (log 10). -/
theorem test_withFetchWord :
    (nextOf (step (State.reset.withFetchWord 64 3))).map (fun t => (t.var, t.phase)) = some (0b011, .init) ∧
      (nextOf (step (State.reset.withFetchWord 8 6))).map (fun t => (t.done, t.phase)) = some (true, .idle) := by
  decide +kernel

/-- V-DOC-3: the big step of `T1HA` on "abc" with seed 1, and of `T1HA_32BE` with seed 0. -/
theorem test_callDigest :
    callDigest Config.default 0b000 [0x61, 0x62, 0x63] 1 = 0x7E7D8078CA15AC71 ∧
      callDigest Config.default 0b011 [0x61, 0x62, 0x63] 0 = 0x00000000E9AA1FF6 := by decide +kernel

/-- V-TAB T32: 35 bytes, seed 1, for `T1HA_64BE` and for `T1HA_IA32CRC`. -/
theorem test_callDigest_blocks :
    callDigest Config.default 0b001 ((List.range 35).map (BitVec.ofNat 8)) 1 = 0x908F4F986771F802 ∧
      callDigest Config.default 0b100 ((List.range 35).map (BitVec.ofNat 8)) 1 = 0xF30C1979E0CF5706 := by decide +kernel

/-! ## Witnesses: for every obligation with hypotheses, a state and operands that meet them all -/

/-- A block in a call, waiting at its tail for bytes memory does not have. -/
def stuckState : State := { State.reset with ptr := 0x1000, len := 1, phase := .tail }

/-- The 32-byte buffer 00 to 1F at 0x1000 is readable. -/
theorem readable_block : Readable (callState 0 32 .block 0) 0x1000 32 := by unfold Readable; decide +kernel

theorem holds_block :
    HoldsBytes (callState 0 32 .block 0) 0x1000 ((List.range 32).map (BitVec.ofNat 8)) := by
  unfold HoldsBytes Unwritten; decide +kernel

/-- The tail of `n` bytes at the start of a buffer is readable. -/
theorem readable_tail (n : Nat) (h : n = 1 ∨ n = 8 ∨ n = 9 ∨ n = 17 ∨ n = 25 ∨ n = 31) :
    Readable (callState 0 n .tail 0) 0x1000 n ∧ ((callState 0 n .tail 0).len - (callState 0 n .tail 0).off).toNat = n := by
  rcases h with rfl | rfl | rfl | rfl | rfl | rfl <;> (unfold Readable; decide +kernel)

theorem stuck_tail : Stuck stuckState := by
  refine ⟨by decide, 0x1000, ?_⟩
  have h : faultOf (engineStep stuckState) = some (.readNotAdmitted 0x1000) := by decide +kernel
  cases ho : engineStep stuckState with
  | next t => rw [ho] at h; cases h
  | fault f => rw [ho] at h; cases h; rfl
  | refused r => rw [ho] at h; cases h

theorem legal_crc : LegalCommand Config.default 4 := .inr (.inr (.inr (.inr ⟨rfl, rfl⟩)))

/-- The invariant holds after reset, in the middle of a call, and while a call is stuck. -/
theorem inv_reset : Inv State.reset := ⟨rfl, by decide, fun _ => rfl, fun h => absurd rfl h, trivial⟩

theorem inv_block : Inv (callState 0 32 .block 0b100) :=
  ⟨by decide +kernel, by decide, fun h => (by cases h), fun _ => legal_crc, by decide, by decide, rfl⟩

theorem inv_final : Inv { callState 0 1 .final 0b000 with off := 1, reads := [0x1000] } :=
  ⟨by decide +kernel, by decide, fun h => (by cases h), fun _ => .inl rfl, rfl, rfl⟩

theorem inv_stuck : Inv stuckState :=
  ⟨rfl, by decide, fun h => (by cases h), fun _ => .inl rfl, by decide, by decide, by decide, rfl⟩

theorem buffer_abc : HoldsBuffer (idleState 0x61 3) 0x1000 3 [0x61, 0x62, 0x63] := by
  refine ⟨rfl, fun _ => by decide, ?_⟩
  decide +kernel

theorem contract_abc (w : Word) (h : LegalCommand Config.default w) : InContract (idleState 0x61 3) w [0x61, 0x62, 0x63] :=
  ⟨h, rfl, ⟨rfl, rfl, fun _ => rfl⟩, buffer_abc⟩

theorem contract_empty (w : Word) (h : LegalCommand Config.default w) : InContract (idleState 0 0) w [] :=
  ⟨h, rfl, ⟨rfl, rfl, fun _ => rfl⟩, rfl, fun _ => by decide, fun i hi => by simp at hi⟩

theorem test_witness_ResetStateIsIdleAndReady :
    LegalCommand Config.default 0 ∧ LegalCommand Config.default 4 := ⟨.inl rfl, legal_crc⟩

theorem test_witness_ResetEventLeavesTheBlockIdle :
    ∃ s : State, s.moves = .reset :: [.read 4 64] ∧ s.sched = .host :: [] ∧ s.phase = .tail ∧ LegalCommand s.cfg 4 :=
  ⟨{ callState 0x61 3 .tail 0b011 with moves := [.reset, .read 4 64], sched := [.host] }, rfl, rfl, rfl, legal_crc⟩

theorem test_witness_HostWritesSetOperandRegisters : (idleState 0x61 3).phase = .idle := rfl

theorem test_witness_WritesDuringACallAreDropped :
    (callState 0x61 3 .tail 0).phase ≠ .idle ∧ (0 : Nat) ≤ 3 ∧ (3 : Nat) ≤ 3 := by decide

theorem test_witness_HostReadsReturnTheRegisters : ({ idleState 0 0 with done := true } : State).done = true := rfl

theorem test_witness_UnspecifiedReadsReturnSomeValue : State.reset.done = false := rfl

/-- A width next to 64, the first register number that is none, byte counts 0 and 8. -/
theorem test_witness_UndefinedAccessesAreRefused :
    (63 : Nat) ≠ 64 ∧ (65 : Nat) ≠ 64 ∧ 5 < 6 ∧ ((0 : Nat) = 0 ∨ 8 ≤ 0) ∧ ((8 : Nat) = 0 ∨ 8 ≤ 8) := by decide

theorem test_witness_WaitPollsStatusUntilDone :
    ({ idleState 0 0 with done := true } : State).done = true ∧ (callState 0x61 3 .tail 0).done = false := ⟨rfl, rfl⟩

theorem test_witness_MemoryWriteFromOutside :
    (idleState 0x61 3).phase = .idle ∧ (callState 0x61 3 .tail 0).phase ≠ .idle ∧
      memByte (callState 0x61 3 .tail 0).mem 0x1002 = some 0x63 ∧
      memByte (callState 0x61 3 .tail 0).mem 0x1003 = none ∧
      2 ^ 64 - 1 < 2 ^ (idleState 0x61 3).cfg.aw ∧ 2 ^ (idleState 0x61 3).cfg.aw ≤ 2 ^ 64 := by decide +kernel

theorem test_witness_StatusFlagsFollowPhase :
    ∃ s t : State, (s.done = true → s.phase = .idle) ∧ step s = .next t ∧ t.done = true := by
  refine ⟨callState 0 0 .fold32 0b010, _, by decide, rfl, rfl⟩

theorem test_witness_HostAccessesDoNotDisturbACall :
    ∃ (s t : State) (m : HostMove), s.phase ≠ .idle ∧ leavesCallAlone m = true ∧ hostMove m s = .next t :=
  ⟨callState 0x61 3 .tail 0, _, .write 0 64 5, by decide, rfl, rfl⟩

theorem test_witness_ReservedWordsChangeNothing :
    decodeCmd State.reset.cfg.hasCrc32c 5 = .reserved 5 ∧ decodeCmd State.reset.cfg.hasCrc32c 8 = .reserved 8 := by
  decide

theorem test_witness_DecodeEncodeAgree :
    (Instr.tailldbe 0 7).wf true = true ∧ encodeCmd (.tailldbe 0 7) = none ∧ (∀ x, encodeUsel x (.tailldbe 0 7) = none) ∧
      Instr.t1haIa32crc.wf true = true ∧ encodeCmd .t1haIa32crc = some 4 ∧ encodeUsel true .csquash = some 0b1011 ∧
      decodeUsel 0b1110 = .ok .fold32 := by decide

theorem test_witness_StartFollowsItsRule :
    (callState 0x61 3 .tail 0).phase ≠ .idle ∧
      ((idleState 0x61 3).phase = .idle ∧ ¬ LegalCommand (idleState 0x61 3).cfg 5) ∧
      LegalCommand (idleState 0x61 3).cfg 4 ∧ LegalCommand (idleState 0x61 3).cfg 0 ∧
      ∃ t, hostMove (.write 3 64 4) (idleState 0x61 3) = .next t ∧ t.phase ≠ .idle := by
  refine ⟨by decide, ⟨rfl, ?_⟩, legal_crc, .inl rfl, _, rfl, by decide⟩
  unfold LegalCommand
  decide

theorem test_witness_CommandsBeginTheirCalls :
    (idleState 0x61 3).phase = .idle ∧ (idleState 0x61 3).cfg.hasCrc32c = true ∧
      ({ idleState 0x61 3 with cfg := { Config.default with hasCrc32c := false } } : State).cfg.hasCrc32c = false :=
  ⟨rfl, rfl, rfl⟩

theorem test_witness_StepRunsTheWrittenCommand :
    ∃ s : State, s.moves = .write 3 64 4 :: [] ∧ s.sched = .host :: [] :=
  ⟨{ idleState 0x61 3 with moves := [.write 3 64 4], sched := [.host] }, rfl, rfl⟩

theorem test_witness_StepRunsTheSelectedMicroOperation :
    ∃ (s t : State), s.sched.head? ≠ some .host ∧ decodeUsel (usel s) = .ok .tail ∧ s.moves = [] ∧
      exec .tail { s with sched := s.sched.tail } = .next t := by
  obtain ⟨t, ht⟩ := next_of_isSome (o := exec .tail (callState 0x61 3 .tail 0)) (by decide +kernel)
  exact ⟨callState 0x61 3 .tail 0, t, by decide, rfl, rfl, ht⟩

/-- The five clauses: no move pending and idle; no move and in a call; the host's turn; the engine's turn with a step; a stuck
engine. -/
theorem test_witness_OneAgentMovesAtAStep :
    ((idleState 0 0).moves = [] ∧ (idleState 0 0).phase = .idle) ∧
      ((callState 0 0 .final 0).moves = [] ∧ (callState 0 0 .final 0).phase ≠ .idle) ∧
      (∃ s : State, s.moves = .read 4 64 :: [] ∧ s.sched.head? = some .host) ∧
      (∃ s t : State, s.moves = .read 4 64 :: [] ∧ s.sched.head? ≠ some .host ∧ s.phase ≠ .idle ∧
        engineStep { s with sched := s.sched.tail } = .next t) ∧
      ∃ s : State, s.moves = .read 4 64 :: [] ∧ Stuck s := by
  refine ⟨⟨rfl, rfl⟩, ⟨rfl, by decide⟩, ⟨{ idleState 0 0 with moves := [.read 4 64], sched := [.host] }, rfl, rfl⟩, ?_, ?_⟩
  · exact ⟨{ callState 0 0 .fold32 0b010 with moves := [.read 4 64] }, _, rfl, by decide, by decide, rfl⟩
  · exact ⟨{ stuckState with moves := [.read 4 64] }, rfl, stuck_congr stuck_tail (fun _ _ h => h) rfl rfl rfl rfl rfl⟩

theorem test_witness_MixblockAbsorbsABlock :
    Readable (callState 0 32 .block 0) ((callState 0 32 .block 0).ptr.toNat + (callState 0 32 .block 0).off.toNat) 32 :=
  readable_block

theorem test_witness_CrcblockAbsorbsABlock :
    Readable (callState 0 32 .block 0b100)
      ((callState 0 32 .block 0b100).ptr.toNat + (callState 0 32 .block 0b100).off.toNat) 32 :=
  readable_block

/-- Tails of 1 byte (one word), 8 (one full word), 9, 17, 25 (two, three, four words) and 31 bytes. -/
theorem test_witness_TailAbsorbsTheRemainder (r : Nat) (h : r = 1 ∨ r = 8 ∨ r = 9 ∨ r = 17 ∨ r = 25 ∨ r = 31) :
    ∃ (s : State) (k : Nat), r = (s.len - s.off).toNat ∧ 1 ≤ r ∧ r ≤ 31 ∧ k = (r + 7) / 8 ∧
      Readable s (s.ptr.toNat + s.off.toNat) r :=
  ⟨callState 0 r .tail 0, _, (readable_tail r h).2.symm, by omega, by omega, rfl, (readable_tail r h).1⟩

theorem test_witness_FinalComputesTheDigest :
    (callState 0 0 .final 0b000).var.getLsbD 1 = false ∧ (callState 0 0 .final 0b010).var.getLsbD 1 = true := by decide

theorem test_witness_Fold32NarrowsTheDigest : ∃ t, exec .fold32 (callState 0 0 .fold32 0b010) = .next t := ⟨_, rfl⟩

theorem test_witness_FullWordLoadsAssembleBytes : ∃ B, memRead loadState 0x1003 8 = .ok B := ⟨_, rfl⟩

/-- Byte counts 1 and 7, at the end of the bytes memory has. -/
theorem test_witness_PartialLoadsZeroExtend :
    (∃ B, memRead loadState 0x100F 1 = .ok B) ∧ ∃ B, memRead loadState 0x1009 7 = .ok B := ⟨⟨_, rfl⟩, ⟨_, rfl⟩⟩

theorem test_witness_FetchblkOrdersTheWords :
    ∃ (s : State) (B : Nat → List Byte), ∀ k, k < 4 → memRead s (s.ptr.toNat + s.off.toNat + 8 * k) 8 = .ok (B k) :=
  ⟨callState 0 32 .block 0, fun k => (List.range 8).map (fun i => BitVec.ofNat 8 (8 * k + i)), by decide +kernel⟩

theorem test_witness_LoadsOfReadableBytesComplete :
    Readable loadState 0x1008 8 ∧ Readable loadState 0x100F 1 ∧
      Readable loadState 0x1009 7 ∧
      Readable (callState 0 32 .block 0) ((callState 0 32 .block 0).ptr.toNat + (callState 0 32 .block 0).off.toNat) 32 := by
  refine ⟨?_, ?_, ?_, readable_block⟩ <;> (unfold Readable; decide +kernel)

theorem test_witness_BigEndianLoadIsByteSwapped :
    (∃ v, loadWord loadState false 0x1008 8 = .ok v) ∧ (∃ v, loadWord loadState false 0x100F 1 = .ok v) ∧
      ∃ v, loadWord loadState false 0x1009 7 = .ok v := ⟨⟨_, rfl⟩, ⟨_, rfl⟩, ⟨_, rfl⟩⟩

theorem test_witness_LoadsTouchExactlyTheirBytes :
    (∃ t, exec (.load64le 0x1000) loadState = .next t) ∧ (∃ t, exec (.load64be 0x1000) loadState = .next t) ∧
      (∃ t, exec (.tailldle 0x1000 1) loadState = .next t) ∧ (∃ t, exec (.tailldbe 0x1000 7) loadState = .next t) ∧
      ∃ m : List Host.Cell, m ≠ loadState.mem ∧ ∀ i, i < 7 →
        memByte m (0x1000 + i) = memByte loadState.mem (0x1000 + i) := by
  refine ⟨next_of_isSome (by decide +kernel), next_of_isSome (by decide +kernel), next_of_isSome (by decide +kernel),
    next_of_isSome (by decide +kernel), seqAt 0x1000 0xA0 7, by decide +kernel, by decide +kernel⟩

theorem test_witness_UnreadableByteStopsTheRead :
    ¬ Readable State.reset (State.reset.ptr.toNat + State.reset.off.toNat) 32 ∧
      ¬ Readable stuckState (stuckState.ptr.toNat + stuckState.off.toNat) (stuckState.len - stuckState.off).toNat ∧
      ¬ Readable loadState 0x1009 8 ∧ ¬ Readable loadState 0x1010 1 ∧
      ¬ Readable loadState 0x100A 7 := by
  refine ⟨?_, ?_, ?_, ?_, ?_⟩ <;> (unfold Readable; decide +kernel)

theorem test_witness_StuckCallStaysStuckUntilReset :
    (∃ (s t : State), Stuck s ∧ s.moves = .store 0x1000 5 :: [] ∧ HostMove.store 0x1000 5 ≠ .reset ∧ step s = .next t) ∧
      (stuckState.phase = .tail ∧
        ¬ Readable stuckState (stuckState.ptr.toNat + stuckState.off.toNat) (stuckState.len - stuckState.off).toNat) ∧
      (∃ s : State, s.phase = .block ∧ ¬ Readable s (s.ptr.toNat + s.off.toNat) 32) ∧
      (∃ s : State, Stuck s ∧ s.moves = .reset :: []) ∧ Stuck stuckState ∧ stuckState.moves = [] := by
  refine ⟨?_, ⟨rfl, by unfold Readable; decide +kernel⟩, ⟨{ stuckState with phase := .block }, rfl, by unfold Readable; decide +kernel⟩,
    ⟨{ stuckState with moves := [.reset] }, stuck_congr stuck_tail (fun _ _ h => h) rfl rfl rfl rfl rfl, rfl⟩, stuck_tail, rfl⟩
  obtain ⟨t, ht⟩ := next_of_isSome (o := step { stuckState with moves := [.store 0x1000 5] }) (by decide +kernel)
  exact ⟨{ stuckState with moves := [.store 0x1000 5] }, t, stuck_congr stuck_tail (fun _ _ h => h) rfl rfl rfl rfl rfl, rfl, by decide, ht⟩

theorem test_witness_ReadsReturnAContentHeldDuringTheCall :
    (∃ b, byteAt loadState 0x1000 = some b) ∧
      (0x1000 < 2 ^ loadState.cfg.aw ∧ lostAt loadState.overwritten 0x1000 = [] ∧ lostAt (laterWrites loadState) 0x1000 = [] ∧
        0x1000 ∉ loadState.late) ∧
      HoldsBytes (callState 0 32 .block 0) 0x1000 ((List.range 32).map (BitVec.ofNat 8)) ∧
      memByte loadState.mem 0x1010 = none ∧ (0x1010 ∈ ({ loadState with late := [0x1010] } : State).late) ∧
      (∃ (s : State) (b : Byte), byteAt s 0x1000 = some b ∧ lostAt s.overwritten 0x1000 ≠ []) ∧
      (∃ (s : State) (b : Byte), byteAt s 0x1000 = some b ∧ lostAt (laterWrites s) 0x1000 ≠ []) ∧
      loadState.phase = .idle := by
  refine ⟨⟨_, rfl⟩, ⟨by decide, rfl, rfl, by decide⟩, holds_block, by decide +kernel, by decide,
    ⟨{ loadState with overwritten := [(0x1000, 7)] }, _, rfl, by decide⟩,
    ⟨{ callState 0 32 .block 0 with moves := [.store 0x1000 7], sched := [.host] }, _, rfl, by decide +kernel⟩, rfl⟩

/-- A block in a CRC call about to absorb its buffer, the host having the turn to write the first byte of it. -/
def racingState : State := { callState 0 32 .block 0b100 with moves := [.store 0x1000 7], sched := [.host] }

/-- A host's turn and an engine's step in a call that is not stuck and has a write to come. -/
theorem test_witness_ReadsReturnAContentHeldDuringTheCall_later :
    ∃ t u : State, Inv racingState ∧ racingState.phase ≠ .idle ∧ ¬ Stuck racingState ∧ turn racingState = .host ∧
      step racingState = .next t ∧ engineStep racingState = .next u ∧
      writesWithin racingState (stepsLeft racingState) = [(0x1000, 7)] := by
  obtain ⟨t, ht⟩ := next_of_isSome (o := step racingState) (by decide +kernel)
  obtain ⟨u, hu⟩ := next_of_isSome (o := engineStep racingState) (by decide +kernel)
  exact ⟨t, u, ⟨inv_block.mem, inv_block.cfg, inv_block.done, inv_block.var, inv_block.call⟩, by decide,
    fun h => ((stuck_iff _).mp h).2 ⟨u, hu⟩, rfl, ht, hu, by decide +kernel⟩

theorem test_witness_Rot64RotatesRight : (1 : Nat) ≤ 1 ∧ (1 : Nat) ≤ 63 ∧ (63 : Nat) ≤ 63 ∧ 0 < 64 ∧ 63 < 64 := by decide

theorem test_witness_Fold32FoldsTheHalves : Config.odd Config.default.pf ∧ Config.odd 1 := by decide

theorem test_witness_PhasesFollowTheTable_start : (idleState 0 0).phase = .idle ∧ LegalCommand (idleState 0 0).cfg 4 :=
  ⟨rfl, legal_crc⟩

/-- A step of the engine from every phase, and both values of `VAR[1]` in `FINAL`. -/
theorem test_witness_PhasesFollowTheTable (s : State)
    (h : s = idleState 0 0 ∨ s = callState 0 1 .init 0 ∨ s = callState 0 32 .block 0 ∨ s = callState 0 32 .squash 4 ∨
      s = callState 0 1 .tail 0 ∨ s = callState 0 0 .final 0 ∨ s = callState 0 0 .final 2 ∨ s = callState 0 0 .fold32 2) :
    ∃ t, engineStep s = .next t := by
  apply next_of_isSome
  rcases h with rfl | rfl | rfl | rfl | rfl | rfl | rfl | rfl <;> decide +kernel

theorem test_witness_ControlFlowIsDataIndependent :
    ∃ s t s' t' : State, s ≠ t ∧ s.phase = t.phase ∧ s.len = t.len ∧ s.off = t.off ∧ s.var = t.var ∧
      engineStep s = .next s' ∧ engineStep t = .next t' := by
  obtain ⟨s', h1⟩ := next_of_isSome (o := engineStep (callState 0 32 .block 0)) (by decide +kernel)
  obtain ⟨t', h2⟩ := next_of_isSome (o := engineStep { callState 7 32 .block 0 with seed := 5 }) (by decide +kernel)
  exact ⟨callState 0 32 .block 0, { callState 7 32 .block 0 with seed := 5 }, s', t', by decide +kernel, rfl, rfl, rfl, rfl,
    h1, h2⟩

theorem test_witness_NoInstructionWritesMemoryOrOperands :
    (∃ t, exec .t1ha (idleState 0 0) = .next t) ∧ (∃ t, exec .tail (callState 0x61 3 .tail 0) = .next t) ∧
      encodeCmd .tail = none := ⟨⟨_, rfl⟩, next_of_isSome (by decide +kernel), rfl⟩

theorem test_witness_InstructionsWriteOnlyTheirRegisters :
    (∃ t, exec (.reserved 5) (idleState 0 0) = .next t) ∧ (∃ t, exec .t1haIa32crc (idleState 0 0) = .next t) ∧
      (∃ t, exec .init (callState 0 0 .init 4) = .next t) ∧ (∃ t, exec .csquash (callState 0 32 .squash 4) = .next t) ∧
      (∃ t, exec .mixblock (callState 0 32 .block 0) = .next t) ∧
      (∃ t, exec .crcblock (callState 0 32 .block 4) = .next t) ∧ (∃ t, exec .tail (callState 0 31 .tail 0) = .next t) ∧
      (∃ t, exec .final (callState 0 0 .final 2) = .next t) ∧
      ∃ t, exec (.tailldle 0x1000 7) loadState = .next t := by
  refine ⟨?_, ?_, ?_, ?_, ?_, ?_, ?_, ?_, ?_⟩ <;> exact next_of_isSome (by decide +kernel)

/-- A step that changes `VAR` and clears `DONE`, one that changes `DIGEST`, one that sets `DONE`. -/
theorem test_witness_OnlyTheNamedEventsChangeVarDigestDone :
    (∃ s t : State, step s = .next t ∧ t.var ≠ s.var ∧ s.done = true ∧ t.done = false) ∧
      ∃ s t : State, step s = .next t ∧ t.digest ≠ s.digest ∧ s.done = false ∧ t.done = true :=
  ⟨⟨{ idleState 0 0 with done := true, moves := [.write 3 64 1] }, _, rfl, by decide, rfl, rfl⟩,
    ⟨{ callState 0 0 .fold32 2 with digest := 1 }, _, rfl, by decide +kernel, rfl, rfl⟩⟩

theorem test_witness_InvariantHoldsAtReset : Config.default.Wf := by decide

theorem test_witness_EveryStepKeepsTheInvariant :
    (∃ s t : State, Inv s ∧ step s = .next t) ∧ ∃ s t : State, Inv s ∧ s.phase = .block ∧ step s = .next t := by
  obtain ⟨t, ht⟩ := next_of_isSome (o := step (callState 0 32 .block 0b100)) (by decide +kernel)
  exact ⟨⟨State.reset, _, inv_reset, rfl⟩, ⟨_, t, inv_block, rfl, ht⟩⟩

theorem test_witness_ReadRequestsStayInTheWindow :
    (∃ s t : State, Inv s ∧ engineStep s = .next t ∧ t.reads ≠ s.reads) ∧
      ∃ (s : State) (a : Nat), Inv s ∧ engineStep s = .fault (.readNotAdmitted a) := by
  obtain ⟨a, ha⟩ := stuck_tail.2
  refine ⟨⟨callState 0 32 .block 0b100, _, inv_block, rfl, by decide⟩, ⟨stuckState, a, inv_stuck, ha⟩⟩

theorem test_witness_EachByteIsReadOnceInOrder :
    ∃ s t : State, Inv s ∧ s.phase ≠ .idle ∧ engineStep s = .next t ∧ t.phase = .idle :=
  ⟨_, _, inv_final, by decide, rfl, rfl⟩

theorem test_witness_CallComputesTheDigest :
    ∃ (s : State) (B : List Byte), InContract s 4 B ∧ s.moves = [.write 3 64 4] ∧ s.sched = [] ∧
      callSteps s.len.toNat ((4#64).extractLsb' 0 3) ≤ 3 :=
  ⟨{ idleState 0x61 3 with moves := [.write 3 64 4] }, _, ⟨legal_crc, rfl, ⟨rfl, rfl, fun _ => rfl⟩, buffer_abc⟩, rfl, rfl, by decide⟩

theorem test_witness_CallFollowsItsPhaseSequence :
    ∃ (s : State) (B : List Byte), InContract s 2 B ∧ s.moves = [.write 3 64 2] ∧ s.sched = [] ∧
      1 ≤ callSteps s.len.toNat ((2#64).extractLsb' 0 3) :=
  ⟨{ idleState 0x61 3 with moves := [.write 3 64 2] }, _, ⟨.inr (.inr (.inl rfl)), rfl, ⟨rfl, rfl, fun _ => rfl⟩, buffer_abc⟩, rfl, rfl, by decide⟩

theorem test_witness_CallProgramReadsTheDigest :
    ∃ (s : State) (B : List Byte), s.phase = .idle ∧ LegalCommand s.cfg 3 ∧ HoldsBuffer s 0x1000 3 B ∧
      s.moves = callMoves 3 0x1000 3 1 ∧ s.sched = [] :=
  ⟨{ idleState 0x61 3 with moves := callMoves 3 0x1000 3 1 }, _, rfl, .inr (.inr (.inr (.inl rfl))), buffer_abc, rfl, rfl⟩

theorem test_witness_InterleavingDoesNotChangeTheDigest :
    ∃ (s t : State) (B : List Byte) (ms : List HostMove) (sc : List Agent) (k : Nat), InContract s 0 B ∧
      (∀ m ∈ ms, onlyObserves m = true) ∧ runSteps k { acceptStart s 0 with moves := ms, sched := sc } = .next t ∧
      t.done = true := by
  have h : (nextOf (runSteps 3 { acceptStart (idleState 0 0) 0 with moves := [.read 4 64], sched := [.host] })).map
      (fun t => t.done) = some true := by decide +kernel
  obtain ⟨t, ht⟩ := next_of_isSome
    (o := runSteps 3 { acceptStart (idleState 0 0) 0 with moves := [.read 4 64], sched := [.host] }) (by decide +kernel)
  rw [ht] at h
  exact ⟨idleState 0 0, t, [], _, _, 3, contract_empty 0 (.inl rfl), by decide, ht, Option.some.inj h⟩

/-- Two blocks with the same bytes at different addresses. -/
theorem test_witness_EqualInputsGiveEqualDigests :
    ∃ (s s' : State) (B : List Byte), InContract s 0 B ∧ InContract s' 0 B ∧ s.cfg = s'.cfg ∧ s.seed = s'.seed ∧
      s.moves = [.write 3 64 0] ∧ s'.moves = [.write 3 64 0] ∧ s.sched = [] ∧ s'.sched = [] ∧ s.ptr ≠ s'.ptr := by
  refine ⟨{ idleState 0x61 3 with moves := [.write 3 64 0] },
    { State.reset with
      ptr := 0x2000, len := 3, written := ⟨true, true, true⟩, mem := seqAt 0x2000 0x61 3, moves := [.write 3 64 0] },
    [0x61, 0x62, 0x63], ⟨.inl rfl, rfl, ⟨rfl, rfl, fun _ => rfl⟩, buffer_abc⟩,
    ⟨.inl rfl, rfl, ⟨rfl, rfl, fun _ => rfl⟩, rfl, fun _ => by decide, ?_⟩, rfl, rfl, rfl, rfl, rfl, rfl, by decide⟩
  decide +kernel

theorem test_witness_EmptyInputReadsNothing :
    ∃ s : State, s.phase = .idle ∧ LegalCommand s.cfg 4 ∧ s.len = 0 ∧ s.moves = [.write 3 64 4] ∧ s.sched = [] :=
  ⟨{ idleState 0 0 with moves := [.write 3 64 4] }, rfl, legal_crc, rfl, rfl, rfl⟩

theorem test_witness_DigestsCoincideWhereTheFormulasDo :
    (List.replicate 31 (0 : Byte)).length < 32 ∧ ([0x61] : List Byte).length ≤ 1 ∧
      ∃ B : List Byte, B = [1, 2, 3, 4, 4, 3, 2, 1, 9, 9] ∧
        (∀ j, j < B.length / 32 → bufferBlock true B j = bufferBlock false B j) ∧
        ∀ i, i < 4 →
          ((B.drop (32 * (B.length / 32) + 8 * i)).take 8).reverse = (B.drop (32 * (B.length / 32) + 8 * i)).take 8 :=
  ⟨by decide, by decide, _, rfl, by decide, by decide⟩

theorem test_witness_NarrowingIsTheFoldOfTheParent :
    ∃ (s : State) (B : List Byte), (((0 : Word) = 0 ∧ (2 : Word) = 2) ∨ ((0 : Word) = 1 ∧ (2 : Word) = 3)) ∧
      (((1 : Word) = 0 ∧ (3 : Word) = 2) ∨ ((1 : Word) = 1 ∧ (3 : Word) = 3)) ∧
      s.phase = .idle ∧ HoldsBuffer s s.ptr s.len B ∧ s.sched = [] :=
  ⟨idleState 0x61 3, _, .inl ⟨rfl, rfl⟩, .inr ⟨rfl, rfl⟩, rfl, buffer_abc, rfl⟩

/-- The host writes `SEED` and reads `STATUS` during the call, and writes a byte outside the window. -/
theorem test_witness_CallInContractEndsInItsDigest :
    ∃ (s t : State) (B : List Byte) (ms : List HostMove) (sc : List Agent) (k : Nat), InContract s 0 B ∧
      (∀ m ∈ ms, KeepsContract s m) ∧ runSteps k { acceptStart s 0 with moves := ms, sched := sc } = .next t ∧
      (∀ (j : Nat) (u : State), j < k →
        runSteps j { acceptStart s 0 with moves := ms, sched := sc } = .next u → u.done = false) ∧
      t.done = true := by
  have hd : ∀ (j : Nat), j < 5 → (nextOf (runSteps j { acceptStart (idleState 0 0) 0 with
      moves := [.write 2 64 9, .store 0x1000 7, .read 4 64], sched := [.host, .host, .host] })).map (fun u => u.done) =
        some false := by decide +kernel
  have h5 : (nextOf (runSteps 5 { acceptStart (idleState 0 0) 0 with
      moves := [.write 2 64 9, .store 0x1000 7, .read 4 64], sched := [.host, .host, .host] })).map (fun u => u.done) =
        some true := by decide +kernel
  obtain ⟨t, ht⟩ := next_of_isSome (o := runSteps 5 { acceptStart (idleState 0 0) 0 with
    moves := [.write 2 64 9, .store 0x1000 7, .read 4 64], sched := [.host, .host, .host] }) (by decide +kernel)
  rw [ht] at h5
  refine ⟨idleState 0 0, t, [], _, _, 5, contract_empty 0 (.inl rfl), ?_, ht, fun j u hj hu => ?_, Option.some.inj h5⟩
  · intro m hm
    simp only [List.mem_cons, List.not_mem_nil, or_false] at hm
    rcases hm with rfl | rfl | rfl <;> simp [KeepsContract, InWindow, idleState]
  · have := hd j hj
    rw [hu] at this
    exact Option.some.inj this

end Sys2Proof.Tests
end

section
/-! # The block and its host: accesses, reset, frames, the invariant

Proofs of the statements of 10_state: what the engine's step and the host's moves can change, that every step keeps the
invariant, and what host accesses do. -/

namespace Sys2Proof.Machine

/-! ## What an engine step can change -/

/-- `FINAL` ends the call of a 64-bit command and hands a narrowing one on to `FOLD32` (43_final R100). -/
theorem execFinal_cases {s t : State} (h : execFinal s = .next t) :
    (varNarrow s.var = true ∧ t = (s.setDigest (finalDigest s.cfg s.lanes s.len)).setPhase .fold32) ∨
      (varNarrow s.var = false ∧ t = completeCall (s.setDigest (finalDigest s.cfg s.lanes s.len))) := by
  unfold execFinal at h
  cases hn : varNarrow s.var <;> rw [hn] at h <;> cases h
  · exact .inr ⟨rfl, rfl⟩
  · exact .inl ⟨rfl, rfl⟩

/-- Only `FINAL` and `FOLD32` write `DIGEST` and `DONE`; no engine step writes the configuration, the operand registers, `VAR`,
memory or anything of the host's (10_state R16, R17, R19; 20_memory R39). -/
theorem engineStep_changes {s t : State} (h : engineStep s = .next t) :
    t = { s with
      lanes := t.lanes, phase := t.phase, off := t.off, reads := t.reads, loadOut := t.loadOut, draws := t.draws } ∨
    (s.phase = .final ∧ execFinal s = .next t) ∨ (s.phase = .fold32 ∧ execFold32 s = .next t) := by
  rcases engine_cases h with ⟨-, rfl⟩ | ⟨-, h⟩ | ⟨-, -, _, -, rfl⟩ | ⟨-, -, _, -, rfl⟩ | ⟨-, rfl⟩ | ⟨-, _, -, rfl⟩ | h | h
  · exact .inl rfl
  · cases h; exact .inl rfl
  · exact .inl rfl
  · exact .inl rfl
  · exact .inl rfl
  · exact .inl rfl
  · exact .inr (.inl h)
  · exact .inr (.inr h)

/-- What the invariant sees that the engine never writes. -/
theorem engineStep_cfg_mem_var {s t : State} (h : engineStep s = .next t) :
    t.cfg = s.cfg ∧ t.mem = s.mem ∧ t.var = s.var := by
  rcases engineStep_changes h with ht | ⟨-, h⟩ | ⟨-, h⟩
  · rw [ht]; exact ⟨rfl, rfl, rfl⟩
  · rcases execFinal_cases h with ⟨-, rfl⟩ | ⟨-, rfl⟩ <;> exact ⟨rfl, rfl, rfl⟩
  · cases h; exact ⟨rfl, rfl, rfl⟩

/-- The engine leaves `DONE` as it is, or sets it with the last micro-operation of a call, which leaves the block idle
(10_state R16). -/
theorem engineStep_done {s t : State} (h : engineStep s = .next t) :
    t.done = s.done ∨
      (t.done = true ∧ t.phase = .idle ∧ (s.phase = .fold32 ∨ (s.phase = .final ∧ varNarrow s.var = false))) := by
  rcases engineStep_changes h with ht | ⟨hp, h⟩ | ⟨hp, h⟩
  · rw [ht]; exact .inl rfl
  · rcases execFinal_cases h with ⟨-, rfl⟩ | ⟨hn, rfl⟩
    · exact .inl rfl
    · exact .inr ⟨rfl, rfl, .inr ⟨hp, hn⟩⟩
  · cases h; exact .inr ⟨rfl, rfl, .inl hp⟩

/-- The engine writes `DIGEST` in `FINAL` and `FOLD32` only (10_state R17). -/
theorem engineStep_digest {s t : State} (h : engineStep s = .next t) :
    t.digest = s.digest ∨ s.phase = .final ∨ s.phase = .fold32 := by
  rcases engineStep_changes h with ht | ⟨hp, -⟩ | ⟨hp, -⟩
  · rw [ht]; exact .inl rfl
  · exact .inr (.inl hp)
  · exact .inr (.inr hp)

theorem engineStep_of_idle {s : State} (h : s.phase = .idle) : engineStep s = .next s := by
  rw [engineStep_eq, h]

/-- A step that answers is the engine's step or the oldest host move, each with this step's turn taken. -/
theorem step_next_cases {s t : State} (h : step s = .next t) :
    engineStep (afterTurn s) = .next t ∨
      ∃ m ms, s.moves = m :: ms ∧ hostMove m ((afterTurn s).setMoves ms) = .next t := by
  rcases step_cases s with ⟨-, hs⟩ | ⟨_, _, -, -, -, hs⟩ | ⟨m, ms, hm, -, hs⟩
  · exact .inl (hs ▸ h)
  · exact .inl (hs ▸ h)
  · exact .inr ⟨m, ms, hm, hs ▸ h⟩

end Sys2Proof.Machine
end

section
/-! ## The invariant -/

namespace Sys2Proof.Machine

/-! `CallInv` in each phase. -/

theorem callInv_idle {s : State} (h : s.phase = .idle) : CallInv s := by simp [CallInv, h]

theorem callInv_init {s : State} (h : s.phase = .init) : CallInv s ↔ s.reads = [] := by simp [CallInv, h]

theorem callInv_block {s : State} (h : s.phase = .block) :
    CallInv s ↔ s.off.toNat + 32 ≤ s.len.toNat ∧ s.off.toNat % 32 = 0 ∧
      s.reads = List.range' s.ptr.toNat s.off.toNat := by simp [CallInv, h]

theorem callInv_squash {s : State} (h : s.phase = .squash) :
    CallInv s ↔ s.off.toNat ≤ s.len.toNat ∧ s.len.toNat < s.off.toNat + 32 ∧ 32 ≤ s.off.toNat ∧
      s.off.toNat % 32 = 0 ∧ s.reads = List.range' s.ptr.toNat s.off.toNat := by simp [CallInv, h]

theorem callInv_tail {s : State} (h : s.phase = .tail) :
    CallInv s ↔ s.off.toNat < s.len.toNat ∧ s.len.toNat < s.off.toNat + 32 ∧ s.off.toNat % 32 = 0 ∧
      s.reads = List.range' s.ptr.toNat s.off.toNat := by simp [CallInv, h]

theorem callInv_final {s : State} (h : s.phase = .final) :
    CallInv s ↔ s.off = s.len ∧ s.reads = List.range' s.ptr.toNat s.len.toNat := by simp [CallInv, h]

theorem callInv_fold32 {s : State} (h : s.phase = .fold32) :
    CallInv s ↔ s.off = s.len ∧ s.reads = List.range' s.ptr.toNat s.len.toNat ∧ varNarrow s.var = true := by
  simp [CallInv, h]

/-! The next phase and what is then known of `LEN` and `OFF`. -/

theorem phaseAfterInit_cases (len : Word) :
    (phaseAfterInit len = .block ∧ 32 ≤ len.toNat) ∨
      (phaseAfterInit len = .tail ∧ 0 < len.toNat ∧ len.toNat < 32) ∨ (phaseAfterInit len = .final ∧ len = 0) := by
  unfold phaseAfterInit
  split
  · exact .inl ⟨rfl, ‹_›⟩
  · split
    · exact .inr (.inl ⟨rfl, ‹_›, by omega⟩)
    · exact .inr (.inr ⟨rfl, by bv_omega⟩)

theorem phaseAfterBlock_cases {len off : Word} (h : off.toNat ≤ len.toNat) :
    (phaseAfterBlock len off = .block ∧ off.toNat + 32 ≤ len.toNat) ∨
      (phaseAfterBlock len off = .squash ∧ len.toNat < off.toNat + 32) := by
  unfold phaseAfterBlock
  rw [BitVec.toNat_sub_of_le h]
  split
  · exact .inl ⟨rfl, by omega⟩
  · exact .inr ⟨rfl, by omega⟩

theorem phaseAfterSquash_cases {len off : Word} (h : off.toNat ≤ len.toNat) :
    (phaseAfterSquash len off = .tail ∧ off.toNat < len.toNat) ∨ (phaseAfterSquash len off = .final ∧ off = len) := by
  unfold phaseAfterSquash
  rw [BitVec.toNat_sub_of_le h]
  split
  · exact .inl ⟨rfl, by omega⟩
  · exact .inr ⟨rfl, BitVec.eq_of_toNat_eq (by omega)⟩

/-! Each micro-operation takes `CallInv` of its phase to `CallInv` of the next. -/

theorem callInv_execInit {s t : State} (hp : s.phase = .init) (hc : CallInv s) (h : execInit s = .next t) :
    CallInv t := by
  have hreads := (callInv_init hp).mp hc
  cases h
  rcases phaseAfterInit_cases s.len with ⟨hq, hl⟩ | ⟨hq, hl⟩ | ⟨hq, hl⟩
  · exact (callInv_block hq).mpr (by simp [hreads, hl])
  · exact (callInv_tail hq).mpr (by simp [hreads, hl])
  · exact (callInv_final hq).mpr (by simp [hreads, hl])

/-- Absorbing a block, into whatever lanes. -/
theorem callInv_absorbed {s : State} (hp : s.phase = .block) (hc : CallInv s) (ws : List Word) (l : Lanes) :
    CallInv ((((s.loaded ws (blockAddrs s)).setLanes l).setOff (s.off + 32)).setPhase
      (phaseAfterBlock s.len (s.off + 32))) := by
  obtain ⟨hlen, hoff, hreads⟩ := (callInv_block hp).mp hc
  have hoff' : (s.off + 32).toNat = s.off.toNat + 32 := by have := s.len.isLt; bv_omega
  have hreads' : s.reads ++ blockAddrs s = List.range' s.ptr.toNat (s.off + 32).toNat := by
    rw [hreads, blockAddrs, nextAddr, List.range'_append_1, hoff']
  rcases phaseAfterBlock_cases (len := s.len) (off := s.off + 32) (by omega) with ⟨hq, hl⟩ | ⟨hq, hl⟩
  · exact (callInv_block hq).mpr ⟨hl, by simp only [State.setPhase_off, State.setOff_off]; omega, hreads'⟩
  · refine (callInv_squash hq).mpr ⟨?_, hl, ?_, ?_, hreads'⟩ <;>
      simp only [State.setPhase_off, State.setOff_off, State.setPhase_len, State.setOff_len, State.setLanes_len,
        State.loaded_len] <;> omega

/-- `SQUASH` and `CSQUASH`, whatever the lanes. -/
theorem callInv_squashed {s : State} (hp : s.phase = .squash) (hc : CallInv s) (l : Lanes) :
    CallInv ((s.setLanes l).setPhase (phaseAfterSquash s.len s.off)) := by
  obtain ⟨hle, hlt, -, hoff, hreads⟩ := (callInv_squash hp).mp hc
  rcases phaseAfterSquash_cases hle with ⟨hq, hl⟩ | ⟨hq, hl⟩
  · exact (callInv_tail hq).mpr ⟨hl, hlt, hoff, hreads⟩
  · exact (callInv_final hq).mpr ⟨hl, hl ▸ hreads⟩

theorem callInv_tailAbsorbed {s : State} (hp : s.phase = .tail) (hc : CallInv s) (ws : List Word) (l : Lanes) :
    CallInv ((((s.loaded ws (tailAddrs s)).setLanes l).setOff s.len).setPhase .final) := by
  obtain ⟨hlt, -, -, hreads⟩ := (callInv_tail hp).mp hc
  have hreads' : s.reads ++ tailAddrs s = List.range' s.ptr.toNat s.len.toNat := by
    rw [hreads, tailAddrs, nextAddr, List.range'_append_1, remaining, BitVec.toNat_sub_of_le (Nat.le_of_lt hlt),
      Nat.add_sub_cancel' (Nat.le_of_lt hlt)]
  exact (callInv_final rfl).mpr ⟨rfl, hreads'⟩

theorem callInv_execFinal {s t : State} (hp : s.phase = .final) (hc : CallInv s) (h : execFinal s = .next t) :
    CallInv t := by
  obtain ⟨hoff, hreads⟩ := (callInv_final hp).mp hc
  rcases execFinal_cases h with ⟨hn, rfl⟩ | ⟨-, rfl⟩
  · exact (callInv_fold32 rfl).mpr ⟨hoff, hreads, hn⟩
  · exact callInv_idle rfl

/-- The engine's step takes `CallInv` of each phase to that of the next (44_variants64 R111, R118). -/
theorem callInv_engineStep {s t : State} (hc : CallInv s) (h : engineStep s = .next t) : CallInv t := by
  rcases engine_cases h with ⟨-, rfl⟩ | ⟨hp, h⟩ | ⟨hp, -, _, -, rfl⟩ | ⟨hp, -, _, -, rfl⟩ | ⟨hp, rfl⟩ |
    ⟨hp, _, -, rfl⟩ | ⟨hp, h⟩ | ⟨hp, h⟩
  · exact hc
  · exact callInv_execInit hp hc h
  · exact callInv_absorbed hp hc _ _
  · exact callInv_absorbed hp hc _ _
  · exact callInv_squashed hp hc _
  · exact callInv_tailAbsorbed hp hc _ _
  · exact callInv_execFinal hp hc h
  · cases h; exact callInv_idle rfl

/-- While idle the invariant asks only for canonical memory and a configuration that meets R5. -/
theorem inv_of_idle {s : State} (hm : memWf (addressSpace s.cfg) s.mem = true) (hc : s.cfg.Wf) (hp : s.phase = .idle) :
    Inv s :=
  ⟨hm, hc, fun _ => hp, fun h => absurd hp h, callInv_idle hp⟩

/-- The invariant does not see the host's side and the counter of free values. -/
theorem inv_withHostSide {s : State} (h : Inv s) (ms : List HostMove) (sc : List Agent) (rs : List (Nat × Word))
    (d : Nat) : Inv { s with moves := ms, sched := sc, replies := rs, draws := d } :=
  ⟨h.mem, h.cfg, h.done, h.var, h.call⟩

/-- `DONE = 1` implies `IDLE`, kept by the engine's step (10_state R23). -/
theorem engineStep_doneImpliesIdle {s t : State} (hi : s.done = true → s.phase = .idle)
    (h : engineStep s = .next t) : t.done = true → t.phase = .idle := by
  intro ht
  rcases engineStep_done h with hd | ⟨-, hp, -⟩
  · have hs := hi (hd ▸ ht)
    rw [engineStep_of_idle hs] at h
    cases h
    exact hs
  · exact hp

theorem inv_engineStep {s t : State} (hi : Inv s) (h : engineStep s = .next t) : Inv t := by
  obtain ⟨hcfg, hmem, hvar⟩ := engineStep_cfg_mem_var h
  refine ⟨by rw [hcfg, hmem]; exact hi.mem, hcfg ▸ hi.cfg, engineStep_doneImpliesIdle hi.done h, fun hp => ?_,
    callInv_engineStep hi.call h⟩
  rw [hcfg, hvar]
  refine hi.var fun hs => hp ?_
  rw [engineStep_of_idle hs] at h
  cases h
  exact hs

/-- An accepted `START` puts the opcode of a legal command in `VAR` and begins with nothing read
(44_variants64 R110). -/
theorem inv_acceptStart {s : State} (hi : Inv s) {w : Word} (hw : cmdReserved s.cfg.hasCrc32c w = false) :
    Inv (acceptStart s w) where
  mem := hi.mem
  cfg := hi.cfg
  done h := nomatch h
  var _ := by
    rw [acceptStart_var, ← word_of_not_reserved hw]
    exact (legalCommand_iff s.cfg w).mpr hw
  call := (callInv_init rfl).mpr rfl

/-- A write of memory inside the address space keeps its canonical form and touches nothing else the invariant sees. -/
theorem inv_storeByte {s : State} (hi : Inv s) {a : Nat} (ha : a < addressSpace s.cfg) (b : Byte) :
    Inv (storeByte s a b) :=
  ⟨memWf_storeByte hi.mem ha, hi.cfg, hi.done, hi.var, hi.call⟩

theorem inv_hostMove {s t : State} {m : HostMove} (hi : Inv s) (h : hostMove m s = .next t) : Inv t := by
  rcases hostMove_cases h with ht | ⟨hp, _, _, -, rfl | rfl | rfl⟩ | ⟨-, _, -, hw, rfl⟩ | ⟨-, rfl⟩ |
    ⟨a, b, -, ha, rfl⟩
  · rw [ht]; exact inv_withHostSide hi _ _ _ _
  · exact inv_of_idle hi.mem hi.cfg hp
  · exact inv_of_idle hi.mem hi.cfg hp
  · exact inv_of_idle hi.mem hi.cfg hp
  · exact inv_acceptStart hi hw
  · exact inv_of_idle hi.mem hi.cfg rfl
  · exact inv_storeByte hi ha b

/-- Settles O49: the engine's step moves `CallInv` along the phases, and a host move leaves it, idles or begins a call. -/
theorem everyStepKeepsTheInvariant : Obligations.EveryStepKeepsTheInvariant := by
  intro s t hi h
  rcases step_next_cases h with h | ⟨m, ms, -, h⟩
  · exact inv_engineStep (inv_withHostSide hi s.moves s.sched.tail s.replies s.draws) h
  · exact inv_hostMove (inv_withHostSide hi ms s.sched.tail s.replies s.draws) h

theorem inv_resetOf {cfg : Config} (h : cfg.Wf) : Inv (State.resetOf cfg) := inv_of_idle (memWf_reset cfg) h rfl

/-- Settles O48: after reset the block is idle and its memory empty. -/
theorem invariantHoldsAtReset : Obligations.InvariantHoldsAtReset :=
  ⟨inv_resetOf (by decide), fun _ h => inv_resetOf h⟩

end Sys2Proof.Machine
end

section
/-! ## Steps: who moves, and what a step changes of `STATUS`, `VAR`, `DIGEST` -/

namespace Sys2Proof.Machine

/-- The bits of `STATUS` (10_state R16). -/
theorem statusWord_getLsbD (s : State) (i : Nat) :
    (statusWord s).getLsbD i = if i = 0 then busy s else if i = 1 then s.done else false := by
  have happ : (statusWord s).getLsbD i =
      if i < 1 then (BitVec.ofBool (busy s)).getLsbD i else (0#62 ++ BitVec.ofBool s.done).getLsbD (i - 1) :=
    BitVec.getLsbD_append
  rw [happ, BitVec.getLsbD_append]
  match i with
  | 0 => simp
  | 1 => simp
  | i + 2 => simp

theorem statusWord_toNat (s : State) :
    (statusWord s).toNat = (if s.done then 2 else 0) + (if s.phase = .idle then 0 else 1) := by
  unfold statusWord busy
  by_cases hp : s.phase = .idle <;> cases s.done <;> simp [hp]

/-- `DONE = 1` implies `IDLE`, kept by every host move (10_state R23). -/
theorem hostMove_doneImpliesIdle {s t : State} {m : HostMove} (hi : s.done = true → s.phase = .idle)
    (h : hostMove m s = .next t) : t.done = true → t.phase = .idle := by
  rcases hostMove_cases h with ht | ⟨hp, _, _, -, rfl | rfl | rfl⟩ | ⟨-, _, -, -, rfl⟩ | ⟨-, rfl⟩ | ⟨_, _, -, -, rfl⟩
  · rw [ht]; exact hi
  · exact hi
  · exact hi
  · exact hi
  · exact fun hd => nomatch hd
  · exact fun _ => rfl
  · exact hi

/-- Settles O10: the bits are those of `statusWord`, and both agents keep that `DONE` implies `IDLE`. -/
theorem statusFlagsFollowPhase : Obligations.StatusFlagsFollowPhase := by
  refine ⟨fun s => ⟨?_, ?_, fun i hi => ?_⟩, fun s t hi h => ?_⟩
  · rw [statusWord_getLsbD]; exact busy_iff s
  · exact statusWord_getLsbD s 1
  · rw [statusWord_getLsbD, if_neg (by omega), if_neg (by omega)]
  · rcases step_next_cases h with h | ⟨m, ms, -, h⟩
    · exact engineStep_doneImpliesIdle (s := afterTurn s) hi h
    · exact hostMove_doneImpliesIdle (s := (afterTurn s).setMoves ms) hi h

/-- The host's move when it has the turn. -/
theorem step_of_hostTurn {s : State} {m : HostMove} {ms : List HostMove} (hm : s.moves = m :: ms)
    (ht : turn s = .host) : step s = hostMove m ((afterTurn s).setMoves ms) := by
  simp only [step, moveOf, afterTurn_moves, hm, ht]

/-- The host's move when the engine cannot move. -/
theorem step_of_engineDisabled {s : State} {m : HostMove} {ms : List HostMove} (hm : s.moves = m :: ms)
    (he : engineEnabled (afterTurn s) = false) : step s = hostMove m ((afterTurn s).setMoves ms) := by
  simp only [step, moveOf, afterTurn_moves, hm, he]
  cases turn s <;> rfl

theorem step_of_noMoves {s : State} (hm : s.moves = []) : step s = engineStep (afterTurn s) := by
  simp only [step, moveOf, afterTurn_moves, hm]

/-- The engine's step when it has the turn and a step. -/
theorem step_of_engineTurn {s t : State} (ht : turn s ≠ .host) (hp : s.phase ≠ .idle)
    (h : engineStep (afterTurn s) = .next t) : step s = .next t := by
  rcases step_cases s with ⟨-, hs⟩ | ⟨_, _, -, -, -, hs⟩ | ⟨_, _, -, hn | hn, -⟩
  · rw [hs, h]
  · rw [hs, h]
  · exact absurd hn ht
  · rw [(engineEnabled_iff (afterTurn s)).mpr ⟨hp, t, h⟩] at hn
    cases hn

/-- An idle or stuck engine is not enabled. -/
theorem engineEnabled_eq_false {s : State} (h : s.phase = .idle ∨ Stuck s) : engineEnabled s = false := by
  rw [Bool.eq_false_iff, ne_eq, engineEnabled_iff]
  rintro ⟨hp, hn⟩
  rcases h with h | h
  · exact hp h
  · exact ((stuck_iff s).mp h).2 hn

/-- Settles O22: the five cases of who moves (log 8), each by its equation for `step`. -/
theorem oneAgentMovesAtAStep : Obligations.OneAgentMovesAtAStep := by
  intro s m ms
  refine ⟨fun hm hp => ?_, fun hm _ => step_of_noMoves hm, fun hm ht => step_of_hostTurn hm ((turn_iff s).mpr ht),
    fun _ ht hp t h => step_of_engineTurn (mt (turn_iff s).mp ht) hp h, fun hm h => step_of_engineDisabled hm ?_⟩
  · exact (step_of_noMoves hm).trans (engineStep_of_idle hp)
  · exact engineEnabled_eq_false (h.imp id stuck_afterTurn)

/-- Of the host's moves only an accepted `START` and the reset event write `VAR`, `DIGEST` or `DONE`. -/
theorem hostMove_var_digest_done {s t : State} {m : HostMove} (h : hostMove m s = .next t) :
    (t.var = s.var ∧ t.digest = s.digest ∧ t.done = s.done) ∨ (m = .reset ∧ t.done = false) ∨
      ∃ w, m = .write 3 64 w ∧ s.phase = .idle ∧ LegalCommand s.cfg w ∧ t = acceptStart s w := by
  rcases hostMove_cases h with ht | ⟨_, _, _, -, rfl | rfl | rfl⟩ | ⟨hp, w, hm, hw, ht⟩ | ⟨hm, rfl⟩ | ⟨_, _, -, -, rfl⟩
  · rw [ht]; exact .inl ⟨rfl, rfl, rfl⟩
  · exact .inl ⟨rfl, rfl, rfl⟩
  · exact .inl ⟨rfl, rfl, rfl⟩
  · exact .inl ⟨rfl, rfl, rfl⟩
  · exact .inr (.inr ⟨w, hm, hp, (legalCommand_iff s.cfg w).mpr hw, ht⟩)
  · exact .inr (.inl ⟨hm, rfl⟩)
  · exact .inl ⟨rfl, rfl, rfl⟩

/-- Settles O47: the engine keeps `VAR`, clears nothing and writes `DIGEST` in two phases; of the host's moves only `START`
and the reset event write any of the three. -/
theorem onlyTheNamedEventsChangeVarDigestDone : Obligations.OnlyTheNamedEventsChangeVarDigestDone := by
  intro s t h
  rcases step_next_cases h with h | ⟨m, ms, hms, h⟩
  · obtain ⟨-, -, hvar⟩ := engineStep_cfg_mem_var h
    refine ⟨fun hc => ?_, fun hc => ?_, fun hs ht => ?_⟩
    · rcases hc with hc | ⟨hs, ht⟩
      · exact absurd hvar hc
      · rcases engineStep_done h with hd | ⟨hd, -⟩
        · rw [afterTurn_done, hs, ht] at hd; cases hd
        · rw [ht] at hd; cases hd
    · rcases engineStep_digest h with hd | hp | hp
      · exact absurd hd hc
      · exact .inl hp
      · exact .inr (.inl hp)
    · rcases engineStep_done h with hd | ⟨-, hd⟩
      · rw [afterTurn_done, hs, ht] at hd; cases hd
      · exact hd
  · rcases hostMove_var_digest_done h with ⟨hv, hdg, hd⟩ | ⟨rfl, hd⟩ | ⟨w, rfl, hp, hw, rfl⟩
    · refine ⟨fun hc => ?_, fun hc => absurd hdg hc, fun hs ht => ?_⟩
      · rcases hc with hc | ⟨hs, ht⟩
        · exact absurd hv hc
        · rw [State.setMoves_done, afterTurn_done, hs, ht] at hd; cases hd
      · rw [State.setMoves_done, afterTurn_done, hs, ht] at hd; cases hd
    · exact ⟨fun _ => .inl ⟨ms, hms⟩, fun _ => .inr (.inr ⟨ms, hms⟩), fun _ ht => by rw [ht] at hd; cases hd⟩
    · exact ⟨fun _ => .inr ⟨w, ms, hms, hp, hw, rfl, rfl⟩, fun hc => absurd rfl hc, fun _ ht => nomatch ht⟩

end Sys2Proof.Machine
end

section
/-! ## Host accesses -/

namespace Sys2Proof.Machine

/-! An access of 64 bits to a register is `hostWrite` or `hostRead` of it; any other is refused. -/

theorem hostMove_write {n : Nat} {r : HostReg} (hr : regOfNumber n = some r) (v : Word) (s : State) :
    hostMove (.write n 64 v) s = hostWrite r v s := by simp [hostMove, hr]

theorem hostMove_read {n : Nat} {r : HostReg} (hr : regOfNumber n = some r) (s : State) :
    hostMove (.read n 64) s = .next (hostRead r s) := by simp [hostMove, hr]

theorem regOfNumber_of_gt {n : Nat} (h : 5 < n) : regOfNumber n = none := by
  obtain ⟨k, rfl⟩ := Nat.exists_eq_add_of_le' h
  rfl

theorem hostMove_store {s : State} {a : Nat} (h : a < addressSpace s.cfg) (b : Byte) :
    hostMove (.store a b) s = .next (storeByte s a b) := if_pos h

/-- R24: a busy block drops a write of an operand register or `CMD`. -/
theorem hostWrite_of_busy {s : State} (h : s.phase ≠ .idle) (r : HostReg) (v : Word) : hostWrite r v s = .next s := by
  have hb : busy s = true := (busy_iff s).mpr h
  cases r with
  | ptr => simp [hostWrite, hb]
  | len => simp [hostWrite, hb]
  | seed => simp [hostWrite, hb]
  | cmd => exact (exec_decodeCmd s _ v).trans (start_of_busy h v)
  | status => rfl
  | digest => rfl

/-- Settles O1: the values of `State.resetOf` (log 7 for the default configuration), and an idle block accepts `START`. -/
theorem resetStateIsIdleAndReady : Obligations.ResetStateIsIdleAndReady := by
  refine ⟨rfl, fun cfg => ⟨rfl, rfl, BitVec.eq_of_toNat_eq (statusWord_toNat _),
    fun w hw => ⟨acceptStart (State.resetOf cfg) w, ?_, rfl, rfl⟩⟩⟩
  rw [hostMove_write_cmd]
  exact start_of_idle rfl ((legalCommand_iff cfg w).mp hw)

/-- Settles O3: a block that is not busy takes the write (log 29 for the record). -/
theorem hostWritesSetOperandRegisters : Obligations.HostWritesSetOperandRegisters := by
  refine fun s v => ⟨fun hp => ?_, rfl, rfl⟩
  have hb : busy s = false := by simp [busy, hp]
  refine ⟨(hostMove_write (r := .ptr) rfl v s).trans ?_, (hostMove_write (r := .len) rfl v s).trans ?_,
    (hostMove_write (r := .seed) rfl v s).trans ?_⟩ <;> rw [hostWrite, hb] <;> rfl

/-- Settles O4: registers 0 to 3 exist, and a busy block drops every write. -/
theorem writesDuringACallAreDropped : Obligations.WritesDuringACallAreDropped := by
  intro s n v hp hn
  have hreg : ∃ r, regOfNumber n = some r := by
    match n with
    | 0 | 1 | 2 | 3 => exact ⟨_, rfl⟩
  obtain ⟨r, hr⟩ := hreg
  rw [hostMove_write hr, hostWrite_of_busy hp]

/-- Settles O5: each read pushes its register's value; that of `STATUS` is `2*DONE + BUSY`. -/
theorem hostReadsReturnTheRegisters : Obligations.HostReadsReturnTheRegisters := by
  refine fun s => ⟨rfl, rfl, rfl, ⟨statusWord s, rfl, statusWord_toNat s⟩, fun hd => ?_⟩
  rw [hostMove_read (r := .digest) rfl, hostRead, if_pos hd]
  rfl

/-- Settles O6: the free value of the counter (log 5). -/
theorem unspecifiedReadsReturnSomeValue : Obligations.UnspecifiedReadsReturnSomeValue := by
  refine fun s => ⟨⟨Config.freeWord s.draws, rfl⟩, fun hd => ⟨Config.freeWord s.draws, ?_⟩⟩
  rw [hostMove_read (r := .digest) rfl, hostRead, if_neg (by simp [hd])]
  rfl

/-- Settles O7: width, register number and byte count are checked first (log 27). -/
theorem undefinedAccessesAreRefused : Obligations.UndefinedAccessesAreRefused := by
  intro s n bits v addr
  refine ⟨fun hb => ⟨if_pos hb, if_pos hb⟩, fun hn => ?_, fun hn => ?_⟩
  · simp [hostMove, regOfNumber_of_gt hn]
  · have hcount : byteCountOk n = false := by
      simp only [byteCountOk, Bool.and_eq_false_iff, decide_eq_false_iff_not]
      omega
    simp [exec, execTailldle, execTailldbe, hcount]

/-- Settles O11: of what a host move can do, a busy block leaves only what the host sees of it. -/
theorem hostAccessesDoNotDisturbACall : Obligations.HostAccessesDoNotDisturbACall := by
  intro s t m hp hm h
  rcases hostMove_cases h with ht | ⟨hi, -⟩ | ⟨hi, -⟩ | ⟨rfl, -⟩ | ⟨_, _, rfl, -⟩
  · exact ht
  · exact absurd hi hp
  · exact absurd hi hp
  · cases hm
  · cases hm

/-! ### A write of memory from outside -/

theorem overwrittenAfter_of_idle {s : State} (h : s.phase = .idle) (a : Nat) :
    overwrittenAfter s a = s.overwritten := by
  unfold overwrittenAfter
  cases memByte s.mem a <;> simp [h]

theorem overwrittenAfter_of_none {s : State} {a : Nat} (h : memByte s.mem a = none) :
    overwrittenAfter s a = s.overwritten := by
  simp [overwrittenAfter, h]

theorem overwrittenAfter_of_some {s : State} {a : Nat} {c : Byte} (hp : s.phase ≠ .idle)
    (h : memByte s.mem a = some c) : overwrittenAfter s a = (a, c) :: s.overwritten := by
  simp [overwrittenAfter, h, hp]

theorem lostAt_cons_same (old : List Host.Cell) (a : Nat) (c : Byte) :
    lostAt ((a, c) :: old) a = c :: lostAt old a := by simp [lostAt]

theorem lostAt_cons_other {a k : Nat} (h : k ≠ a) (old : List Host.Cell) (c : Byte) :
    lostAt ((a, c) :: old) k = lostAt old k := by simp [lostAt, h.symm]

/-- The record of what a byte held is touched at the byte written only. -/
theorem lostAt_overwrittenAfter_other {a k : Nat} (h : k ≠ a) (s : State) :
    lostAt (overwrittenAfter s a) k = lostAt s.overwritten k := by
  by_cases hp : s.phase = .idle
  · rw [overwrittenAfter_of_idle hp]
  · cases hm : memByte s.mem a with
    | none => rw [overwrittenAfter_of_none hm]
    | some c => rw [overwrittenAfter_of_some hp hm, lostAt_cons_other h]

/-- Settles O9: the new memory is `memPut`, and the two records are `overwrittenAfter` and `lateAfter` (logs 6, 28, 30, 36). -/
theorem memoryWriteFromOutside : Obligations.MemoryWriteFromOutside := by
  intro s a b
  refine ⟨fun ha => ⟨storeByte s a b, hostMove_store ha b, memByte_memPut_same _ _ _,
    fun k hk => memByte_memPut_other _ _ _ _ hk, fun k hk => lostAt_overwrittenAfter_other hk s, fun hp => ?_,
    fun hp c hc => ?_, fun hp hn => ?_, rfl⟩, fun ha => if_neg (Nat.not_lt.mpr ha)⟩
  · exact ⟨overwrittenAfter_of_idle hp a, by simp [storeByte, lateAfter, hp]⟩
  · have hlost : (storeByte s a b).overwritten = (a, c) :: s.overwritten := overwrittenAfter_of_some hp hc
    exact ⟨by rw [hlost, lostAt_cons_same], by simp [storeByte, lateAfter, hc]⟩
  · exact ⟨overwrittenAfter_of_none hn, by simp [storeByte, lateAfter, hp, hn]⟩

end Sys2Proof.Machine
end

section
/-! ## Frames of the instructions -/

namespace Sys2Proof.Machine

/-! What an instruction that answers has done, one lemma per family. -/

/-- Every command and every reserved word is `START` of a word (44_variants64 R110). -/
theorem exec_command_eq_start {i : Instr}
    (hi : i ∈ [Instr.t1ha, .t1ha64le, .t1ha64be, .t1ha32le, .t1ha32be, .t1haIa32crc] ∨ ∃ w, i = .reserved w) (s : State) :
    ∃ w, exec i s = start s w := by
  simp only [List.mem_cons, List.not_mem_nil, or_false] at hi
  rcases hi with (rfl | rfl | rfl | rfl | rfl | rfl) | ⟨w, rfl⟩ <;> exact ⟨_, rfl⟩

theorem start_next {s t : State} {w : Word} (h : start s w = .next t) : t = s ∨ t = acceptStart s w := by
  rcases start_cases s w with ⟨hs, -⟩ | ⟨hs, -⟩ <;> rw [hs] at h <;> cases h
  · exact .inl rfl
  · exact .inr rfl

theorem exec_mixblock_next {s t : State} (h : exec .mixblock s = .next t) :
    ∃ w, t = (((s.loaded (blockWords w) (blockAddrs s)).setLanes (mixBlock s.cfg s.lanes w)).setOff (s.off + 32)).setPhase
      (phaseAfterBlock s.len (s.off + 32)) := by
  rcases execMixblock_cases s with ⟨w, -, hs⟩ | ⟨e, -, hs⟩ <;> cases hs.symm.trans h
  exact ⟨w, rfl⟩

theorem exec_crcblock_next {s t : State} (h : exec .crcblock s = .next t) :
    ∃ w, t = (((s.loaded (blockWords w) (blockAddrs s)).setLanes (crcBlock s.cfg s.lanes w)).setOff (s.off + 32)).setPhase
      (phaseAfterBlock s.len (s.off + 32)) := by
  rcases execCrcblock_cases s with ⟨w, -, hs⟩ | ⟨e, -, hs⟩ <;> cases hs.symm.trans h
  exact ⟨w, rfl⟩

theorem exec_tail_next {s t : State} (h : exec .tail s = .next t) :
    ∃ vs, t = (((s.loaded vs (tailAddrs s)).setLanes (tailAbsorb s.cfg s.lanes vs)).setOff s.len).setPhase .final := by
  rcases execTail_cases s with ⟨vs, -, hs⟩ | ⟨e, -, hs⟩ <;> cases hs.symm.trans h
  exact ⟨vs, rfl⟩

theorem loadInto_next {s t : State} {be : Bool} {addr n : Nat} (h : loadInto s be addr n = .next t) :
    ∃ ws as, t = s.loaded ws as := by
  rcases loadInto_cases s be addr n with ⟨v, -, hs⟩ | ⟨e, -, hs⟩ <;> cases hs.symm.trans h
  exact ⟨_, _, rfl⟩

/-- A load that answers has handed words over and recorded their addresses (40_load R70 to R74). -/
theorem exec_load_next {s t : State} {i : Instr} {a n : Nat}
    (hi : i ∈ [Instr.load64le a, .load64be a, .tailldle a n, .tailldbe a n, .fetchblk]) (h : exec i s = .next t) :
    ∃ ws as, t = s.loaded ws as := by
  simp only [List.mem_cons, List.not_mem_nil, or_false] at hi
  rcases hi with rfl | rfl | rfl | rfl | rfl
  · exact loadInto_next (be := false) h
  · exact loadInto_next (be := true) h
  · simp only [exec, execTailldle] at h
    split at h
    · exact loadInto_next h
    · cases h
  · simp only [exec, execTailldbe] at h
    split at h
    · exact loadInto_next h
    · cases h
  · rcases execFetchblk_cases s with ⟨w, -, hs⟩ | ⟨e, -, hs⟩ <;> cases hs.symm.trans h
    exact ⟨_, _, rfl⟩

/-- The tail words meet lanes `a` and `b` only (42_tail R90). -/
theorem tailAbsorb_frame (cfg : Config) (l : Lanes) (vs : List Word) :
    (tailAbsorb cfg l vs).c = l.c ∧ (tailAbsorb cfg l vs).d = l.d ∧ (tailAbsorb cfg l vs).e = l.e := by
  induction vs generalizing l with
  | nil => exact ⟨rfl, rfl, rfl⟩
  | cons v vs ih =>
    rw [tailAbsorb]
    obtain ⟨hc, hd, he⟩ := ih _
    rw [hc, hd, he]
    split_ifs <;> exact ⟨rfl, rfl, rfl⟩

/-- Settles O46: each family's next state is a chain of updates, of which the state laws say what they leave. -/
theorem instructionsWriteOnlyTheirRegisters : Obligations.InstructionsWriteOnlyTheirRegisters := by
  intro s t
  refine ⟨fun i hi h => ?_, fun i hi h => ?_, fun i hi h => ?_, fun i hi h => ?_, fun h => ?_, fun h => ?_,
    fun h => ?_, fun i hi h => ?_, fun i a n hi h => ?_⟩
  · obtain ⟨w, hw⟩ := exec_command_eq_start hi s
    rcases start_next (hw ▸ h) with rfl | rfl <;> exact ⟨rfl, rfl, rfl, rfl, rfl⟩
  · simp only [List.mem_cons, List.not_mem_nil, or_false] at hi
    rcases hi with rfl | rfl | rfl <;> cases h <;> exact ⟨rfl, rfl, rfl, rfl, rfl, rfl⟩
  · simp only [List.mem_cons, List.not_mem_nil, or_false] at hi
    rcases hi with rfl | rfl <;> cases h <;> exact ⟨rfl, rfl, rfl, rfl⟩
  · simp only [List.mem_cons, List.not_mem_nil, or_false] at hi
    rcases hi with rfl | rfl | rfl
    · obtain ⟨w, rfl⟩ := exec_mixblock_next h; exact ⟨rfl, rfl, rfl⟩
    · obtain ⟨w, rfl⟩ := exec_crcblock_next h; exact ⟨rfl, rfl, rfl⟩
    · obtain ⟨vs, rfl⟩ := exec_tail_next h; exact ⟨rfl, rfl, rfl⟩
  · obtain ⟨w, rfl⟩ := exec_mixblock_next h; rfl
  · obtain ⟨w, rfl⟩ := exec_crcblock_next h; rfl
  · obtain ⟨vs, rfl⟩ := exec_tail_next h; exact tailAbsorb_frame s.cfg s.lanes vs
  · simp only [List.mem_cons, List.not_mem_nil, or_false] at hi
    rcases hi with rfl | rfl
    · rcases execFinal_cases h with ⟨-, rfl⟩ | ⟨-, rfl⟩ <;> exact ⟨rfl, rfl, rfl, rfl, rfl, rfl⟩
    · cases h; exact ⟨rfl, rfl, rfl, rfl, rfl, rfl⟩
  · obtain ⟨ws, as, rfl⟩ := exec_load_next hi h
    rfl

end Sys2Proof.Machine
end

section
/-! # The memory a call reads

Proofs of the statements of 20_memory: where a read stops, what it stays inside of, what a byte reads as, and that no
instruction writes memory.

## Reads of bytes that are not admitted -/

namespace Sys2Proof.Machine

/-- A byte that has no answer is not admitted (20_memory R43). -/
theorem not_readable_of_byteAt_eq_none {s : State} {a : Nat} (h : byteAt s a = none) : ¬ Readable s a 1 := by
  rw [readable_byte, h]
  decide

theorem memRead_of_not_readable {s : State} {addr n : Nat} (h : ¬ Readable s addr n) :
    ∃ e, memRead s addr n = .error e ∧ addr ≤ e ∧ e < addr + n ∧ ¬ Readable s e 1 := by
  cases hr : memRead s addr n with
  | ok bs => exact absurd (loadWord_readable (loadWord_of_memRead (be := false) hr)) h
  | error e =>
    obtain ⟨hle, hlt, hb⟩ := memRead_error hr
    exact ⟨e, rfl, hle, hlt, not_readable_of_byteAt_eq_none hb⟩

theorem fetchBlock_of_not_readable {s : State} (h : ¬ Readable s (nextAddr s) 32) :
    ∃ e, fetchBlock s = .error e ∧ nextAddr s ≤ e ∧ e < nextAddr s + 32 ∧ ¬ Readable s e 1 := by
  cases hf : fetchBlock s with
  | ok w => exact absurd (fetchBlock_readable hf) h
  | error e =>
    obtain ⟨hle, hlt, hb⟩ := fetchBlock_error hf
    exact ⟨e, rfl, hle, hlt, not_readable_of_byteAt_eq_none hb⟩

theorem fetchTail_of_not_readable {s : State} (h : ¬ Readable s (nextAddr s) (remaining s)) :
    ∃ e, fetchTail s = .error e ∧ nextAddr s ≤ e ∧ e < nextAddr s + remaining s ∧ ¬ Readable s e 1 := by
  cases hf : fetchTail s with
  | ok vs => exact absurd (fetchTail_readable hf) h
  | error e =>
    obtain ⟨hle, hlt, hb⟩ := fetchTail_error hf
    exact ⟨e, rfl, hle, hlt, not_readable_of_byteAt_eq_none hb⟩

/-! Each reading form hands on the address its fetch stops at. -/

theorem execMixblock_of_error {s : State} {e : Nat} (h : fetchBlock s = .error e) :
    execMixblock s = .fault (.readNotAdmitted e) := by simp only [execMixblock, h]

theorem execCrcblock_of_error {s : State} {e : Nat} (h : fetchBlock s = .error e) :
    execCrcblock s = .fault (.readNotAdmitted e) := by simp only [execCrcblock, h]

theorem execFetchblk_of_error {s : State} {e : Nat} (h : fetchBlock s = .error e) :
    execFetchblk s = .fault (.readNotAdmitted e) := by simp only [execFetchblk, h]

theorem execTail_of_error {s : State} {e : Nat} (h : fetchTail s = .error e) :
    execTail s = .fault (.readNotAdmitted e) := by simp only [execTail, h]

theorem loadInto_of_error {s : State} {addr n e : Nat} (h : memRead s addr n = .error e) (be : Bool) :
    loadInto s be addr n = .fault (.readNotAdmitted e) := by
  simp only [loadInto, loadWord, h, bind, Except.bind]

/-- Settles O36: the fetch, which does not depend on the byte order, names the first address that is not admitted. -/
theorem unreadableByteStopsTheRead : Obligations.UnreadableByteStopsTheRead := by
  refine fun s addr => ⟨fun h => ?_, fun h => ?_, fun h => ?_, fun n h1 h7 h => ?_⟩
  · obtain ⟨e, he, hle, hlt, hn⟩ := fetchBlock_of_not_readable h
    exact ⟨e, hn, hle, hlt, execMixblock_of_error he, execCrcblock_of_error he, execFetchblk_of_error he⟩
  · obtain ⟨e, he, hle, hlt, hn⟩ := fetchTail_of_not_readable h
    exact ⟨e, hn, hle, hlt, execTail_of_error he⟩
  · obtain ⟨e, he, hle, hlt, hn⟩ := memRead_of_not_readable h
    exact ⟨e, hn, hle, hlt, loadInto_of_error he false, loadInto_of_error he true⟩
  · obtain ⟨e, he, hle, hlt, hn⟩ := memRead_of_not_readable h
    have hcount : byteCountOk n = true := by simp [byteCountOk, h1, h7]
    exact ⟨e, hn, hle, hlt, (if_pos hcount).trans (loadInto_of_error he false),
      (if_pos hcount).trans (loadInto_of_error he true)⟩

end Sys2Proof.Machine
end

section
/-! ## A stuck call -/

namespace Sys2Proof.Machine

theorem stuck_of_block {s : State} (hp : s.phase = .block) (h : ¬ Readable s (nextAddr s) 32) : Stuck s := by
  obtain ⟨e, he, -⟩ := fetchBlock_of_not_readable h
  refine ⟨by simp [hp], e, ?_⟩
  rw [engineStep_eq, hp]
  cases hc : varCrc s.var with
  | false => exact execMixblock_of_error he
  | true => exact execCrcblock_of_error he

theorem stuck_of_tail {s : State} (hp : s.phase = .tail) (h : ¬ Readable s (nextAddr s) (remaining s)) : Stuck s := by
  obtain ⟨e, he, -⟩ := fetchTail_of_not_readable h
  refine ⟨by simp [hp], e, ?_⟩
  rw [engineStep_eq, hp]
  exact execTail_of_error he

/-- With a stuck engine the host's oldest move is the step, whoever has the turn. -/
theorem step_of_stuck {s : State} {m : HostMove} {ms : List HostMove} (h : Stuck s) (hm : s.moves = m :: ms) :
    step s = hostMove m ((afterTurn s).setMoves ms) :=
  step_of_engineDisabled hm (engineEnabled_eq_false (.inr (stuck_afterTurn h)))

/-- A write of memory does not free a stuck engine: the launch memory counts (20_memory R43; log 28). -/
theorem stuck_storeByte {s : State} (h : Stuck s) (a : Nat) (b : Byte) : Stuck (storeByte s a b) :=
  stuck_congr h (readable_storeByte h.1 a b) rfl rfl rfl rfl rfl

/-- No host move but the reset event frees a stuck engine or changes anything of its call (70_reset_and_hazards R181). -/
theorem hostMove_of_stuck {s t : State} {m : HostMove} (hs : Stuck s) (hm : m ≠ .reset) (h : hostMove m s = .next t) :
    Stuck t ∧ t.phase = s.phase ∧ t.done = s.done ∧ t.off = s.off ∧ t.lanes = s.lanes ∧ t.digest = s.digest := by
  rcases hostMove_cases h with ht | ⟨hi, -⟩ | ⟨hi, -⟩ | ⟨hr, -⟩ | ⟨a, b, -, -, rfl⟩
  · rw [ht]
    exact ⟨stuck_congr hs (fun _ _ hr => hr) rfl rfl rfl rfl rfl, rfl, rfl, rfl, rfl, rfl⟩
  · exact absurd hi hs.1
  · exact absurd hi hs.1
  · exact absurd hr hm
  · exact ⟨stuck_storeByte hs a b, rfl, rfl, rfl, rfl, rfl⟩

/-- Settles O37: a stuck engine leaves every step to the host (logs 3, 28), whose moves keep it stuck. -/
theorem stuckCallStaysStuckUntilReset : Obligations.StuckCallStaysStuckUntilReset := by
  refine ⟨fun s => ⟨stuck_of_block, stuck_of_tail⟩, fun s hs => ⟨fun m ms t hms hm h => ?_, fun ms hms => ?_, fun hms => ?_⟩⟩
  · rw [step_of_stuck hs hms] at h
    have hs' : Stuck ((afterTurn s).setMoves ms) := stuck_congr hs (fun _ _ hr => hr) rfl rfl rfl rfl rfl
    obtain ⟨hst, hp, hd, ho, hl, hdg⟩ := hostMove_of_stuck hs' hm h
    refine ⟨hst, hp, hd, ho, hl, hdg, ?_⟩
    rw [statusWord_getLsbD]
    exact (busy_iff t).mpr hst.1
  · exact ⟨resetEvent ((afterTurn s).setMoves ms), step_of_stuck hs hms, rfl, rfl⟩
  · obtain ⟨-, a, ha⟩ := stuck_afterTurn hs
    exact ⟨a, (step_of_noMoves hms).trans ha⟩

end Sys2Proof.Machine
end

section
/-! ## No instruction writes memory -/

namespace Sys2Proof.Machine

/-- Every instruction that has a command word is `START` of it (44_variants64 R110). -/
theorem exec_of_encodeCmd {i : Instr} {w : Word} (h : encodeCmd i = some w) (s : State) : exec i s = start s w := by
  cases i with
  | t1ha | t1ha64le | t1ha64be | t1ha32le | t1ha32be | t1haIa32crc | reserved _ => cases h; rfl
  | init | mixblock | crcblock | squash | csquash | tail | final | fold32 | load64le _ | load64be _ | tailldle _ _
  | tailldbe _ _ | fetchblk => cases h

/-- A micro-operation or a load writes only the block's own registers other than `VAR`, and the records of what it
requested. -/
theorem exec_frame_of_encodeCmd_eq_none {i : Instr} {s t : State} (hi : encodeCmd i = none) (h : exec i s = .next t) :
    t = { s with
      digest := t.digest, done := t.done, lanes := t.lanes, phase := t.phase, off := t.off, reads := t.reads,
      loadOut := t.loadOut, draws := t.draws } := by
  cases i with
  | t1ha | t1ha64le | t1ha64be | t1ha32le | t1ha32be | t1haIa32crc | reserved _ => cases hi
  | init | squash | csquash | fold32 => cases h; rfl
  | mixblock => obtain ⟨w, rfl⟩ := exec_mixblock_next h; rfl
  | crcblock => obtain ⟨w, rfl⟩ := exec_crcblock_next h; rfl
  | tail => obtain ⟨vs, rfl⟩ := exec_tail_next h; rfl
  | final => rcases execFinal_cases h with ⟨-, rfl⟩ | ⟨-, rfl⟩ <;> rfl
  | load64le a | load64be a => obtain ⟨ws, as, rfl⟩ := exec_load_next (a := a) (n := 0) (by simp) h; rfl
  | tailldle a n | tailldbe a n => obtain ⟨ws, as, rfl⟩ := exec_load_next (a := a) (n := n) (by simp) h; rfl
  | fetchblk => obtain ⟨ws, as, rfl⟩ := exec_load_next (a := 0) (n := 0) (by simp) h; rfl

/-- Settles O45: a command is `START`, which writes `VAR` and begins new records; every other instruction keeps these
too. -/
theorem noInstructionWritesMemoryOrOperands : Obligations.NoInstructionWritesMemoryOrOperands := by
  intro i s t h
  cases hi : encodeCmd i with
  | none =>
    rw [exec_frame_of_encodeCmd_eq_none hi h]
    exact ⟨fun _ => rfl, rfl, rfl, rfl, rfl, rfl, rfl, rfl, rfl, rfl, fun _ => ⟨rfl, rfl, rfl⟩⟩
  | some w =>
    rw [exec_of_encodeCmd hi] at h
    rcases start_next h with rfl | rfl <;>
      exact ⟨fun _ => rfl, rfl, rfl, rfl, rfl, rfl, rfl, rfl, rfl, rfl, fun hn => nomatch hn⟩

end Sys2Proof.Machine
end

section
/-! ## The read requests of a call -/

namespace Sys2Proof.Machine

/-- Only the block absorbers and `TAIL` request bytes, and they request all of theirs (20_memory R38). -/
theorem engineStep_reads {s t : State} (h : engineStep s = .next t) :
    t.reads = s.reads ∨ (s.phase = .block ∧ t.reads = s.reads ++ blockAddrs s) ∨
      (s.phase = .tail ∧ t.reads = s.reads ++ tailAddrs s) := by
  rcases engine_cases h with ⟨-, rfl⟩ | ⟨-, h⟩ | ⟨hp, -, _, -, rfl⟩ | ⟨hp, -, _, -, rfl⟩ | ⟨-, rfl⟩ | ⟨hp, _, -, rfl⟩ |
    ⟨-, h⟩ | ⟨-, h⟩
  · exact .inl rfl
  · cases h; exact .inl rfl
  · exact .inr (.inl ⟨hp, rfl⟩)
  · exact .inr (.inl ⟨hp, rfl⟩)
  · exact .inl rfl
  · exact .inr (.inr ⟨hp, rfl⟩)
  · rcases execFinal_cases h with ⟨-, rfl⟩ | ⟨-, rfl⟩ <;> exact .inl rfl
  · cases h; exact .inl rfl

/-- The engine stops in a block or the tail, at the address where the fetch stops (20_memory R43). -/
theorem engineStep_fault {s : State} {a : Nat} (h : engineStep s = .fault (.readNotAdmitted a)) :
    (s.phase = .block ∧ fetchBlock s = .error a) ∨ (s.phase = .tail ∧ fetchTail s = .error a) := by
  rw [engineStep_eq] at h
  cases hp : s.phase <;> simp only [hp] at h
  case block =>
    refine .inl ⟨rfl, ?_⟩
    cases hc : varCrc s.var <;> simp only [hc, Bool.false_eq_true, if_false, if_true] at h
    · rcases execMixblock_cases s with ⟨_, -, hs⟩ | ⟨e, he, hs⟩ <;> cases hs.symm.trans h
      exact he
    · rcases execCrcblock_cases s with ⟨_, -, hs⟩ | ⟨e, he, hs⟩ <;> cases hs.symm.trans h
      exact he
  case tail =>
    refine .inr ⟨rfl, ?_⟩
    rcases execTail_cases s with ⟨_, -, hs⟩ | ⟨e, he, hs⟩ <;> cases hs.symm.trans h
    exact he
  case squash => cases hc : varCrc s.var <;> simp only [hc] at h <;> cases h
  all_goals cases h

/-- The bytes of the next block lie in the window. -/
theorem inWindow_of_block {s : State} (hc : CallInv s) (hp : s.phase = .block) {a : Nat} (hle : nextAddr s ≤ a)
    (hlt : a < nextAddr s + 32) : InWindow s a := by
  obtain ⟨hlen, -, -⟩ := (callInv_block hp).mp hc
  unfold nextAddr at hle hlt
  exact ⟨by omega, by omega⟩

/-- The bytes of the tail lie in the window. -/
theorem inWindow_of_tail {s : State} (hc : CallInv s) (hp : s.phase = .tail) {a : Nat} (hle : nextAddr s ≤ a)
    (hlt : a < nextAddr s + remaining s) : InWindow s a := by
  obtain ⟨hlen, -, -, -⟩ := (callInv_tail hp).mp hc
  rw [remaining, BitVec.toNat_sub_of_le (Nat.le_of_lt hlen)] at hlt
  unfold nextAddr at hle hlt
  exact ⟨by omega, by omega⟩

/-- Settles O50: `OFF + 32 <= LEN` in a block and `OFF + r = LEN` in the tail bound what is requested and where a fetch
stops. -/
theorem readRequestsStayInTheWindow : Obligations.ReadRequestsStayInTheWindow := by
  refine fun s hi => ⟨fun t h => ?_, fun a h => ?_⟩
  · rcases engineStep_reads h with hr | ⟨hp, hr⟩ | ⟨hp, hr⟩
    · exact ⟨[], by simp [hr], by simp⟩
    · refine ⟨_, hr, fun a ha => ?_⟩
      obtain ⟨hle, hlt⟩ := List.mem_range'_1.mp ha
      exact inWindow_of_block hi.call hp hle hlt
    · refine ⟨_, hr, fun a ha => ?_⟩
      obtain ⟨hle, hlt⟩ := List.mem_range'_1.mp ha
      exact inWindow_of_tail hi.call hp hle hlt
  · rcases engineStep_fault h with ⟨hp, he⟩ | ⟨hp, he⟩
    · obtain ⟨hle, hlt, -⟩ := fetchBlock_error he
      exact inWindow_of_block hi.call hp hle hlt
    · obtain ⟨hle, hlt, -⟩ := fetchTail_error he
      exact inWindow_of_tail hi.call hp hle hlt

theorem phaseAfterInit_ne_idle (len : Word) : phaseAfterInit len ≠ .idle := by
  unfold phaseAfterInit; split_ifs <;> decide

theorem phaseAfterBlock_ne_idle (len off : Word) : phaseAfterBlock len off ≠ .idle := by
  unfold phaseAfterBlock; split_ifs <;> decide

theorem phaseAfterSquash_ne_idle (len off : Word) : phaseAfterSquash len off ≠ .idle := by
  unfold phaseAfterSquash; split_ifs <;> decide

/-- The step that ends a call is `FINAL` of a 64-bit command or `FOLD32`; it sets `DONE` and requests nothing. -/
theorem engineStep_completes {s t : State} (hp : s.phase ≠ .idle) (h : engineStep s = .next t) (ht : t.phase = .idle) :
    (s.phase = .final ∨ s.phase = .fold32) ∧ t.done = true ∧ t.reads = s.reads := by
  rcases engine_cases h with ⟨hi, -⟩ | ⟨-, h⟩ | ⟨-, -, _, -, rfl⟩ | ⟨-, -, _, -, rfl⟩ | ⟨-, rfl⟩ | ⟨-, _, -, rfl⟩ |
    ⟨hf, h⟩ | ⟨hf, h⟩
  · exact absurd hi hp
  · cases h; exact absurd ht (phaseAfterInit_ne_idle _)
  · exact absurd ht (phaseAfterBlock_ne_idle _ _)
  · exact absurd ht (phaseAfterBlock_ne_idle _ _)
  · exact absurd ht (phaseAfterSquash_ne_idle _ _)
  · cases ht
  · rcases execFinal_cases h with ⟨-, rfl⟩ | ⟨-, rfl⟩
    · cases ht
    · exact ⟨.inl hf, rfl, rfl⟩
  · cases h; exact ⟨.inr hf, rfl, rfl⟩

/-- Settles O51: in the phases that end a call the invariant says that exactly the window has been read, in order. -/
theorem eachByteIsReadOnceInOrder : Obligations.EachByteIsReadOnceInOrder := by
  intro s t hi hp h ht
  obtain ⟨hf, hd, hr⟩ := engineStep_completes hp h ht
  rw [hr]
  rcases hf with hf | hf
  · exact ⟨hd, ((callInv_final hf).mp hi.call).2⟩
  · exact ⟨hd, ((callInv_fold32 hf).mp hi.call).2.1⟩

end Sys2Proof.Machine
end

section
/-! ## What a read of a byte returns -/

namespace Sys2Proof.Machine

theorem pickContent_mem (draw a : Nat) (now : Byte) (others : List Byte) :
    pickContent draw a now others ∈ now :: others := by
  cases others with
  | nil => exact List.mem_singleton_self now
  | cons o os =>
    have hlt : Config.freePick draw a % (os.length + 2) < (now :: o :: os).length := Nat.mod_lt _ (by omega)
    rw [pickContent, List.getD_eq_getElem _ _ hlt]
    exact List.getElem_mem hlt

/-- An answer for a byte is one of the contents the byte has during the call (20_memory R44). -/
theorem byteAt_content {s : State} {a : Nat} {b : Byte} (h : byteAt s a = some b) :
    memByte s.mem a = some b ∨ b ∈ lostAt s.overwritten a ∨ b ∈ lostAt (laterWrites s) a := by
  unfold byteAt at h
  split at h
  · split at h
    · rename_i c hc
      cases h
      rw [hc, ← List.mem_append, Option.some_inj, eq_comm, ← List.mem_cons]
      exact pickContent_mem _ _ _ _
    · cases h
  · cases h

theorem lt_addressSpace_of_byteAt {s : State} {a : Nat} {b : Byte} (h : byteAt s a = some b) :
    a < addressSpace s.cfg := ((byteAt_isSome s a).mp (by simp [h])).1

theorem byteAt_eq_none {s : State} {a : Nat} (h : memByte s.mem a = none ∨ a ∈ s.late) : byteAt s a = none := by
  rw [← Option.not_isSome_iff_eq_none, byteAt_isSome]
  rintro ⟨-, hm, hl⟩
  rcases h with h | h
  · simp [h] at hm
  · exact hl h

end Sys2Proof.Machine
end

section
/-! ## The engine steps left to a call -/

namespace Sys2Proof.Machine

theorem stepsFromTail_zero (narrow : Bool) : stepsFromTail narrow 0 = 1 + if narrow then 1 else 0 := by
  simp [stepsFromTail]

/-- `TAIL` is a step when fewer than a block's bytes are left, and some are. -/
theorem stepsFromTail_of_pos (narrow : Bool) {r : Nat} (h0 : 0 < r) (h : r < 32) :
    stepsFromTail narrow r = 1 + stepsFromTail narrow 0 := by
  rw [stepsFromTail_zero, stepsFromTail, Nat.mod_eq_of_lt h, if_pos h0, Nat.add_assoc]

/-- A full block does not change what is left after the blocks. -/
theorem stepsFromTail_add_block (narrow : Bool) (r : Nat) : stepsFromTail narrow (r + 32) = stepsFromTail narrow r := by
  simp [stepsFromTail]

/-! `stepsLeft` in each phase. -/

theorem stepsLeft_idle {s : State} (h : s.phase = .idle) : stepsLeft s = 0 := by simp [stepsLeft, h]

theorem stepsLeft_init {s : State} (h : s.phase = .init) :
    stepsLeft s = 1 + (if 32 ≤ s.len.toNat then s.len.toNat / 32 + 1 else 0) +
      stepsFromTail (varNarrow s.var) s.len.toNat := by simp [stepsLeft, h]

theorem stepsLeft_block {s : State} (h : s.phase = .block) :
    stepsLeft s = remaining s / 32 + 1 + stepsFromTail (varNarrow s.var) (remaining s) := by simp [stepsLeft, h]

theorem stepsLeft_squash {s : State} (h : s.phase = .squash) :
    stepsLeft s = 1 + stepsFromTail (varNarrow s.var) (remaining s) := by simp [stepsLeft, h]

theorem stepsLeft_tail {s : State} (h : s.phase = .tail) :
    stepsLeft s = 1 + stepsFromTail (varNarrow s.var) 0 := by simp [stepsLeft, h]

theorem stepsLeft_final {s : State} (h : s.phase = .final) :
    stepsLeft s = stepsFromTail (varNarrow s.var) 0 := by simp [stepsLeft, h]

theorem stepsLeft_fold32 {s : State} (h : s.phase = .fold32) : stepsLeft s = 1 := by simp [stepsLeft, h]

theorem remaining_of_off_eq_zero {s : State} (h : s.off = 0) : remaining s = s.len.toNat := by simp [remaining, h]

/-! Each micro-operation takes one step off those left. -/

theorem stepsLeft_execInit {s t : State} (hp : s.phase = .init) (h : execInit s = .next t) :
    stepsLeft s = stepsLeft t + 1 := by
  cases h
  rw [stepsLeft_init hp]
  rcases phaseAfterInit_cases s.len with ⟨hq, hl⟩ | ⟨hq, h0, hl⟩ | ⟨hq, hl⟩
  · rw [stepsLeft_block hq, remaining_of_off_eq_zero rfl, if_pos hl, Nat.add_assoc, Nat.add_comm]
    rfl
  · rw [stepsLeft_tail hq, if_neg (by omega), stepsFromTail_of_pos _ h0 hl, Nat.add_comm]
    rfl
  · rw [stepsLeft_final hq, hl, Nat.add_comm]
    rfl

/-- Absorbing a block, into whatever lanes. -/
theorem stepsLeft_absorbed {s : State} (hp : s.phase = .block) (hc : CallInv s) (ws : List Word) (l : Lanes) :
    stepsLeft s = stepsLeft ((((s.loaded ws (blockAddrs s)).setLanes l).setOff (s.off + 32)).setPhase
      (phaseAfterBlock s.len (s.off + 32))) + 1 := by
  obtain ⟨hlen, -, -⟩ := (callInv_block hp).mp hc
  have hoff : (s.off + 32).toNat = s.off.toNat + 32 := by have := s.len.isLt; bv_omega
  have hsub : (s.len - (s.off + 32)).toNat = s.len.toNat - (s.off.toNat + 32) := by
    rw [BitVec.toNat_sub_of_le (show s.off + 32 ≤ s.len by rw [BitVec.le_def]; omega), hoff]
  have hrem : remaining s = (s.len - (s.off + 32)).toNat + 32 := by
    rw [remaining, hsub, BitVec.toNat_sub_of_le (show s.off ≤ s.len by rw [BitVec.le_def]; omega)]
    omega
  rw [stepsLeft_block hp, hrem, stepsFromTail_add_block]
  rcases phaseAfterBlock_cases (len := s.len) (off := s.off + 32) (by omega) with ⟨hq, -⟩ | ⟨hq, hl⟩
  · rw [stepsLeft_block hq, Nat.add_div_right _ (by decide), Nat.add_right_comm]
    rfl
  · have hlt : (s.len - (s.off + 32)).toNat < 32 := by omega
    rw [stepsLeft_squash hq, Nat.add_div_right _ (by decide), Nat.div_eq_of_lt hlt, Nat.add_right_comm]
    rfl

/-- `SQUASH` and `CSQUASH`, whatever the lanes. -/
theorem stepsLeft_squashed {s : State} (hp : s.phase = .squash) (hc : CallInv s) (l : Lanes) :
    stepsLeft s = stepsLeft ((s.setLanes l).setPhase (phaseAfterSquash s.len s.off)) + 1 := by
  obtain ⟨hle, hlt, -⟩ := (callInv_squash hp).mp hc
  have hrem : remaining s = s.len.toNat - s.off.toNat := BitVec.toNat_sub_of_le hle
  rw [stepsLeft_squash hp, hrem]
  rcases phaseAfterSquash_cases hle with ⟨hq, hl⟩ | ⟨hq, hl⟩
  · rw [stepsLeft_tail hq, stepsFromTail_of_pos _ (by omega) (by omega), Nat.add_comm]
    rfl
  · rw [stepsLeft_final hq, hl, Nat.sub_self, Nat.add_comm]
    rfl

theorem stepsLeft_execFinal {s t : State} (hp : s.phase = .final) (h : execFinal s = .next t) :
    stepsLeft s = stepsLeft t + 1 := by
  rw [stepsLeft_final hp, stepsFromTail_zero]
  rcases execFinal_cases h with ⟨hn, rfl⟩ | ⟨hn, rfl⟩
  · rw [stepsLeft_fold32 rfl, if_pos hn]
  · rw [stepsLeft_idle rfl, hn]
    rfl

/-- In a call that meets the invariant the engine's step is one of those left (44_variants64 R118). -/
theorem stepsLeft_engineStep {s t : State} (hc : CallInv s) (hp : s.phase ≠ .idle) (h : engineStep s = .next t) :
    stepsLeft s = stepsLeft t + 1 := by
  rcases engine_cases h with ⟨hi, -⟩ | ⟨hp, h⟩ | ⟨hp, -, _, -, rfl⟩ | ⟨hp, -, _, -, rfl⟩ | ⟨hp, rfl⟩ |
    ⟨hp, _, -, rfl⟩ | ⟨hp, h⟩ | ⟨hp, h⟩
  · exact absurd hi hp
  · exact stepsLeft_execInit hp h
  · exact stepsLeft_absorbed hp hc _ _
  · exact stepsLeft_absorbed hp hc _ _
  · exact stepsLeft_squashed hp hc _
  · rw [stepsLeft_tail hp, stepsLeft_final rfl, Nat.add_comm]
    rfl
  · exact stepsLeft_execFinal hp h
  · cases h
    rw [stepsLeft_fold32 hp, stepsLeft_idle rfl]

end Sys2Proof.Machine
end

section
/-! ## The writes still to come in a call -/

namespace Sys2Proof.Machine

/-- The engine's turn is one of the steps up to which the host's turns count. -/
theorem hostTurns_of_engineTurn {sc : List Agent} (h : sc.headD .engine = .engine) (k : Nat) :
    hostTurns (k + 1) sc = hostTurns k sc.tail := by
  cases sc with
  | nil => rfl
  | cons a sc => cases h; rfl

theorem writesWithin_of_noMoves {s : State} (h : s.moves = []) (k : Nat) : writesWithin s k = [] := by
  simp [writesWithin, h, storesOf]

/-- The engine writes nothing of the host's. -/
theorem engineStep_hostSide {s t : State} (h : engineStep s = .next t) :
    t.cfg = s.cfg ∧ t.moves = s.moves ∧ t.sched = s.sched := by
  rcases engineStep_changes h with ht | ⟨-, h⟩ | ⟨-, h⟩
  · rw [ht]; exact ⟨rfl, rfl, rfl⟩
  · rcases execFinal_cases h with ⟨-, rfl⟩ | ⟨-, rfl⟩ <;> exact ⟨rfl, rfl, rfl⟩
  · cases h; exact ⟨rfl, rfl, rfl⟩

theorem writesWithin_engineStep {s t : State} (h : engineStep s = .next t) (k : Nat) :
    writesWithin t k = writesWithin s k := by
  obtain ⟨hcfg, hmoves, hsched⟩ := engineStep_hostSide h
  rw [writesWithin, hcfg, hmoves, hsched, writesWithin]

/-- The engine's step reads with the writes that come after it (20_memory R44; log 34). -/
theorem laterWrites_engineStep {s t : State} (hc : CallInv s) (hp : s.phase ≠ .idle) (h : engineStep s = .next t) :
    laterWrites s = writesWithin t (stepsLeft t) := by
  rw [writesWithin_engineStep h, laterWrites, stepsLeft_engineStep hc hp h, Nat.add_sub_cancel]

/-- The engine's step, when it has the turn, leaves the writes to come. -/
theorem writesWithin_engineTurn {s t : State} (hc : CallInv s) (hp : s.phase ≠ .idle) (ht : turn s = .engine)
    (h : engineStep (afterTurn s) = .next t) : writesWithin s (stepsLeft s) = writesWithin t (stepsLeft t) := by
  have hsteps : stepsLeft s = stepsLeft t + 1 := stepsLeft_engineStep (s := afterTurn s) hc hp h
  rw [writesWithin_engineStep h, writesWithin, hsteps, hostTurns_of_engineTurn ht]
  rfl

/-! A host access that answers is one of 64 bits to a register there is. -/

theorem regOfNumber_le {n : Nat} {r : HostReg} (h : regOfNumber n = some r) : n ≤ 5 := by
  by_contra hn
  rw [regOfNumber_of_gt (by omega)] at h
  cases h

theorem hostMove_write_next {s t : State} {n bits : Nat} {v : Word} (h : hostMove (.write n bits v) s = .next t) :
    (bits = 64 ∧ n ≤ 5) ∧ ∃ r, hostWrite r v s = .next t := by
  simp only [hostMove] at h
  split at h
  · cases h
  · split at h
    · cases h
    · exact ⟨⟨by simpa using ‹¬ bits ≠ 64›, regOfNumber_le ‹_›⟩, _, h⟩

theorem hostMove_read_next {s t : State} {n bits : Nat} (h : hostMove (.read n bits) s = .next t) :
    (bits = 64 ∧ n ≤ 5) ∧ ∃ r, t = hostRead r s := by
  simp only [hostMove] at h
  split at h
  · cases h
  · split at h
    · cases h
    · cases h
      exact ⟨⟨by simpa using ‹¬ bits ≠ 64›, regOfNumber_le ‹_›⟩, _, rfl⟩

/-- A host read is seen in the replies and the counter of free values only. -/
theorem hostRead_frame (r : HostReg) (s : State) :
    hostRead r s = { s with replies := (hostRead r s).replies, draws := (hostRead r s).draws } := by
  cases r with
  | digest => simp only [hostRead]; split <;> rfl
  | _ => rfl

/-- A host move during a call takes the write it is, if it is one, off the writes to come. -/
theorem storesOf_hostMove {s t : State} {m : HostMove} (hp : s.phase ≠ .idle) (hd : s.done = false)
    (h : hostMove m s = .next t) :
    storesOf s.cfg (m :: s.moves.take (hostTurns (stepsLeft s) s.sched)) =
      storesOf s.cfg [m] ++ writesWithin t (stepsLeft t) := by
  cases m with
  | write n bits v =>
    obtain ⟨hok, r, hr⟩ := hostMove_write_next h
    rw [hostWrite_of_busy hp] at hr
    cases hr
    simp only [storesOf, if_pos hok]
    rfl
  | read n bits =>
    obtain ⟨hok, r, rfl⟩ := hostMove_read_next h
    rw [hostRead_frame]
    simp only [storesOf, if_pos hok]
    rfl
  | wait =>
    cases h
    have hnone : ∀ k, storesOf s.cfg ((HostMove.wait :: s.moves).take k) = [] := fun k => by cases k <;> rfl
    rw [hd]
    exact (hnone _).symm
  | reset =>
    cases h
    rw [stepsLeft_idle (resetEvent_phase s), writesWithin_zero]
    rfl
  | store a b =>
    by_cases ha : a < addressSpace s.cfg
    · cases (hostMove_store ha b).symm.trans h
      simp only [storesOf, if_pos ha]
      rfl
    · rw [hostMove, if_neg ha] at h
      cases h

theorem stepsLeft_pos {s : State} (h : s.phase ≠ .idle) : 0 < stepsLeft s := by
  unfold stepsLeft stepsFromTail
  split
  · exact absurd ‹_› h
  all_goals omega

/-- The host's turn in a call is the first of those before the call ends. -/
theorem writesWithin_hostTurn {s t : State} {m : HostMove} {ms : List HostMove} (hp : s.phase ≠ .idle)
    (hd : s.done = false) (hm : s.moves = m :: ms) (ht : turn s = .host)
    (h : hostMove m ((afterTurn s).setMoves ms) = .next t) :
    writesWithin s (stepsLeft s) = storesOf s.cfg [m] ++ writesWithin t (stepsLeft t) := by
  obtain ⟨sc, hsc⟩ : ∃ sc, s.sched = .host :: sc := List.head?_eq_some_iff.mp ((turn_iff s).mp ht)
  have hturns : hostTurns (stepsLeft s) s.sched = hostTurns (stepsLeft s) s.sched.tail + 1 := by
    rw [hsc, hostTurns, if_neg (stepsLeft_pos hp).ne']
    rfl
  rw [writesWithin, hturns, hm, List.take_succ_cons]
  exact storesOf_hostMove (s := (afterTurn s).setMoves ms) hp hd h

/-- Every step of a call that is not stuck leaves the writes to come, but for the one at hand in a host's turn
(20_memory R44; logs 8, 34). -/
theorem writesWithin_step {s t : State} (hi : Inv s) (hp : s.phase ≠ .idle) (hs : ¬ Stuck s) (h : step s = .next t) :
    writesWithin s (stepsLeft s) =
      (if turn s = .host then storesOf s.cfg (s.moves.take 1) else []) ++ writesWithin t (stepsLeft t) := by
  have hd : s.done = false := Bool.eq_false_iff.mpr fun hd => hp (hi.done hd)
  rcases step_cases s with ⟨hm, hst⟩ | ⟨m, ms, -, ht, -, hst⟩ | ⟨m, ms, hm, ht, hst⟩ <;> rw [hst] at h
  · have htm : t.moves = [] := (engineStep_hostSide h).2.1.trans hm
    rw [writesWithin_of_noMoves hm, writesWithin_of_noMoves htm, hm]
    simp [storesOf]
  · rw [if_neg (by simp [ht])]
    exact writesWithin_engineTurn hi.call hp ht h
  · rcases ht with ht | he
    · rw [if_pos ht, hm]
      exact writesWithin_hostTurn hp hd hm ht h
    · have hs' : Stuck (afterTurn s) := by
        rw [stuck_iff]
        exact ⟨hp, fun hn => by rw [(engineEnabled_iff (afterTurn s)).mpr ⟨hp, hn⟩] at he; cases he⟩
      exact (hs (stuck_congr hs' (fun _ _ hr => hr) rfl rfl rfl rfl rfl)).elim

/-- Settles O38: what a read draws from (logs 6, 28, 34, 35), and the writes to come over the steps of a call. -/
theorem readsReturnAContentHeldDuringTheCall : Obligations.ReadsReturnAContentHeldDuringTheCall := by
  refine ⟨fun s a b h => ⟨lt_addressSpace_of_byteAt h, byteAt_content h⟩, fun s a b ha ho hw hl => ?_,
    fun s addr B h => memRead_of_holds h, fun s a h => byteAt_eq_none h, fun s w a => ⟨rfl, List.not_mem_nil⟩,
    fun s t hi hp hs h => writesWithin_step hi hp hs h, fun s t hi hp h => laterWrites_engineStep hi.call hp h,
    fun s hp => ⟨?_, laterWrites_of_idle hp⟩⟩
  · rw [byteAt_of_unwritten ho hw hl ha]
  · rw [stepsLeft_idle hp, writesWithin_zero]

end Sys2Proof.Machine
end

section
/-! # The two encodings

Proofs of the statements of 30_encoding: command words and selectors, what they decode to, and the host program `CALL`.

## Command words -/

namespace Sys2Proof.Machine

/-- The list of reserved words by fields and the one by numbers are the same (30_encoding R50, R54). -/
theorem cmdReserved_eq_reservedOk (hc : Bool) (w : Word) : cmdReserved hc w = reservedOk hc w := by
  rw [Bool.eq_iff_iff, ← not_iff_not, Bool.not_eq_true, Bool.not_eq_true,
    ← legalCommand_iff { Config.default with hasCrc32c := hc }]
  cases hc <;> simp [LegalCommand, reservedOk] <;> bv_omega

/-- A command's word decodes to it, that of `T1HA_64LE` to `T1HA` (30_encoding R52, R53). -/
theorem decodeCmd_of_encodeCmd {hc : Bool} {i : Instr} {w : Word} (hi : i.wf hc = true) (h : encodeCmd i = some w) :
    decodeCmd hc w = canonical i := by
  cases i with
  | t1ha | t1ha64le | t1ha64be | t1ha32le | t1ha32be => cases h; cases hc <;> rfl
  | t1haIa32crc => cases h; cases (show hc = true from hi); rfl
  | reserved v =>
    cases h
    rw [decodeCmd, cmdReserved_eq_reservedOk]
    exact if_pos hi
  | init | mixblock | crcblock | squash | csquash | tail | final | fold32 | load64le _ | load64be _ | tailldle _ _
  | tailldbe _ _ | fetchblk => cases h

/-- Every 64-bit word is the encoding of what it decodes to, which the block has (30_encoding R52, R54). -/
theorem encodeCmd_decodeCmd (hc : Bool) (w : Word) :
    encodeCmd (decodeCmd hc w) = some w ∧ (decodeCmd hc w).wf hc = true := by
  cases hr : cmdReserved hc w with
  | true =>
    rw [decodeCmd, if_pos hr]
    exact ⟨rfl, (cmdReserved_eq_reservedOk hc w).symm.trans hr⟩
  | false =>
    rcases not_reserved_cases hr with rfl | rfl | rfl | rfl | ⟨rfl, rfl⟩
    case inr.inr.inr.inr => exact ⟨rfl, rfl⟩
    all_goals cases hc <;> exact ⟨rfl, rfl⟩

/-- A word decodes to an instruction other than `T1HA_64LE` exactly when it is its encoding and the block has it. -/
theorem decodeCmd_eq_iff {i : Instr} (hi : i ≠ .t1ha64le) (hc : Bool) (w : Word) :
    decodeCmd hc w = i ↔ encodeCmd i = some w ∧ i.wf hc = true := by
  constructor
  · rintro rfl
    exact encodeCmd_decodeCmd hc w
  · rintro ⟨he, hw⟩
    rw [decodeCmd_of_encodeCmd hw he, canonical, if_neg hi]

/-- Settles O12: a row's mask takes the whole word, so that meeting it is being the row's word. -/
theorem commandSetIsTheTable : Obligations.CommandSetIsTheTable := by
  intro hc w
  have hmask : w &&& 0xFFFFFFFFFFFFFFFF = w := BitVec.and_allOnes
  rw [hmask]
  have hrow : ∀ {i : Instr} {v : Word}, i ≠ .t1ha64le → encodeCmd i = some v →
      (decodeCmd hc w = i ↔ w = v ∧ i.wf hc = true) := fun hi hv => by
    rw [decodeCmd_eq_iff hi, hv, Option.some_inj, eq_comm]
  refine ⟨(hrow ?_ rfl).trans (and_iff_left rfl), (hrow ?_ rfl).trans (and_iff_left rfl),
    (hrow ?_ rfl).trans (and_iff_left rfl), (hrow ?_ rfl).trans (and_iff_left rfl), hrow ?_ rfl⟩ <;> decide

/-! ### Reserved words -/

theorem decodeCmd_eq_reserved_iff (hc : Bool) (w : Word) : decodeCmd hc w = .reserved w ↔ cmdReserved hc w = true := by
  rw [decodeCmd_eq_iff (by simp), cmdReserved_eq_reservedOk]
  exact and_iff_right rfl

/-- With `ZERO` clear, `OP` 100 is the word 4. -/
theorem cmdOp_eq_four_iff {w : Word} (h : cmdZero w = 0) : cmdOp w = 0b100 ↔ w = 4 := by
  constructor
  · intro h4
    have hr : cmdReserved true w = false := by simp [cmdReserved, h, h4]
    rw [word_of_not_reserved hr, h4]
    rfl
  · rintro rfl; rfl

/-- A reserved word starts nothing, idle or busy (30_encoding R54). -/
theorem start_of_reserved {s : State} {w : Word} (h : cmdReserved s.cfg.hasCrc32c w = true) : start s w = .next s := by
  rcases start_cases s w with ⟨hs, -⟩ | ⟨-, -, hn⟩
  · exact hs
  · rw [h] at hn; cases hn

/-- Settles O13: the decoder's list is the rule's, and `START` of a word on it changes nothing (log 4). -/
theorem reservedWordsChangeNothing : Obligations.ReservedWordsChangeNothing := by
  refine ⟨fun hc w => ?_, fun s w h => ?_⟩
  · rw [decodeCmd_eq_reserved_iff]
    change _ ↔ cmdZero w ≠ 0 ∨ cmdOp w = 0b101 ∨ cmdOp w = 0b110 ∨ cmdOp w = 0b111 ∨ (w = 4 ∧ hc = false)
    by_cases hz : cmdZero w = 0
    · rw [← cmdOp_eq_four_iff hz]
      simp [cmdReserved, hz, or_assoc]
    · exact iff_of_true (by simp only [cmdReserved, decide_eq_true hz, Bool.true_or]) (.inl hz)
  · have hs : start s w = .next s := start_of_reserved ((decodeCmd_eq_reserved_iff _ w).mp h)
    exact ⟨hs, (hostMove_write_cmd s w).trans hs⟩

/-- Settles O15: both mnemonics have the word 0, and each is `START` of it. -/
theorem aliasIsTheSameCommand : Obligations.AliasIsTheSameCommand :=
  ⟨rfl, rfl, fun _ => decodeCmd_of_encodeCmd (i := .t1ha) rfl rfl, rfl, fun _ => rfl⟩

end Sys2Proof.Machine
end

section
/-! ## Selectors -/

namespace Sys2Proof.Machine

/-- A selector is the `CRC` bit before a phase code (30_encoding R58). -/
theorem usel_eq_append (u : BitVec 4) : u = BitVec.ofBool (u.getLsbD 3) ++ u.extractLsb' 0 3 := by
  revert u; decide

/-- A micro-operation's pattern selects it, with either `CRC` bit it has (30_encoding R58). -/
theorem decodeUsel_of_encodeUsel {x : Bool} {i : Instr} {u : BitVec 4} (h : encodeUsel x i = some u) :
    decodeUsel u = .ok i := by
  cases i with
  | init | mixblock | crcblock | squash | csquash | tail | final | fold32 => cases x <;> cases h <;> rfl
  | t1ha | t1ha64le | t1ha64be | t1ha32le | t1ha32be | t1haIa32crc | load64le _ | load64be _ | tailldle _ _
  | tailldbe _ _ | fetchblk | reserved _ => cases h

/-- A selector that selects something is the pattern of what it selects. -/
theorem encodeUsel_of_decodeUsel {u : BitVec 4} {i : Instr} (h : decodeUsel u = .ok i) :
    encodeUsel (u.getLsbD 3) i = some u := by
  rw [usel_eq_append u] at h ⊢
  generalize u.getLsbD 3 = x at h ⊢
  generalize u.extractLsb' 0 3 = p at h ⊢
  rcases opcode_cases p with rfl | rfl | rfl | rfl | rfl | rfl | rfl | rfl <;> cases x <;> cases h <;> rfl

/-- An instruction has a command word or a selector, unless it is a load. -/
theorem load_of_no_encoding {i : Instr} (hc : encodeCmd i = none) (hu : ∀ x, encodeUsel x i = none) :
    i = .fetchblk ∨ (∃ a, i = .load64le a ∨ i = .load64be a) ∨ ∃ a n, i = .tailldle a n ∨ i = .tailldbe a n := by
  cases i with
  | t1ha | t1ha64le | t1ha64be | t1ha32le | t1ha32be | t1haIa32crc | reserved _ => cases hc
  | init | mixblock | squash | tail | final | fold32 => cases hu false
  | crcblock | csquash => cases hu true
  | fetchblk | load64le _ | load64be _ | tailldle _ _ | tailldbe _ _ => simp

/-- Settles O14: the two encodings one at a time, each in both directions. -/
theorem decodeEncodeAgree : Obligations.DecodeEncodeAgree :=
  ⟨fun _ _ hi => ⟨fun _ h => decodeCmd_of_encodeCmd hi h, fun _ _ h => decodeUsel_of_encodeUsel h, load_of_no_encoding⟩,
    encodeCmd_decodeCmd, fun _ _ h => encodeUsel_of_decodeUsel h⟩

/-- Settles O16: each row of the table by evaluation (log 18 for the numbering of rows). -/
theorem encodingsOfTheSpecDecode : Obligations.EncodingsOfTheSpecDecode := by
  unfold Obligations.EncodingsOfTheSpecDecode
  decide

/-- Settles O17: for either `CRC` bit and each phase code. -/
theorem selectorTableIsComplete : Obligations.SelectorTableIsComplete := by
  refine ⟨fun x => ?_, rfl, rfl, rfl, rfl, fun s => rfl⟩
  cases x <;> exact ⟨rfl, rfl, rfl, rfl, rfl, rfl⟩

end Sys2Proof.Machine
end

section
/-! ## What the encodings run -/

namespace Sys2Proof.Machine

/-- Settles O20: the host's move is the write, which is `exec` of what the word decodes to. -/
theorem stepRunsTheWrittenCommand : Obligations.StepRunsTheWrittenCommand := by
  intro s w ms sc hm hs
  refine ⟨(encodeCmd_decodeCmd _ w).2, ?_⟩
  have ht : turn s = .host := (turn_iff s).mpr (by rw [hs]; rfl)
  rw [step_of_hostTurn hm ht, hostMove_write (r := .cmd) rfl, hostWrite, afterTurn, hs]
  rfl

/-- An idle engine's selector selects nothing (30_encoding R58). -/
theorem phase_ne_idle_of_decodeUsel {s : State} {i : Instr} (h : decodeUsel (usel s) = .ok i) : s.phase ≠ .idle := by
  intro hp
  rw [usel, hp] at h
  cases hc : varCrc s.var <;> rw [hc] at h <;> cases h

theorem engineStep_of_decodeUsel {s : State} {i : Instr} (h : decodeUsel (usel s) = .ok i) :
    engineStep s = exec i s := by
  simp only [engineStep, h]

/-- Settles O21: the engine, having the turn, takes its step or is the only one that can move. -/
theorem stepRunsTheSelectedMicroOperation : Obligations.StepRunsTheSelectedMicroOperation := by
  intro s i ht h
  have he : engineStep (afterTurn s) = exec i (afterTurn s) := engineStep_of_decodeUsel h
  exact ⟨fun t hx => step_of_engineTurn (mt (turn_iff s).mp ht) (phase_ne_idle_of_decodeUsel h) (he.trans hx),
    fun hm => (step_of_noMoves hm).trans he⟩

/-- Settles O8: the poll is a read of `STATUS`, which stays pending while it reads `DONE` as 0 (log 24). -/
theorem waitPollsStatusUntilDone : Obligations.WaitPollsStatusUntilDone := by
  refine fun s => ⟨fun hd => ?_, fun hd => ?_⟩
  · rw [hostMove, if_pos hd]; rfl
  · rw [hostMove, if_neg (by simp [hd])]; rfl

end Sys2Proof.Machine
end

section
/-! ## The loads of a call whose buffer memory holds -/

namespace Sys2Proof.Machine

/-- A part of the bytes memory holds reads as that part (20_memory R32). -/
theorem memRead_part_of_holds {s : State} {addr k m : Nat} {B : List Byte} (h : HoldsBytes s addr B)
    (hkm : k + m ≤ B.length) : memRead s (addr + k) m = .ok ((B.drop k).take m) := by
  refine (memRead_ok_iff ..).mpr ⟨by simp; omega, fun i hi => ?_⟩
  obtain ⟨haddr, hmem⟩ := h.1 (k + i) (by omega)
  obtain ⟨hold, hnew, hlate⟩ := h.2 (k + i) (by omega)
  rw [Nat.add_assoc, byteAt_of_unwritten hold hnew hlate haddr, hmem, List.getElem?_take_of_lt hi, List.getElem?_drop]

/-- A load of the up to 8 bytes from `B[k]` on is that word of the buffer (44_variants64 R116). -/
theorem loadWord_of_holds {s : State} {addr k m : Nat} {B : List Byte} (h : HoldsBytes s addr B) (be : Bool)
    (hk : k ≤ B.length) (hm : m = min 8 (B.length - k)) : loadWord s be (addr + k) m = .ok (bufferWord be B k) := by
  have htake : (B.drop k).take m = (B.drop k).take 8 := by
    rw [List.take_eq_take_iff, List.length_drop]; omega
  rw [loadWord_of_memRead (memRead_part_of_holds h (by omega)), htake, bufferWord]

/-- The block fetch at `B[32*j]` is full block `j` of the buffer (40_load R74, 44_variants64 R116). -/
theorem fetchBlock_of_holds {s : State} {B : List Byte} {j : Nat} (h : HoldsBytes s s.ptr.toNat B)
    (hoff : s.off.toNat = 32 * j) (hj : 32 * j + 32 ≤ B.length) :
    fetchBlock s = .ok (bufferBlock (varBe s.var) B j) := by
  have hload : ∀ k, k + 8 ≤ B.length →
      loadWord s (varBe s.var) (s.ptr.toNat + k) 8 = .ok (bufferWord (varBe s.var) B k) :=
    fun k hk => loadWord_of_holds h _ (by omega) (by omega)
  simp only [fetchBlock, nextAddr, hoff, Nat.add_assoc, hload (32 * j) (by omega), hload (32 * j + 8) (by omega),
    hload (32 * j + 16) (by omega), hload (32 * j + 24) (by omega)]
  rfl

/-- The `k` tail loads from `B[p]` on are the words of the buffer there (42_tail R90). -/
theorem tailWords_of_holds {s : State} {addr r : Nat} {B : List Byte} (h : HoldsBytes s addr B) (be : Bool) {k p : Nat}
    (hk : k = ceil8 (B.length - p)) (hr : 0 < k → r % 8 = (B.length - p) % 8) :
    tailWords s be r k (addr + p) = .ok ((List.range k).map fun i => bufferWord be B (p + 8 * i)) := by
  induction k generalizing p with
  | zero => rfl
  | succ k ih =>
    unfold ceil8 at hk ih
    have hr := hr k.succ_pos
    have hcount : (if 0 < k ∨ r % 8 = 0 then 8 else r % 8) = min 8 (B.length - p) := by split <;> omega
    have hrest : tailWords s be r k (addr + (p + 8)) = .ok ((List.range k).map fun i => bufferWord be B (p + 8 + 8 * i)) :=
      ih (by omega) (by omega)
    have hword : ∀ i, p + 8 * i.succ = p + 8 + 8 * i := by omega
    rw [tailWords, loadWord_of_holds h be (by omega) hcount, Nat.add_assoc, hrest, List.range_succ_eq_map, List.map_cons,
      List.map_map, Function.comp_def]
    simp only [hword]
    rfl

/-- The loads of `TAIL` are the tail of the buffer (42_tail R90). -/
theorem fetchTail_of_holds {s : State} {B : List Byte} (h : HoldsBytes s s.ptr.toNat B)
    (hoff : s.off.toNat = 32 * (B.length / 32)) (hrem : remaining s = B.length % 32) :
    fetchTail s = .ok (bufferTail (varBe s.var) B) := by
  rw [fetchTail, nextAddr, hoff, hrem]
  exact tailWords_of_holds h _ (by congr 1; omega) (by omega)

/-- The buffer of the call is in memory and is not written: it was not since `START`, and no pending move does
(70_reset_and_hazards R183 P4, P5). -/
structure BufferHeld (s : State) (B : List Byte) : Prop where
  length : B.length = s.len.toNat
  bytes : ∀ i, i < B.length → s.ptr.toNat + i < addressSpace s.cfg ∧ memByte s.mem (s.ptr.toNat + i) = B[i]?
  past : ∀ i, i < B.length → lostAt s.overwritten (s.ptr.toNat + i) = [] ∧ s.ptr.toNat + i ∉ s.late
  coming : ∀ i, i < B.length → ∀ b, HostMove.store (s.ptr.toNat + i) b ∉ s.moves

theorem BufferHeld.holdsBytes {s : State} {B : List Byte} (h : BufferHeld s B) : HoldsBytes s s.ptr.toNat B :=
  ⟨h.bytes, fun i hi => ⟨(h.past i hi).1, lostAt_laterWrites_eq_nil (h.coming i hi), (h.past i hi).2⟩⟩

theorem fetchBlock_of_bufferHeld {s : State} {B : List Byte} (hb : BufferHeld s B) (hc : CallInv s)
    (hp : s.phase = .block) : fetchBlock s = .ok (bufferBlock (varBe s.var) B (s.off.toNat / 32)) := by
  obtain ⟨hlen, hoff, -⟩ := (callInv_block hp).mp hc
  have hl := hb.length
  exact fetchBlock_of_holds hb.holdsBytes (by omega) (by omega)

theorem fetchTail_of_bufferHeld {s : State} {B : List Byte} (hb : BufferHeld s B) (hc : CallInv s)
    (hp : s.phase = .tail) : fetchTail s = .ok (bufferTail (varBe s.var) B) := by
  obtain ⟨hlt, hlen, hoff, -⟩ := (callInv_tail hp).mp hc
  have hl := hb.length
  refine fetchTail_of_holds hb.holdsBytes (by omega) ?_
  rw [remaining, BitVec.toNat_sub_of_le (Nat.le_of_lt hlt)]
  omega

/-- A call whose buffer memory holds is never stuck (20_memory R43). -/
theorem engineStep_of_bufferHeld {s : State} {B : List Byte} (hb : BufferHeld s B) (hc : CallInv s) :
    ∃ t, engineStep s = .next t := by
  refine (engineStep_outcome s).resolve_right ?_
  rintro ⟨e, he⟩
  rcases engineStep_fault he with ⟨hp, hf⟩ | ⟨hp, hf⟩
  · cases (fetchBlock_of_bufferHeld hb hc hp).symm.trans hf
  · cases (fetchTail_of_bufferHeld hb hc hp).symm.trans hf

/-- The state with all that the engine writes blanked out (10_state R16 to R20, 20_memory R39). -/
def engineFrame (s : State) : State :=
  { s with
    lanes := ⟨0, 0, 0, 0, 0⟩, digest := 0, done := false, phase := .idle, off := 0, reads := [], loadOut := []
    draws := 0 }

theorem engineFrame_engineStep {s t : State} (h : engineStep s = .next t) : engineFrame t = engineFrame s := by
  rcases engineStep_changes h with ht | ⟨-, h⟩ | ⟨-, h⟩
  · rw [ht]; rfl
  · rcases execFinal_cases h with ⟨-, rfl⟩ | ⟨-, rfl⟩ <;> rfl
  · cases h; rfl

/-- States with the same frame agree on the configuration, the operands, `VAR`, memory and the host's side. -/
theorem eq_of_engineFrame_eq {s t : State} (h : engineFrame t = engineFrame s) :
    t.cfg = s.cfg ∧ t.len = s.len ∧ t.var = s.var ∧ t.mem = s.mem ∧ t.moves = s.moves ∧ t.sched = s.sched ∧
      t.replies = s.replies := by
  simp only [engineFrame, State.mk.injEq] at h
  simp [h]

theorem bufferHeld_engineFrame {s : State} {B : List Byte} : BufferHeld (engineFrame s) B ↔ BufferHeld s B :=
  ⟨fun h => ⟨h.length, h.bytes, h.past, h.coming⟩, fun h => ⟨h.length, h.bytes, h.past, h.coming⟩⟩

theorem bufferHeld_engineStep {s t : State} {B : List Byte} (hb : BufferHeld s B) (h : engineStep s = .next t) :
    BufferHeld t B := by
  rw [← bufferHeld_engineFrame, engineFrame_engineStep h]
  exact bufferHeld_engineFrame.mpr hb

end Sys2Proof.Machine
end

section
/-! ## The digest a call is going to give -/

namespace Sys2Proof.Machine

/-- The block formulas of the two absorbers (41_mix R84, 46_crc32 R143). -/
def absorber (cfg : Config) (crc : Bool) : Lanes → Block → Lanes := if crc then crcBlock cfg else mixBlock cfg

/-- The squash of the two absorbers (41_mix R85, 46_crc32 R144). -/
def squasher (cfg : Config) (crc : Bool) : Lanes → Lanes := if crc then csquashLanes cfg else squashLanes cfg

/-- The lanes after the full blocks from `j` on. -/
def absorbFrom (absorb : Lanes → Block → Lanes) (be : Bool) (B : List Byte) (j : Nat) (l : Lanes) : Lanes :=
  (List.range' j (B.length / 32 - j)).foldl (fun l j => absorb l (bufferBlock be B j)) l

theorem absorbFrom_zero (absorb : Lanes → Block → Lanes) (be : Bool) (B : List Byte) (l : Lanes) :
    absorbFrom absorb be B 0 l = absorbBlocks absorb be B l := by
  rw [absorbFrom, absorbBlocks, List.range_eq_range', Nat.sub_zero]

theorem absorbFrom_of_lt (absorb : Lanes → Block → Lanes) (be : Bool) {B : List Byte} {j : Nat} (h : j < B.length / 32)
    (l : Lanes) : absorbFrom absorb be B j l = absorbFrom absorb be B (j + 1) (absorb l (bufferBlock be B j)) := by
  obtain ⟨k, hk⟩ : ∃ k, B.length / 32 - j = k + 1 := ⟨B.length / 32 - (j + 1), by omega⟩
  have hk' : B.length / 32 - (j + 1) = k := by omega
  rw [absorbFrom, hk, List.range'_succ, List.foldl_cons, absorbFrom, hk']

theorem absorbFrom_of_le (absorb : Lanes → Block → Lanes) (be : Bool) {B : List Byte} {j : Nat} (h : B.length / 32 ≤ j)
    (l : Lanes) : absorbFrom absorb be B j l = l := by
  rw [absorbFrom, Nat.sub_eq_zero_of_le h]; rfl

/-- The lanes `FINAL` will find, from the phase, the lanes and `OFF` of a call on the buffer `B` (44_variants64 R116,
46_crc32 R147). -/
def lanesAhead (s : State) (B : List Byte) : Lanes :=
  let absorb := absorbFrom (absorber s.cfg (varCrc s.var)) (varBe s.var) B
  let squash := squasher s.cfg (varCrc s.var)
  let tail := fun l => tailAbsorb s.cfg l (bufferTail (varBe s.var) B)
  match s.phase with
  | .idle => s.lanes
  | .init =>
    let l := absorb 0 (if varCrc s.var then initLanesCrc s.len s.seed else initLanes s.cfg s.len s.seed)
    tail (if 1 ≤ B.length / 32 then squash l else l)
  | .block => tail (squash (absorb (s.off.toNat / 32) s.lanes))
  | .squash => tail (squash s.lanes)
  | .tail => tail s.lanes
  | .final => s.lanes
  | .fold32 => s.lanes

theorem bufferTail_eq_nil (be : Bool) {B : List Byte} (h : B.length % 32 = 0) : bufferTail be B = [] := by
  rw [bufferTail, h]; rfl

section LanesAhead

variable {s t : State} {B : List Byte}

/-! `lanesAhead` in each phase. -/

theorem lanesAhead_init_of_blocks (hp : s.phase = .init) (hn : 1 ≤ B.length / 32) :
    lanesAhead s B = tailAbsorb s.cfg (squasher s.cfg (varCrc s.var)
      (absorbFrom (absorber s.cfg (varCrc s.var)) (varBe s.var) B 0
        (if varCrc s.var then initLanesCrc s.len s.seed else initLanes s.cfg s.len s.seed)))
      (bufferTail (varBe s.var) B) := by simp [lanesAhead, hp, hn]

theorem lanesAhead_init_of_no_blocks (hp : s.phase = .init) (hn : B.length / 32 = 0) :
    lanesAhead s B = tailAbsorb s.cfg
      (if varCrc s.var then initLanesCrc s.len s.seed else initLanes s.cfg s.len s.seed)
      (bufferTail (varBe s.var) B) := by simp [lanesAhead, hp, hn, absorbFrom_of_le]

theorem lanesAhead_block (hp : s.phase = .block) :
    lanesAhead s B = tailAbsorb s.cfg (squasher s.cfg (varCrc s.var)
      (absorbFrom (absorber s.cfg (varCrc s.var)) (varBe s.var) B (s.off.toNat / 32) s.lanes))
      (bufferTail (varBe s.var) B) := by simp [lanesAhead, hp]

theorem lanesAhead_squash (hp : s.phase = .squash) :
    lanesAhead s B = tailAbsorb s.cfg (squasher s.cfg (varCrc s.var) s.lanes) (bufferTail (varBe s.var) B) := by
  simp [lanesAhead, hp]

theorem lanesAhead_tail (hp : s.phase = .tail) :
    lanesAhead s B = tailAbsorb s.cfg s.lanes (bufferTail (varBe s.var) B) := by simp [lanesAhead, hp]

theorem lanesAhead_final (hp : s.phase = .final) : lanesAhead s B = s.lanes := by simp [lanesAhead, hp]

/-! Each micro-operation before `FINAL` leaves the lanes ahead as they are. -/

theorem lanesAhead_execInit (hl : B.length = s.len.toNat) (hp : s.phase = .init) (h : execInit s = .next t) :
    lanesAhead t B = lanesAhead s B := by
  cases h
  rcases phaseAfterInit_cases s.len with ⟨hq, h32⟩ | ⟨hq, -, h32⟩ | ⟨hq, h0⟩
  · rw [lanesAhead_block hq, lanesAhead_init_of_blocks hp (by omega)]; simp
  · rw [lanesAhead_tail hq, lanesAhead_init_of_no_blocks hp (by omega)]; rfl
  · have hB : B.length = 0 := by rw [hl, h0]; rfl
    rw [lanesAhead_final hq, lanesAhead_init_of_no_blocks hp (by omega), bufferTail_eq_nil _ (by omega)]; rfl

/-- Absorbing the block at hand. -/
theorem lanesAhead_absorbed (hl : B.length = s.len.toNat) (hc : CallInv s) (hp : s.phase = .block) (ws : List Word) :
    lanesAhead ((((s.loaded ws (blockAddrs s)).setLanes (absorber s.cfg (varCrc s.var) s.lanes
      (bufferBlock (varBe s.var) B (s.off.toNat / 32)))).setOff (s.off + 32)).setPhase
      (phaseAfterBlock s.len (s.off + 32))) B = lanesAhead s B := by
  obtain ⟨hlen, hoff, -⟩ := (callInv_block hp).mp hc
  have hoff' : (s.off + 32).toNat = s.off.toNat + 32 := by have := s.len.isLt; bv_omega
  have hj : s.off.toNat / 32 + 1 = (s.off + 32).toNat / 32 := by omega
  rw [lanesAhead_block hp, absorbFrom_of_lt _ _ (show s.off.toNat / 32 < B.length / 32 by omega)]
  rcases phaseAfterBlock_cases (len := s.len) (off := s.off + 32) (by omega) with ⟨hq, -⟩ | ⟨hq, hlast⟩
  · rw [lanesAhead_block hq, hj]; rfl
  · rw [lanesAhead_squash hq, absorbFrom_of_le _ _ (show B.length / 32 ≤ s.off.toNat / 32 + 1 by omega)]; rfl

theorem lanesAhead_squashed (hl : B.length = s.len.toNat) (hc : CallInv s) (hp : s.phase = .squash) :
    lanesAhead ((s.setLanes (squasher s.cfg (varCrc s.var) s.lanes)).setPhase (phaseAfterSquash s.len s.off)) B =
      lanesAhead s B := by
  obtain ⟨hle, -, -, hoff, -⟩ := (callInv_squash hp).mp hc
  rw [lanesAhead_squash hp]
  rcases phaseAfterSquash_cases hle with ⟨hq, -⟩ | ⟨hq, hend⟩
  · rw [lanesAhead_tail hq]; rfl
  · rw [lanesAhead_final hq, bufferTail_eq_nil _ (by rw [hl, ← hend, hoff])]; rfl

end LanesAhead

/-- The digest the call of `s` on the buffer `B` will leave; the digest itself, when the call has ended. -/
def digestAhead (s : State) (B : List Byte) : Word :=
  if s.phase = .idle then s.digest
  else if s.phase = .fold32 then (fold32 s.cfg.pf s.digest).setWidth 64
  else if varNarrow s.var then (fold32 s.cfg.pf (finalDigest s.cfg (lanesAhead s B) s.len)).setWidth 64
  else finalDigest s.cfg (lanesAhead s B) s.len

section DigestAhead

variable {s t : State} {B : List Byte}

theorem digestAhead_idle (hp : s.phase = .idle) : digestAhead s B = s.digest := if_pos hp

theorem digestAhead_fold32 (hp : s.phase = .fold32) : digestAhead s B = (fold32 s.cfg.pf s.digest).setWidth 64 := by
  simp [digestAhead, hp]

/-- Up to `FINAL` the digest is that of the lanes ahead (43_final R100, 45_narrow32 R131). -/
theorem digestAhead_of_lanes (hi : s.phase ≠ .idle) (hf : s.phase ≠ .fold32) :
    digestAhead s B =
      if varNarrow s.var then (fold32 s.cfg.pf (finalDigest s.cfg (lanesAhead s B) s.len)).setWidth 64
      else finalDigest s.cfg (lanesAhead s B) s.len := by
  rw [digestAhead, if_neg hi, if_neg hf]

/-- A step among the phases up to `FINAL` that leaves the lanes ahead leaves the digest ahead. -/
theorem digestAhead_of_lanesAhead (hs : s.phase ≠ .idle ∧ s.phase ≠ .fold32) (ht : t.phase ≠ .idle ∧ t.phase ≠ .fold32)
    (hf : engineFrame t = engineFrame s) (hl : lanesAhead t B = lanesAhead s B) : digestAhead t B = digestAhead s B := by
  obtain ⟨hcfg, hlen, hvar, -⟩ := eq_of_engineFrame_eq hf
  rw [digestAhead_of_lanes hs.1 hs.2, digestAhead_of_lanes ht.1 ht.2, hl, hcfg, hlen, hvar]

theorem digestAhead_execFinal (hp : s.phase = .final) (h : execFinal s = .next t) :
    digestAhead t B = digestAhead s B := by
  rw [digestAhead_of_lanes (s := s) (by simp [hp]) (by simp [hp]), lanesAhead_final hp]
  rcases execFinal_cases h with ⟨hn, rfl⟩ | ⟨hn, rfl⟩
  · rw [if_pos hn, digestAhead_fold32 rfl]; rfl
  · rw [hn, digestAhead_idle rfl]; rfl

end DigestAhead

theorem phaseAfterInit_ne_fold32 (len : Word) : phaseAfterInit len ≠ .fold32 := by
  unfold phaseAfterInit; split_ifs <;> decide

theorem phaseAfterBlock_ne_fold32 (len off : Word) : phaseAfterBlock len off ≠ .fold32 := by
  unfold phaseAfterBlock; split_ifs <;> decide

theorem phaseAfterSquash_ne_fold32 (len off : Word) : phaseAfterSquash len off ≠ .fold32 := by
  unfold phaseAfterSquash; split_ifs <;> decide

/-- Absorbing the block at hand leaves the digest ahead as it is. -/
theorem digestAhead_absorbed {s : State} {B : List Byte} (hl : B.length = s.len.toNat) (hc : CallInv s)
    (hp : s.phase = .block) (ws : List Word) :
    digestAhead ((((s.loaded ws (blockAddrs s)).setLanes (absorber s.cfg (varCrc s.var) s.lanes
      (bufferBlock (varBe s.var) B (s.off.toNat / 32)))).setOff (s.off + 32)).setPhase
      (phaseAfterBlock s.len (s.off + 32))) B = digestAhead s B :=
  digestAhead_of_lanesAhead (by simp [hp]) ⟨phaseAfterBlock_ne_idle _ _, phaseAfterBlock_ne_fold32 _ _⟩ rfl
    (lanesAhead_absorbed hl hc hp ws)

/-- The engine's step leaves the digest ahead as it is (44_variants64 R116, R117). -/
theorem digestAhead_engineStep {s t : State} {B : List Byte} (hb : BufferHeld s B) (hc : CallInv s)
    (h : engineStep s = .next t) : digestAhead t B = digestAhead s B := by
  have hl := hb.length
  have hf := engineFrame_engineStep h
  rcases engine_cases h with ⟨-, rfl⟩ | ⟨hp, h⟩ | ⟨hp, hv, w, hw, rfl⟩ | ⟨hp, hv, w, hw, rfl⟩ | ⟨hp, rfl⟩ |
    ⟨hp, vs, hvs, rfl⟩ | ⟨hp, h⟩ | ⟨hp, h⟩
  · rfl
  · refine digestAhead_of_lanesAhead (by simp [hp]) ?_ hf (lanesAhead_execInit hl hp h)
    cases h
    exact ⟨phaseAfterInit_ne_idle _, phaseAfterInit_ne_fold32 _⟩
  · cases (fetchBlock_of_bufferHeld hb hc hp).symm.trans hw
    have habsorb : mixBlock s.cfg = absorber s.cfg (varCrc s.var) := by rw [hv]; rfl
    rw [habsorb]
    exact digestAhead_absorbed hl hc hp _
  · cases (fetchBlock_of_bufferHeld hb hc hp).symm.trans hw
    have habsorb : crcBlock s.cfg = absorber s.cfg (varCrc s.var) := by rw [hv]; rfl
    rw [habsorb]
    exact digestAhead_absorbed hl hc hp _
  · refine digestAhead_of_lanesAhead (by simp [hp]) ⟨phaseAfterSquash_ne_idle _ _, phaseAfterSquash_ne_fold32 _ _⟩ hf ?_
    rw [← lanesAhead_squashed hl hc hp, squasher]
    cases varCrc s.var <;> rfl
  · cases (fetchTail_of_bufferHeld hb hc hp).symm.trans hvs
    refine digestAhead_of_lanesAhead (by simp [hp]) ⟨by simp, by simp⟩ hf ?_
    rw [lanesAhead_final rfl, lanesAhead_tail hp]; rfl
  · exact digestAhead_execFinal hp h
  · cases h
    rw [digestAhead_fold32 hp, digestAhead_idle rfl]; rfl

/-- The command with the CRC absorber is little-endian and has a 64-bit digest (30_encoding R51, R52). -/
theorem cmdOp_of_crc {cfg : Config} {w : Word} (hw : LegalCommand cfg w) (hc : varCrc (cmdOp w) = true) :
    varBe (cmdOp w) = false ∧ varNarrow (cmdOp w) = false := by
  rcases hw with rfl | rfl | rfl | rfl | ⟨rfl, -⟩
  case inr.inr.inr.inr => exact ⟨rfl, rfl⟩
  all_goals cases hc

/-- At an accepted `START` the digest ahead is the big-step digest (44_variants64 R116, 45_narrow32 R130, 46_crc32 R147). -/
theorem digestAhead_acceptStart {s : State} {w : Word} {B : List Byte} (hw : LegalCommand s.cfg w)
    (hl : B.length = s.len.toNat) : digestAhead (acceptStart s w) B = callDigest s.cfg (cmdOp w) B s.seed := by
  have hlen : s.len = BitVec.ofNat 64 B.length := by rw [hl, BitVec.ofNat_toNat, BitVec.setWidth_eq]
  rw [digestAhead_of_lanes (by simp) (by simp), callDigest]
  cases hc : varCrc (cmdOp w) with
  | true =>
    obtain ⟨hbe, hn⟩ := cmdOp_of_crc hw hc
    simp [lanesAhead, hc, hbe, hn, hcrc, hlen, absorbFrom_zero, absorber, squasher]
  | false =>
    simp [lanesAhead, hc, h32, h64, hlen, absorbFrom_zero, absorber, squasher]

end Sys2Proof.Machine
end

section
/-! ## Runs of a call on the default schedule, and `CALL` -/

namespace Sys2Proof.Machine

theorem run_succ {M : Host.Core} {s t : M.State} (h : M.step s = .next t) (k : Nat) : M.run (k + 1) s = M.run k t := by
  rw [Host.Core.run, h]

/-- A run goes on from where its first steps have led. -/
theorem run_add {M : Host.Core} {s t : M.State} {k : Nat} (h : M.run k s = .next t) (j : Nat) :
    M.run (k + j) s = M.run j t := by
  induction k generalizing s with
  | zero => cases h; rw [Nat.zero_add]
  | succ k ih =>
    rw [Host.Core.run] at h
    cases hs : M.step s with
    | next u => rw [hs] at h; rw [Nat.add_right_comm, run_succ hs, ih h]
    | fault r => rw [hs] at h; cases h
    | refused r => rw [hs] at h; cases h

theorem runSteps_succ {s t : State} (h : step s = .next t) (k : Nat) : runSteps (k + 1) s = runSteps k t :=
  run_succ (M := Sys2Proof.core) h k

theorem runSteps_add {s t : State} {k : Nat} (h : runSteps k s = .next t) (j : Nat) :
    runSteps (k + j) s = runSteps j t :=
  run_add (M := Sys2Proof.core) h j

/-- A call under way or just ended, its buffer in memory and the schedule used up: the engine moves at every step. -/
structure Calling (s : State) (B : List Byte) : Prop where
  inv : CallInv s
  held : BufferHeld s B
  done : s.done = true ↔ s.phase = .idle
  sched : s.sched = []

theorem afterTurn_of_sched_eq_nil {s : State} (h : s.sched = []) : afterTurn s = s := by
  rw [afterTurn, h, List.tail_nil, ← h]; rfl

/-- The engine sets `DONE` with the step that ends the call and with no other (10_state R16, R23). -/
theorem doneIffIdle_engineStep {s t : State} (hd : s.done = true ↔ s.phase = .idle) (hp : s.phase ≠ .idle)
    (h : engineStep s = .next t) : t.done = true ↔ t.phase = .idle :=
  ⟨engineStep_doneImpliesIdle hd.mp h, fun ht => (engineStep_completes hp h ht).2.1⟩

/-- One step of a call under way. -/
theorem step_of_calling {s : State} {B : List Byte} (hc : Calling s B) (hp : s.phase ≠ .idle) :
    ∃ t, step s = .next t ∧ Calling t B ∧ stepsLeft s = stepsLeft t + 1 ∧ digestAhead t B = digestAhead s B ∧
      engineFrame t = engineFrame s := by
  obtain ⟨t, h⟩ := engineStep_of_bufferHeld hc.held hc.inv
  have hsched : t.sched = [] := (engineStep_hostSide h).2.2.trans hc.sched
  have hturn : turn s ≠ .host := by rw [turn, hc.sched]; decide
  exact ⟨t, step_of_engineTurn hturn hp (by rw [afterTurn_of_sched_eq_nil hc.sched, h]),
    ⟨callInv_engineStep hc.inv h, bufferHeld_engineStep hc.held h, doneIffIdle_engineStep hc.done hp h, hsched⟩,
    stepsLeft_engineStep hc.inv hp h, digestAhead_engineStep hc.held hc.inv h, engineFrame_engineStep h⟩

/-- The first `k` of the steps left to a call. -/
theorem runSteps_of_calling {s : State} {B : List Byte} (hc : Calling s B) {k : Nat} (hk : k ≤ stepsLeft s) :
    ∃ t, runSteps k s = .next t ∧ Calling t B ∧ stepsLeft s = stepsLeft t + k ∧ digestAhead t B = digestAhead s B ∧
      engineFrame t = engineFrame s := by
  induction k generalizing s with
  | zero => exact ⟨s, rfl, hc, rfl, rfl, rfl⟩
  | succ k ih =>
    have hp : s.phase ≠ .idle := fun hp => by rw [stepsLeft_idle hp] at hk; omega
    obtain ⟨u, hstep, hcu, hsu, hdu, hfu⟩ := step_of_calling hc hp
    obtain ⟨t, hrun, hct, hst, hdt, hft⟩ := ih hcu (by omega)
    exact ⟨t, by rw [runSteps_succ hstep, hrun], hct, by omega, hdt.trans hdu, hft.trans hfu⟩

/-- All the steps left to a call: it has ended with its digest. -/
theorem runSteps_stepsLeft {s : State} {B : List Byte} (hc : Calling s B) :
    ∃ t, runSteps (stepsLeft s) s = .next t ∧ t.phase = .idle ∧ t.done = true ∧ t.digest = digestAhead s B ∧
      engineFrame t = engineFrame s := by
  obtain ⟨t, hrun, hct, hst, hdt, hft⟩ := runSteps_of_calling hc le_rfl
  have hp : t.phase = .idle := by
    by_contra hp
    have := stepsLeft_pos hp
    omega
  exact ⟨t, hrun, hp, hct.done.mpr hp, by rw [← hdt, digestAhead_idle hp], hft⟩

/-- An accepted `START` has the steps of a call before it (44_variants64 R118). -/
theorem stepsLeft_acceptStart (s : State) (w : Word) :
    stepsLeft (acceptStart s w) = callSteps s.len.toNat (cmdOp w) := by
  rw [stepsLeft_init (acceptStart_phase s w), stepsFromTail, callSteps, acceptStart_len, acceptStart_var]
  split_ifs <;> omega

/-- An accepted `START` with the buffer in memory and no pending write of memory begins such a call. -/
theorem calling_acceptStart {s : State} {w : Word} {B : List Byte} (hB : HoldsBuffer s s.ptr s.len B)
    (hm : ∀ a b, HostMove.store a b ∉ s.moves) (hs : s.sched = []) : Calling (acceptStart s w) B where
  inv := (callInv_init rfl).mpr rfl
  held := by
    obtain ⟨hlen, hspace, hbytes⟩ := hB
    refine ⟨hlen, fun i hi => ⟨?_, hbytes i hi⟩, fun i _ => ⟨rfl, List.not_mem_nil⟩, fun i _ b => hm _ b⟩
    have hne : s.len ≠ 0 := by rintro h0; rw [hlen, h0] at hi; exact Nat.not_lt_zero i hi
    have := hspace hne
    simp only [acceptStart_ptr, acceptStart_cfg]
    omega
  done := by simp
  sched := hs

/-- With the engine idle the oldest host move is the step. -/
theorem runSteps_hostMove {s t : State} {m : HostMove} {ms : List HostMove} (hp : s.phase = .idle) (hs : s.sched = [])
    (h : hostMove m (s.setMoves ms) = .next t) (k : Nat) : runSteps (k + 1) (s.setMoves (m :: ms)) = runSteps k t := by
  refine runSteps_succ ?_ k
  rw [step_of_engineDisabled (s := s.setMoves (m :: ms)) rfl (engineEnabled_eq_false (.inl hp)),
    afterTurn_of_sched_eq_nil (s := s.setMoves (m :: ms)) hs]
  exact h

/-- An idle block accepts the write of a command's word (44_variants64 R110). -/
theorem hostMove_write_cmd_of_legal {s : State} {w : Word} (hp : s.phase = .idle) (hw : LegalCommand s.cfg w) :
    hostMove (.write 3 64 w) s = .next (acceptStart s w) :=
  (hostMove_write_cmd s w).trans (start_of_idle hp ((legalCommand_iff s.cfg w).mp hw))

/-- The operand registers written and the moves after `START` pending: the state in which `CALL` starts its command
(30_encoding R59). -/
def callOperands (s : State) (p n sd : Word) : State :=
  (((s.setPtr p).setLen n).setSeed sd).setMoves [.wait, .read 5 64]

/-- The four writes of `CALL` (30_encoding R59, 70_reset_and_hazards R182). -/
theorem runSteps_callMoves {s : State} {w p n sd : Word} (hp : s.phase = .idle) (hw : LegalCommand s.cfg w)
    (hm : s.moves = callMoves w p n sd) (hs : s.sched = []) (k : Nat) :
    runSteps (k + 4) s = runSteps k (acceptStart (callOperands s p n sd) w) := by
  have hptr : ∀ u : State, u.phase = .idle → hostMove (.write 0 64 p) u = .next (u.setPtr p) :=
    fun u hu => ((hostWritesSetOperandRegisters u p).1 hu).1
  have hlen : ∀ u : State, u.phase = .idle → hostMove (.write 1 64 n) u = .next (u.setLen n) :=
    fun u hu => ((hostWritesSetOperandRegisters u n).1 hu).2.1
  have hseed : ∀ u : State, u.phase = .idle → hostMove (.write 2 64 sd) u = .next (u.setSeed sd) :=
    fun u hu => ((hostWritesSetOperandRegisters u sd).1 hu).2.2
  calc runSteps (k + 4) s
      _ = runSteps (k + 4) (s.setMoves (callMoves w p n sd)) := by rw [← hm]; rfl
      _ = runSteps (k + 3) ((s.setPtr p).setMoves
            [.write 1 64 n, .write 2 64 sd, .write 3 64 w, .wait, .read 5 64]) :=
          runSteps_hostMove (ms := (callMoves w p n sd).tail) hp hs (hptr _ hp) _
      _ = runSteps (k + 2) (((s.setPtr p).setLen n).setMoves [.write 2 64 sd, .write 3 64 w, .wait, .read 5 64]) :=
          runSteps_hostMove (s := s.setPtr p) hp hs (hlen _ hp) _
      _ = runSteps (k + 1) ((((s.setPtr p).setLen n).setSeed sd).setMoves [.write 3 64 w, .wait, .read 5 64]) :=
          runSteps_hostMove (s := (s.setPtr p).setLen n) hp hs (hseed _ hp) _
      _ = runSteps k (acceptStart (callOperands s p n sd) w) :=
          runSteps_hostMove (s := ((s.setPtr p).setLen n).setSeed sd) hp hs 
            (hostMove_write_cmd_of_legal hp hw) _

/-- The poll and the read with which `CALL` ends, once the call has (30_encoding R59). -/
theorem runSteps_poll_digest {s : State} (hp : s.phase = .idle) (hd : s.done = true)
    (hm : s.moves = [.wait, .read 5 64]) (hs : s.sched = []) :
    runSteps 2 s = .next (((s.pushReply 4 2).pushReply 5 s.digest).setMoves []) := by
  have hstatus : statusWord s = 2 := BitVec.eq_of_toNat_eq (by rw [statusWord_toNat, hp, hd]; rfl)
  have hwait : ∀ u : State, u.done = true → hostMove .wait u = .next (u.pushReply 4 (statusWord u)) :=
    fun u hu => (waitPollsStatusUntilDone u).1 hu
  have hread : ∀ u : State, u.done = true → hostMove (.read 5 64) u = .next (u.pushReply 5 u.digest) :=
    fun u hu => (hostMove_read (r := .digest) rfl u).trans (congrArg _ (if_pos hu))
  calc runSteps 2 s
      _ = runSteps 2 (s.setMoves [.wait, .read 5 64]) := by rw [← hm]; rfl
      _ = runSteps 1 ((s.pushReply 4 (statusWord s)).setMoves [.read 5 64]) :=
          runSteps_hostMove (ms := [.read 5 64]) hp hs (hwait _ hd) 1
      _ = runSteps 1 ((s.pushReply 4 2).setMoves [.read 5 64]) := by rw [hstatus]
      _ = .next (((s.pushReply 4 2).pushReply 5 s.digest).setMoves []) :=
          runSteps_hostMove (s := s.pushReply 4 2) hp hs (hread _ hd) 0

/-- Settles O54: four writes, the call's own steps, a poll and a read (logs 8, 24). -/
theorem callProgramReadsTheDigest : Obligations.CallProgramReadsTheDigest := by
  intro s w p n sd B hp hw hB hm hs
  have hcall : Calling (acceptStart (callOperands s p n sd) w) B :=
    calling_acceptStart hB (by simp [callOperands]) hs
  obtain ⟨t, hrun, htp, htd, hdig, hframe⟩ := runSteps_stepsLeft hcall
  obtain ⟨-, -, -, hmem, hmoves, hsched, hreplies⟩ := eq_of_engineFrame_eq hframe
  rw [stepsLeft_acceptStart] at hrun
  rw [digestAhead_acceptStart (s := callOperands s p n sd) hw hB.1] at hdig
  refine ⟨((t.pushReply 4 2).pushReply 5 t.digest).setMoves [], ?_, rfl, htp, hmem, ?_⟩
  · rw [show 6 + callSteps n.toNat (w.extractLsb' 0 3) = callSteps n.toNat (cmdOp w) + 2 + 4 from Nat.add_comm 6 _,
      runSteps_callMoves hp hw hm hs]
    exact (runSteps_add hrun 2).trans (runSteps_poll_digest htp htd hmoves (hsched.trans hs))
  · simp only [State.setMoves_replies, State.pushReply_replies, hdig, hreplies]
    rfl

end Sys2Proof.Machine
end

section
/-! # The loads

Proofs of the statements of 40_load: the number a load's bytes spell, how full and partial loads and the block fetch hand it
over, the byte-swap law, and which bytes a load requests.

## The number that bytes spell -/

namespace Sys2Proof.Machine

/-- `leNat` is the number whose digits to the base 256 are the bytes. -/
theorem leNat_eq_ofDigits (B : List Byte) : leNat B = Nat.ofDigits 256 (B.map BitVec.toNat) := by
  induction B with
  | nil => rfl
  | cons b bs ih => rw [leNat, ih, List.map_cons, Nat.ofDigits_cons]

/-- `n` bytes spell a number of at most `8n` bits (40_load R72). -/
theorem leNat_lt (B : List Byte) : leNat B < 2 ^ (8 * B.length) := by
  have hdigit : ∀ x ∈ B.map BitVec.toNat, x < 256 := by
    simp only [List.mem_map]
    rintro _ ⟨b, -, rfl⟩
    exact b.isLt
  have h := Nat.ofDigits_lt_base_pow_length (b := 256) (by decide) hdigit
  rwa [← leNat_eq_ofDigits, List.length_map, show 256 = 2 ^ 8 from rfl, ← pow_mul] at h

theorem beNat_lt (B : List Byte) : beNat B < 2 ^ (8 * B.length) := by
  have h := leNat_lt B.reverse
  rwa [List.length_reverse] at h

/-- The first byte is the least significant one, and the others stand above its eight bits. -/
theorem leNat_cons (b : Byte) (bs : List Byte) : leNat (b :: bs) = leNat bs <<< 8 ||| b.toNat := by
  rw [← Nat.shiftLeft_add_eq_or_of_lt b.isLt, Nat.shiftLeft_eq, leNat]
  omega

/-- The first byte is the most significant one, above the bits of the others. -/
theorem beNat_cons (b : Byte) (bs : List Byte) : beNat (b :: bs) = b.toNat <<< (8 * bs.length) ||| beNat bs := by
  rw [← Nat.shiftLeft_add_eq_or_of_lt (beNat_lt bs), beNat, List.reverse_cons, leNat_eq_ofDigits, List.map_append,
    Nat.ofDigits_append, ← leNat_eq_ofDigits, List.length_map, List.length_reverse, List.map_singleton,
    Nat.ofDigits_singleton, Nat.shiftLeft_eq, pow_mul, Nat.mul_comm, Nat.add_comm]
  rfl

/-- Bit `r` of byte `q` of the number; past the last byte the bits are 0. -/
theorem testBit_leNat (B : List Byte) {q r : Nat} (hr : r < 8) :
    (leNat B).testBit (8 * q + r) = (B.getD q 0).getLsbD r := by
  induction B generalizing q with
  | nil => simp [leNat]
  | cons b bs ih =>
    have hsplit : leNat (b :: bs) = 2 ^ 8 * leNat bs + b.toNat := Nat.add_comm ..
    rw [hsplit, Nat.testBit_two_pow_mul_add _ b.isLt]
    cases q with
    | zero => rw [if_pos (by omega), Nat.mul_zero, Nat.zero_add]; rfl
    | succ q => rw [if_neg (by omega), show 8 * (q + 1) + r - 8 = 8 * q + r by omega, ih, List.getD_cons_succ]

/-! Assembling bytes gives the number they spell (40_load R70 to R73). -/

theorem setWidth_shiftLeft (b : Byte) (k : Nat) : b.setWidth 64 <<< k = BitVec.ofNat 64 (b.toNat <<< k) := by
  apply BitVec.eq_of_toNat_eq
  simp [Nat.shiftLeft_eq]

theorem assembleLe_eq (i : Nat) (B : List Byte) : assembleLe i B = BitVec.ofNat 64 (leNat B <<< (8 * i)) := by
  induction B generalizing i with
  | nil => simp [assembleLe, leNat]
  | cons b bs ih =>
    rw [assembleLe, ih, setWidth_shiftLeft, ← BitVec.ofNat_or, leNat_cons, Nat.shiftLeft_or_distrib, Nat.or_comm,
      ← Nat.shiftLeft_add, Nat.mul_succ, Nat.add_comm]

theorem assembleBe_eq (B : List Byte) : assembleBe B = BitVec.ofNat 64 (beNat B) := by
  induction B with
  | nil => rfl
  | cons b bs ih => rw [assembleBe, ih, setWidth_shiftLeft, ← BitVec.ofNat_or, beNat_cons]

theorem assemble_eq (be : Bool) (B : List Byte) :
    assemble be B = BitVec.ofNat 64 (if be then beNat B else leNat B) := by
  cases be with
  | false => exact assembleLe_eq 0 B
  | true => exact assembleBe_eq B

end Sys2Proof.Machine
end

section
/-! ## What a load of bytes that are read hands over -/

namespace Sys2Proof.Machine

theorem length_of_memRead {s : State} {addr n : Nat} {B : List Byte} (h : memRead s addr n = .ok B) : B.length = n :=
  ((memRead_ok_iff ..).mp h).1

theorem loadInto_of_loadWord {s : State} {be : Bool} {addr n : Nat} {v : Word} (h : loadWord s be addr n = .ok v) :
    loadInto s be addr n = .next (s.loaded [v] (List.range' addr n)) := by
  simp only [loadInto, h]

theorem execFetchblk_of_fetchBlock {s : State} {w : Block} (h : fetchBlock s = .ok w) :
    execFetchblk s = .next (s.loaded (blockWords w) (blockAddrs s)) := by
  simp only [execFetchblk, h]

/-- A load, full or partial, hands over the number its bytes spell in the byte order (40_load R70 to R73). -/
theorem loadInto_of_memRead {s : State} {addr n : Nat} {B : List Byte} (h : memRead s addr n = .ok B) (be : Bool) :
    loadInto s be addr n =
      .next (s.loaded [BitVec.ofNat 64 (if be then beNat B else leNat B)] (List.range' addr n)) := by
  rw [loadInto_of_loadWord (loadWord_of_memRead h), assemble_eq]

theorem loadInto_of_readable {s : State} {addr n : Nat} (h : Readable s addr n) (be : Bool) :
    ∃ v, loadInto s be addr n = .next (s.loaded [v] (List.range' addr n)) :=
  (loadWord_of_readable be h).imp fun _ => loadInto_of_loadWord

/-- With a byte count from 1 to 7 a partial load is the shared load of that many bytes (40_load R72, R73). -/
theorem exec_tailld_of_count {n : Nat} (h1 : 1 ≤ n) (h7 : n ≤ 7) (s : State) (addr : Nat) :
    exec (.tailldle addr n) s = loadInto s false addr n ∧ exec (.tailldbe addr n) s = loadInto s true addr n := by
  have hcount : byteCountOk n = true := by simp [byteCountOk, h1, h7]
  exact ⟨if_pos hcount, if_pos hcount⟩

/-- A block fetch of bytes that are read hands over their four words in the variant's order (40_load R74). -/
theorem fetchBlock_of_memRead {s : State} {B : Nat → List Byte}
    (h : ∀ k, k < 4 → memRead s (nextAddr s + 8 * k) 8 = .ok (B k)) :
    fetchBlock s =
      .ok (orderBlock (varBe s.var) (assemble (varBe s.var) (B 0)) (assemble (varBe s.var) (B 1))
        (assemble (varBe s.var) (B 2)) (assemble (varBe s.var) (B 3))) := by
  have hload : ∀ k, k < 4 → loadWord s (varBe s.var) (nextAddr s + 8 * k) 8 = .ok (assemble (varBe s.var) (B k)) :=
    fun k hk => loadWord_of_memRead (h k hk)
  have h0 := hload 0 (by omega)
  have h1 := hload 1 (by omega)
  have h2 := hload 2 (by omega)
  have h3 := hload 3 (by omega)
  simp only [Nat.mul_zero, Nat.add_zero, Nat.mul_one, Nat.reduceMul] at h0 h1 h2 h3
  simp only [fetchBlock, h0, h1, h2, h3]
  rfl

/-- The words of a block in the byte order and the word order that `VAR[0]` asks for (40_load R74). -/
theorem blockWords_orderBlock_assemble (be : Bool) (B0 B1 B2 B3 : List Byte) :
    blockWords (orderBlock be (assemble be B0) (assemble be B1) (assemble be B2) (assemble be B3)) =
      if be then
        [BitVec.ofNat 64 (beNat B3), BitVec.ofNat 64 (beNat B2), BitVec.ofNat 64 (beNat B1), BitVec.ofNat 64 (beNat B0)]
      else
        [BitVec.ofNat 64 (leNat B0), BitVec.ofNat 64 (leNat B1), BitVec.ofNat 64 (leNat B2), BitVec.ofNat 64 (leNat B3)] := by
  simp only [assemble_eq]
  cases be <;> rfl

/-- Settles O30: assembling eight bytes gives the number they spell, which has 64 bits. -/
theorem fullWordLoadsAssembleBytes : Obligations.FullWordLoadsAssembleBytes := by
  intro s addr B h
  have hlen := length_of_memRead h
  exact ⟨loadInto_of_memRead h false, loadInto_of_memRead h true, hlen, by simpa [hlen] using leNat_lt B,
    by simpa [hlen] using beNat_lt B⟩

/-- Settles O31: assembling `n` bytes gives the number they spell, which has `8n` bits. -/
theorem partialLoadsZeroExtend : Obligations.PartialLoadsZeroExtend := by
  intro s addr n B h1 h7 h
  obtain ⟨hle, hbe⟩ := exec_tailld_of_count h1 h7 s addr
  have hlen := length_of_memRead h
  exact ⟨hle.trans (loadInto_of_memRead h false), hbe.trans (loadInto_of_memRead h true), hlen, hlen ▸ leNat_lt B,
    hlen ▸ beNat_lt B⟩

/-- Settles O32: the fetch is four full-word loads, whose words `orderBlock` puts in the variant's order. -/
theorem fetchblkOrdersTheWords : Obligations.FetchblkOrdersTheWords := by
  intro s B h
  have hfetch := fetchBlock_of_memRead h
  have hexec := execFetchblk_of_fetchBlock hfetch
  refine ⟨?_, _, hfetch, fun t ht => ?_⟩
  · rw [blockWords_orderBlock_assemble] at hexec
    exact hexec
  · cases hexec.symm.trans ht
    rfl

/-- Settles O33: memory that admits the bytes gives each load its words, and `State.loaded` is all it does (logs 31, 35). -/
theorem loadsOfReadableBytesComplete : Obligations.LoadsOfReadableBytesComplete := by
  refine fun s addr =>
    ⟨fun h => ⟨loadInto_of_readable h false, loadInto_of_readable h true⟩, fun n h1 h7 h => ?_, fun h => ?_⟩
  · obtain ⟨hle, hbe⟩ := exec_tailld_of_count h1 h7 s addr
    rw [hle, hbe]
    exact ⟨loadInto_of_readable h false, loadInto_of_readable h true⟩
  · exact (fetchBlock_of_readable h).imp fun _ => execFetchblk_of_fetchBlock

end Sys2Proof.Machine
end

section
/-! ## The byte-swap law -/

namespace Sys2Proof.Machine

/-- Bit `r` of byte `q` of a byte-swapped word is bit `r` of the byte that stands as far from the other end. -/
theorem getLsbD_bswap64 (w : Word) {q r : Nat} (hq : q < 8) (hr : r < 8) :
    (bswap64 w).getLsbD (8 * q + r) = w.getLsbD (8 * (7 - q) + r) := by
  change BitVec.getLsbD (w := 8 + 8 + 8 + 8 + 8 + 8 + 8 + 8) _ _ = _
  have hpast : ∀ c, 8 ≤ c → ¬ c + r < 8 := by omega
  have hdrop : ∀ c, 8 ≤ c → c + r - 8 = c - 8 + r := by omega
  simp only [bswap64, BitVec.getLsbD_append, BitVec.getLsbD_extractLsb']
  interval_cases q <;> simp [hr, hpast, hdrop]

/-- Bit `r` of byte `q` of the word that bytes spell. -/
theorem getLsbD_leWord (B : List Byte) {q r : Nat} (hq : q < 8) (hr : r < 8) :
    (BitVec.ofNat 64 (leNat B)).getLsbD (8 * q + r) = (B.getD q 0).getLsbD r := by
  rw [BitVec.getLsbD_ofNat, testBit_leNat B hr, decide_eq_true (by omega), Bool.true_and]

/-- `bswap64` takes byte `i` of `n` bytes to byte `7 - i` of the word, and the shift to byte `n - 1 - i`, where the big-endian
word has it (40_load R75). -/
theorem assemble_true_eq_bswap64 {B : List Byte} (hn : B.length ≤ 8) :
    assemble true B = bswap64 (assemble false B) >>> (64 - 8 * B.length) := by
  apply BitVec.eq_of_getLsbD_eq
  intro j hj
  obtain ⟨q, r, hr, rfl⟩ : ∃ q r, r < 8 ∧ j = 8 * q + r := ⟨j / 8, j % 8, by omega, by omega⟩
  rw [assemble_eq, assemble_eq, if_pos rfl, if_neg Bool.false_ne_true, beNat, getLsbD_leWord _ (by omega) hr,
    BitVec.getLsbD_ushiftRight]
  by_cases hq : q < B.length
  · rw [show 64 - 8 * B.length + (8 * q + r) = 8 * (8 - B.length + q) + r by omega, getLsbD_bswap64 _ (by omega) hr,
      getLsbD_leWord _ (by omega) hr, List.getD_reverse _ hq, show 7 - (8 - B.length + q) = B.length - 1 - q by omega]
  · rw [List.getD_eq_default _ _ (by rw [List.length_reverse]; omega), BitVec.getLsbD_of_ge (bswap64 _) _ (by omega)]
    exact BitVec.getLsbD_zero

/-- The two loads of the same bytes differ by the byte swap, and by the shift where they are fewer than eight (40_load R75). -/
theorem loadWord_true_of_loadWord_false {s : State} {addr n : Nat} {v : Word} (hn : n ≤ 8)
    (h : loadWord s false addr n = .ok v) : loadWord s true addr n = .ok (bswap64 v >>> (64 - 8 * n)) := by
  obtain ⟨B, hB, rfl⟩ := memRead_of_readable (loadWord_readable h)
  rw [loadWord_of_memRead hB] at h ⊢
  cases h
  rw [assemble_true_eq_bswap64 hn]

/-- Settles O34: for eight bytes the shift is by 0. -/
theorem bigEndianLoadIsByteSwapped : Obligations.BigEndianLoadIsByteSwapped := by
  refine fun s addr => ⟨fun v h => ?_, fun n v _ h7 h => loadWord_true_of_loadWord_false (by omega) h⟩
  simpa using loadWord_true_of_loadWord_false (Nat.le_refl 8) h

end Sys2Proof.Machine
end

section
/-! ## The bytes a load requests -/

namespace Sys2Proof.Machine

theorem loadInto_reads {s t : State} {be : Bool} {addr n : Nat} (h : loadInto s be addr n = .next t) :
    t.reads = s.reads ++ List.range' addr n := by
  rcases loadInto_cases s be addr n with ⟨v, -, hs⟩ | ⟨e, -, hs⟩ <;> cases hs.symm.trans h
  rfl

/-- A partial load that answers is the shared load: a byte count outside 1 to 7 is refused (40_load R72, R73). -/
theorem exec_tailld_next {s t : State} {addr n : Nat} :
    (exec (.tailldle addr n) s = .next t → loadInto s false addr n = .next t) ∧
      (exec (.tailldbe addr n) s = .next t → loadInto s true addr n = .next t) := by
  cases hcount : byteCountOk n <;> simp [exec, execTailldle, execTailldbe, hcount]

/-- What a byte reads as depends on what memory and the records of the call say of that address (20_memory R43, R44). -/
theorem byteAt_congr {s : State} {m o : List Host.Cell} {l : List Nat} {a : Nat} (hm : memByte m a = memByte s.mem a)
    (ho : lostAt o a = lostAt s.overwritten a) (hl : a ∈ l ↔ a ∈ s.late) :
    byteAt { s with mem := m, overwritten := o, late := l } a = byteAt s a := by
  have hlater : laterWrites { s with mem := m, overwritten := o, late := l } = laterWrites s := rfl
  simp only [byteAt, hlater, hm, ho, hl]

/-- Settles O35: the record of a load is `List.range'` of its bytes, and its value is a function of them. -/
theorem loadsTouchExactlyTheirBytes : Obligations.LoadsTouchExactlyTheirBytes := by
  refine ⟨fun s t addr => ⟨loadInto_reads, loadInto_reads, fun n h => loadInto_reads (exec_tailld_next.1 h),
    fun n h => loadInto_reads (exec_tailld_next.2 h)⟩, fun s m o l be addr n h => loadWord_congr fun i hi => ?_⟩
  obtain ⟨hm, ho, hl⟩ := h i hi
  exact byteAt_congr hm ho hl

end Sys2Proof.Machine
end

section
/-! # The core mixing step

Proofs of the statements of 41_mix: the arithmetic primitives, `INIT`, `MIXBLOCK` and the squashes, and that control flow
does not depend on data.

## The primitives -/

namespace Sys2Proof.Machine

/-- For every count below 64 the two logical shifts make up the rotation (41_mix R80). -/
theorem rot64_eq_rotateRight (v : Word) {s : Nat} (h : s < 64) : rot64 v s = v.rotateRight s := by
  rw [rot64, BitVec.rotateRight_def, Nat.mod_eq_of_lt h]

/-- A rotation to the right takes bit `i` down by `s`, and the low `s` bits round to the top. -/
theorem getLsbD_rotateRight_sub (v : Word) {i s : Nat} (hs : s < 64) (hi : i < 64) :
    (v.rotateRight s).getLsbD ((i + 64 - s) % 64) = v.getLsbD i := by
  rw [BitVec.getLsbD_rotateRight, Nat.mod_eq_of_lt hs, cond_eq_ite]
  simp only [decide_eq_true_eq]
  rcases Nat.lt_or_ge i s with hlt | hge
  · have hpos : (i + 64 - s) % 64 = i + 64 - s := Nat.mod_eq_of_lt (by omega)
    rw [hpos, if_neg (by omega), decide_eq_true (by omega), Bool.true_and, show i + 64 - s - (64 - s) = i by omega]
  · have hpos : (i + 64 - s) % 64 = i - s := by omega
    rw [hpos, if_pos (by omega), Nat.add_sub_cancel' hge]

/-- Settles O39: the bits of `rot64` are those of the library's rotation. -/
theorem rot64RotatesRight : Obligations.Rot64RotatesRight := by
  intro v s _ hs
  have hrot : rot64 v s = v.rotateRight s := rot64_eq_rotateRight v (by omega)
  exact ⟨fun i hi => hrot ▸ getLsbD_rotateRight_sub v (by omega) hi, hrot⟩

/-- The product of two 64-bit values fits in 128 bits (41_mix R81). -/
theorem fullMul_toNat (v p : Word) : (fullMul v p).toNat = v.toNat * p.toNat := by
  have hlt : v.toNat * p.toNat < 2 ^ 64 * 2 ^ 64 := Nat.mul_lt_mul'' v.isLt p.isLt
  have hwiden : ∀ u : Word, (u.setWidth 128).toNat = u.toNat := fun u => BitVec.toNat_setWidth_of_le (by decide)
  rw [fullMul, BitVec.toNat_mul, hwiden, hwiden, Nat.mod_eq_of_lt (by omega)]

theorem mux64_toNat (v p : Word) :
    (mux64 v p).toNat = (v.toNat * p.toNat % 2 ^ 64) ^^^ (v.toNat * p.toNat / 2 ^ 64) := by
  have hhi : v.toNat * p.toNat / 2 ^ 64 < 2 ^ 64 :=
    Nat.div_lt_of_lt_mul (Nat.mul_lt_mul'' v.isLt p.isLt)
  rw [mux64, BitVec.toNat_xor, BitVec.extractLsb'_toNat, BitVec.extractLsb'_toNat, fullMul_toNat, Nat.shiftRight_zero,
    Nat.shiftRight_eq_div_pow, Nat.mod_eq_of_lt hhi]

theorem mux64_comm (v p : Word) : mux64 v p = mux64 p v := by
  rw [mux64, mux64, fullMul, fullMul, BitVec.mul_comm]

theorem mux64_zero_left (p : Word) : mux64 0 p = 0 := by
  apply BitVec.eq_of_toNat_eq
  simp [mux64_toNat]

/-- The product with 1 has no upper half. -/
theorem mux64_one_left (p : Word) : mux64 1 p = p := by
  apply BitVec.eq_of_toNat_eq
  have hone : (1 : Word).toNat * p.toNat = p.toNat := Nat.one_mul _
  rw [mux64_toNat, hone, Nat.mod_eq_of_lt p.isLt, Nat.div_eq_of_lt p.isLt, Nat.xor_zero]

/-- `mix` in terms of the exact product (41_mix R82). -/
theorem mix_eq_ofNat (s0 : Nat) (v p : Word) :
    mix s0 v p = BitVec.ofNat 64 (v.toNat * p.toNat) ^^^ rot64 (BitVec.ofNat 64 (v.toNat * p.toNat)) s0 := by
  simp only [mix, BitVec.ofNat_mul, BitVec.ofNat_toNat, BitVec.setWidth_eq]

theorem mix_zero (s0 : Nat) (p : Word) : mix s0 0 p = 0 := by simp [mix, rot64]

/-- Settles O40: everything about `mux64` comes from the exactness of the product, `fullMul_toNat`. -/
theorem multiplyPrimitives : Obligations.MultiplyPrimitives := by
  refine fun v p => ⟨mux64_toNat v p, mux64_comm v p, mux64_zero_left p, ?_, mux64_one_left p,
    fun s0 => ⟨mix_eq_ofNat s0 v p, mix_zero s0 p⟩⟩
  rw [mux64_comm, mux64_zero_left]

end Sys2Proof.Machine
end

section
/-! ## The micro-operations -/

namespace Sys2Proof.Machine

/-- The lanes of a CRC call as R142 writes them, the halves truncated. -/
theorem initLanesCrc_eq (len seed : Word) :
    initLanesCrc len seed =
      { a := seed
        b := len
        c := (len.setWidth 32).setWidth 64
        d := (seed.setWidth 32).setWidth 64
        e := ((~~~seed ^^^ len).setWidth 32).setWidth 64 } := by
  have htrunc : ∀ w : Word, w.setWidth 32 = w.extractLsb' 0 32 := fun _ => BitVec.setWidth_eq_extractLsb' (by decide)
  simp only [initLanesCrc, htrunc]

/-- Settles O23: the two sets of lanes are `initLanes` and `initLanesCrc`, the phase is `phaseAfterInit`. -/
theorem initSetsLanesAndPhase : Obligations.InitSetsLanesAndPhase := by
  intro s
  rw [← initLanesCrc_eq]
  rfl

/-- A block fetch that answers is absorbed (41_mix R84). -/
theorem execMixblock_of_fetchBlock {s : State} {w : Block} (h : fetchBlock s = .ok w) :
    execMixblock s =
      .next ((((s.loaded (blockWords w) (blockAddrs s)).setLanes (mixBlock s.cfg s.lanes w)).setOff (s.off + 32)).setPhase
        (phaseAfterBlock s.len (s.off + 32))) := by
  simp only [execMixblock, h]

/-- Settles O24: the fetch of 32 readable bytes answers, and `mixBlock` holds the formulas; where fewer than 32 bytes are left,
which R84 leaves out, the model fetches all the same (log 17). -/
theorem mixblockAbsorbsABlock : Obligations.MixblockAbsorbsABlock := by
  intro s h
  obtain ⟨w, hw⟩ := fetchBlock_of_readable (s := s) h
  exact ⟨w, hw, execMixblock_of_fetchBlock hw⟩

/-- Settles O26: the formulas are those of `squashLanes` and `csquashLanes`, the phase is `phaseAfterSquash`. -/
theorem squashFoldsTheBlockLanes : Obligations.SquashFoldsTheBlockLanes := fun _ => ⟨rfl, rfl⟩

end Sys2Proof.Machine
end

section
/-! ## Control flow -/

namespace Sys2Proof.Machine

/-- The phase after an engine step that answers (44_variants64 R111). -/
def phaseAfterStep (p : Phase) (len off : Word) (var : BitVec 3) : Phase :=
  match p with
  | .idle => .idle
  | .init => phaseAfterInit len
  | .block => phaseAfterBlock len (off + 32)
  | .squash => phaseAfterSquash len off
  | .tail => .final
  | .final => if varNarrow var then .fold32 else .idle
  | .fold32 => .idle

/-- `OFF` after an engine step that answers (10_state R19). -/
def offAfterStep (p : Phase) (len off : Word) : Word :=
  match p with
  | .init => 0
  | .block => off + 32
  | .tail => len
  | .idle | .squash | .final | .fold32 => off

/-- Phase and `OFF` after an engine step are functions of `PHASE`, `LEN`, `OFF` and `VAR` (41_mix R88). -/
theorem engineStep_phase_off {s t : State} (h : engineStep s = .next t) :
    t.phase = phaseAfterStep s.phase s.len s.off s.var ∧ t.off = offAfterStep s.phase s.len s.off := by
  rcases engine_cases h with ⟨hp, rfl⟩ | ⟨hp, h⟩ | ⟨hp, -, _, -, rfl⟩ | ⟨hp, -, _, -, rfl⟩ | ⟨hp, rfl⟩ | ⟨hp, _, -, rfl⟩ |
    ⟨hp, h⟩ | ⟨hp, h⟩ <;> rw [hp]
  · exact ⟨rfl, rfl⟩
  · cases h; exact ⟨rfl, rfl⟩
  · exact ⟨rfl, rfl⟩
  · exact ⟨rfl, rfl⟩
  · exact ⟨rfl, rfl⟩
  · exact ⟨rfl, rfl⟩
  · rcases execFinal_cases h with ⟨hn, rfl⟩ | ⟨hn, rfl⟩
    · exact ⟨(if_pos hn).symm, rfl⟩
    · exact ⟨(if_neg (by simp [hn])).symm, rfl⟩
  · cases h; exact ⟨rfl, rfl⟩

/-- The selector depends on the phase and `VAR` only (30_encoding R58). -/
theorem usel_congr {s t : State} (hp : s.phase = t.phase) (hv : s.var = t.var) : usel s = usel t := by
  rw [usel, usel, hp, hv]

/-- Settles O44: the next phase and `OFF` are functions of what the two states agree on, and the engine does not write
`VAR`. -/
theorem controlFlowIsDataIndependent : Obligations.ControlFlowIsDataIndependent := by
  intro s t s' t' hp hl ho hv hs ht
  obtain ⟨hsp, hso⟩ := engineStep_phase_off hs
  obtain ⟨htp, hto⟩ := engineStep_phase_off ht
  obtain ⟨-, -, hsv⟩ := engineStep_cfg_mem_var hs
  obtain ⟨-, -, htv⟩ := engineStep_cfg_mem_var ht
  have hphase : s'.phase = t'.phase := by rw [hsp, htp, hp, hl, ho, hv]
  have hvar : s'.var = t'.var := by rw [hsv, htv, hv]
  exact ⟨hphase, by rw [hso, hto, hp, hl, ho], hvar, usel_congr hphase hvar⟩

end Sys2Proof.Machine
end

section
/-! # The tail handler

Proof of the statement of 42_tail: the loads of `TAIL` are the words at their addresses, and one to four words are absorbed
into the lanes `a` and `b`. -/

namespace Sys2Proof.Machine

/-- Tail words that load one by one are loaded in address order. -/
theorem tailWords_of_loadWord {s : State} {be : Bool} {r k addr : Nat} {v : Nat → Word}
    (h : ∀ i, i < k → loadWord s be (addr + 8 * i) (if i < k - 1 ∨ r % 8 = 0 then 8 else r % 8) = .ok (v i)) :
    tailWords s be r k addr = .ok ((List.range k).map v) := by
  induction k generalizing addr v with
  | zero => rfl
  | succ k ih =>
    have hfirst : loadWord s be addr (if 0 < k ∨ r % 8 = 0 then 8 else r % 8) = .ok (v 0) := h 0 k.succ_pos
    have hrest : tailWords s be r k (addr + 8) = .ok ((List.range k).map (v ∘ Nat.succ)) := by
      refine ih fun i hi => ?_
      have hlast : i < k - 1 ↔ i + 1 < k + 1 - 1 := by omega
      have haddr : addr + 8 + 8 * i = addr + 8 * (i + 1) := by omega
      simp only [hlast, haddr]
      exact h (i + 1) (by omega)
    rw [tailWords, hfirst, hrest, List.range_succ_eq_map, List.map_cons, List.map_map]
    rfl

/-- Where memory admits the `r` bytes at `addr`, each of their `ceil8 r` words loads: 8 bytes, the last word `r mod 8` bytes when
that is not 0. -/
theorem loadWord_of_readable_tail {s : State} {addr r i : Nat} (be : Bool) (h : Readable s addr r) (hi : i < ceil8 r) :
    ∃ v, loadWord s be (addr + 8 * i) (if i < ceil8 r - 1 ∨ r % 8 = 0 then 8 else r % 8) = .ok v := by
  refine loadWord_of_readable be (readable_sub h ?_)
  unfold ceil8 at hi ⊢
  split <;> omega

/-- What one to four words add to the lanes: the last word meets `a` and `P1`, those before it `b` and `P2`, `a` and `P3`, `b`
and `P4` (42_tail R90). -/
theorem tailAbsorb_range (cfg : Config) (l : Lanes) (v : Nat → Word) {k : Nat} (h1 : 1 ≤ k) (h4 : k ≤ 4) :
    tailAbsorb cfg l ((List.range k).map v) =
      { l with
        a := l.a + (if 3 ≤ k then mux64 (v (k - 3)) cfg.p3 else 0) + mux64 (v (k - 1)) cfg.p1
        b := l.b + (if k = 4 then mux64 (v 0) cfg.p4 else 0) + (if 2 ≤ k then mux64 (v (k - 2)) cfg.p2 else 0) } := by
  have hk : k = 1 ∨ k = 2 ∨ k = 3 ∨ k = 4 := by omega
  rcases hk with rfl | rfl | rfl | rfl <;> simp [tailAbsorb, List.range_succ]

theorem execTail_of_fetchTail {s : State} {vs : List Word} (h : fetchTail s = .ok vs) :
    execTail s =
      .next ((((s.loaded vs (tailAddrs s)).setLanes (tailAbsorb s.cfg s.lanes vs)).setOff s.len).setPhase .final) := by
  simp only [execTail, h]

/-- Settles O27: each word of the tail loads, so the fetch hands them over in address order, and `tailAbsorb_range` says what
they add to the lanes. -/
theorem tailAbsorbsTheRemainder : Obligations.TailAbsorbsTheRemainder := by
  rintro s r k rfl h1 h31 rfl h
  choose! v hv using fun i => loadWord_of_readable_tail (i := i) (varBe s.var) h
  have hfetch : fetchTail s = .ok ((List.range (ceil8 (remaining s))).map v) := tailWords_of_loadWord hv
  have hone : 1 ≤ ceil8 (remaining s) := by unfold ceil8 remaining; omega
  have hfour : ceil8 (remaining s) ≤ 4 := by unfold ceil8 remaining; omega
  refine ⟨v, hv, (execTail_of_fetchTail hfetch).trans ?_⟩
  rw [tailAbsorb_range s.cfg s.lanes v hone hfour]
  rfl

end Sys2Proof.Machine
end

section
/-! # The finaliser

Proof of the statement of 43_final: `FINAL` of a 64-bit and of a narrowing command. -/

namespace Sys2Proof.Machine

/-- `FINAL` ends the call of a 64-bit command (43_final R100). -/
theorem execFinal_of_wide {s : State} (h : varNarrow s.var = false) :
    execFinal s = .next (completeCall (s.setDigest (finalDigest s.cfg s.lanes s.len))) := by
  rw [execFinal, if_neg (Bool.eq_false_iff.mp h)]

/-- `FINAL` hands a narrowing call on to `FOLD32` (43_final R100). -/
theorem execFinal_of_narrow {s : State} (h : varNarrow s.var = true) :
    execFinal s = .next ((s.setDigest (finalDigest s.cfg s.lanes s.len)).setPhase .fold32) := by
  rw [execFinal, if_pos h]

/-- Settles O28: the digest is `finalDigest`, and `VAR[1]` decides how `FINAL` leaves the call. -/
theorem finalComputesTheDigest : Obligations.FinalComputesTheDigest :=
  fun _ => ⟨execFinal_of_wide, execFinal_of_narrow⟩

end Sys2Proof.Machine
end

section
/-! # Calls

Proofs of the statements of 44_variants64: `START` and the commands, the next-phase function, a call from its `START` to its
end, and the coincidences between the digests.

## `START` -/

namespace Sys2Proof.Machine

/-- Settles O18: `START` is dropped, not accepted or `acceptStart`, and of the host's moves only it leaves `IDLE`
(logs 6, 15, 28 for the records). -/
theorem startFollowsItsRule : Obligations.StartFollowsItsRule := by
  intro s w
  refine ⟨fun hp => (hostMove_write_cmd s w).trans (start_of_busy hp w), fun _ hw => ?_, hostMove_write_cmd_of_legal,
    fun t m hp h ht => ?_⟩
  · rw [legalCommand_iff, Bool.not_eq_false] at hw
    exact (hostMove_write_cmd s w).trans (start_of_reserved hw)
  · rcases hostMove_cases h with hs | ⟨-, _, _, -, rfl | rfl | rfl⟩ | ⟨-, v, hm, hv, -⟩ | ⟨-, rfl⟩ | ⟨_, _, -, -, rfl⟩
    · rw [hs] at ht; exact absurd hp ht
    · exact absurd hp ht
    · exact absurd hp ht
    · exact absurd hp ht
    · exact ⟨v, hm, (legalCommand_iff s.cfg v).mpr hv⟩
    · exact absurd rfl ht
    · exact absurd hp ht

/-- A command with a legal word begins its call on an idle block (44_variants64 R110). -/
theorem exec_of_legalCommand {s : State} {i : Instr} {w : Word} (hp : s.phase = .idle) (hi : encodeCmd i = some w)
    (hw : LegalCommand s.cfg w) : exec i s = .next (acceptStart s w) :=
  (exec_of_encodeCmd hi s).trans (start_of_idle hp ((legalCommand_iff s.cfg w).mp hw))

/-- Settles O19: each command is `START` of its word, which is legal, 4 only with `HAS_CRC32C`. -/
theorem commandsBeginTheirCalls : Obligations.CommandsBeginTheirCalls := by
  intro s hp
  refine ⟨exec_of_legalCommand hp rfl (.inl rfl), exec_of_legalCommand hp rfl (.inl rfl),
    exec_of_legalCommand hp rfl (.inr (.inl rfl)), exec_of_legalCommand hp rfl (.inr (.inr (.inl rfl))),
    exec_of_legalCommand hp rfl (.inr (.inr (.inr (.inl rfl)))),
    fun hcrc => exec_of_legalCommand hp rfl (.inr (.inr (.inr (.inr ⟨rfl, hcrc⟩)))), fun hcrc => ?_⟩
  refine (exec_of_encodeCmd (w := 4) rfl s).trans (start_of_reserved ?_)
  rw [hcrc]
  rfl

/-- Settles O43: `START` leads to `INIT`; the rows of the table are `phaseAfterStep` and `offAfterStep`, and `DONE` is set by
the step that leaves the block idle. -/
theorem phasesFollowTheTable : Obligations.PhasesFollowTheTable := by
  refine ⟨fun s w hp hw => ⟨acceptStart s w, hostMove_write_cmd_of_legal hp hw, rfl⟩, fun s t h => ?_⟩
  obtain ⟨hphase, hoff⟩ := engineStep_phase_off h
  refine ⟨fun hp => ?_, fun hp => ?_, fun hp => ?_, fun hp => ?_, fun hp => ?_, fun hp => ⟨fun hn => ?_, fun hn => ?_⟩,
    fun hp => ?_⟩ <;> rw [hp] at hphase hoff
  · rw [engineStep_of_idle hp] at h; cases h; rfl
  · exact ⟨hoff, hphase⟩
  · exact ⟨hoff, hoff ▸ hphase⟩
  · exact ⟨hoff, hphase⟩
  · exact ⟨hoff, hphase⟩
  · have hfold : t.phase = .fold32 := hphase.trans (if_pos hn)
    refine ⟨hfold, (engineStep_done h).resolve_right fun hd => ?_⟩
    rw [hfold] at hd
    cases hd.2.1
  · have hidle : t.phase = .idle := hphase.trans (if_neg (Bool.eq_false_iff.mp hn))
    exact ⟨hidle, (engineStep_completes (by simp [hp]) h hidle).2.1⟩
  · exact ⟨hphase, (engineStep_completes (by simp [hp]) h hphase).2.1⟩

end Sys2Proof.Machine
end

section
/-! ## A call from its `START` to its end -/

namespace Sys2Proof.Machine

/-- An engine step that ends a call leaves `OFF` at `LEN` and the whole window read (20_memory R38, 44_variants64 R118). -/
theorem off_reads_of_completes {s t : State} (hc : CallInv s) (hp : s.phase ≠ .idle) (h : engineStep s = .next t)
    (ht : t.phase = .idle) : t.off = s.len ∧ t.reads = List.range' s.ptr.toNat s.len.toNat := by
  obtain ⟨-, hoff⟩ := engineStep_phase_off h
  obtain ⟨hs, -, hreads⟩ := engineStep_completes hp h ht
  rw [hoff, hreads]
  rcases hs with hs | hs <;> rw [hs]
  · exact (callInv_final hs).mp hc
  · obtain ⟨hend, hread, -⟩ := (callInv_fold32 hs).mp hc
    exact ⟨hend, hread⟩

theorem ptr_seed_of_engineFrame_eq {s t : State} (h : engineFrame t = engineFrame s) :
    t.ptr = s.ptr ∧ t.seed = s.seed := by
  simp only [engineFrame, State.mk.injEq] at h
  simp [h]

/-- The step of a call under way is the engine's. -/
theorem engineStep_of_calling {s : State} {B : List Byte} (hc : Calling s B) (hp : s.phase ≠ .idle) :
    ∃ t, engineStep s = .next t ∧ step s = .next t := by
  obtain ⟨t, h⟩ := engineStep_of_bufferHeld hc.held hc.inv
  have hturn : turn s ≠ .host := by rw [turn, hc.sched]; decide
  exact ⟨t, h, step_of_engineTurn hturn hp (by rw [afterTurn_of_sched_eq_nil hc.sched, h])⟩

/-- A run that ends a call leaves `OFF` at `LEN` and the whole window read (44_variants64 R118). -/
theorem off_reads_of_runSteps {s t : State} {B : List Byte} {k : Nat} (hc : Calling s B) (hp : s.phase ≠ .idle)
    (hk : k ≤ stepsLeft s) (h : runSteps k s = .next t) (ht : t.phase = .idle) :
    t.off = s.len ∧ t.reads = List.range' s.ptr.toNat s.len.toNat := by
  induction k generalizing s with
  | zero => cases h; exact absurd ht hp
  | succ k ih =>
    obtain ⟨u, hengine, hstep⟩ := engineStep_of_calling hc hp
    obtain ⟨_, hstep', hcu, hleft, -, hframe⟩ := step_of_calling hc hp
    cases hstep.symm.trans hstep'
    rw [runSteps_succ hstep] at h
    by_cases hu : u.phase = .idle
    · have hzero : k = 0 := by rw [stepsLeft_idle hu] at hleft; omega
      subst hzero
      cases h
      exact off_reads_of_completes hc.inv hp hengine hu
    · obtain ⟨hptr, -⟩ := ptr_seed_of_engineFrame_eq hframe
      obtain ⟨-, hlen, -⟩ := eq_of_engineFrame_eq hframe
      rw [← hptr, ← hlen]
      exact ih hcu hu (by omega) h

/-- What holds of the state `t`, `k` engine steps after `START` of the word `w` in the state `s`, whose window holds `B`. -/
structure CallAt (s : State) (w : Word) (B : List Byte) (k : Nat) (t : State) : Prop where
  calling : Calling t B
  steps : stepsLeft t + k = callSteps s.len.toNat (cmdOp w)
  digest : digestAhead t B = callDigest s.cfg (cmdOp w) B s.seed
  operands : t.ptr = s.ptr ∧ t.len = s.len ∧ t.seed = s.seed
  var : t.var = cmdOp w
  mem : t.mem = s.mem
  ended : t.phase = .idle → t.off = s.len ∧ t.reads = List.range' s.ptr.toNat s.len.toNat

theorem CallAt.idle_iff {s t : State} {w : Word} {B : List Byte} {k : Nat} (h : CallAt s w B k t) :
    t.phase = .idle ↔ k = callSteps s.len.toNat (cmdOp w) := by
  rw [← h.steps]
  refine ⟨fun hp => by rw [stepsLeft_idle hp, Nat.zero_add], fun hk => ?_⟩
  by_contra hp
  have := stepsLeft_pos hp
  omega

theorem CallAt.digest_of_end {s t : State} {w : Word} {B : List Byte}
    (h : CallAt s w B (callSteps s.len.toNat (cmdOp w)) t) : t.digest = callDigest s.cfg (cmdOp w) B s.seed := by
  rw [← h.digest, digestAhead_idle (h.idle_iff.mpr rfl)]

/-- A call on a window that holds `B`, with the `START` as the only move and an empty schedule (log 8), after `k` of its steps
(44_variants64 R117, R118). -/
theorem runSteps_of_start {s : State} {w : Word} {B : List Byte} {k : Nat} (hp : s.phase = .idle)
    (hw : LegalCommand s.cfg w) (hB : HoldsBuffer s s.ptr s.len B) (hm : s.moves = [.write 3 64 w]) (hs : s.sched = [])
    (hk : k ≤ callSteps s.len.toNat (cmdOp w)) : ∃ t, runSteps (1 + k) s = .next t ∧ CallAt s w B k t := by
  have hcall : Calling (acceptStart (s.setMoves []) w) B := calling_acceptStart (s := s.setMoves []) hB (by simp) hs
  have hleft := stepsLeft_acceptStart (s.setMoves []) w
  obtain ⟨t, hrun, hct, hst, hdig, hframe⟩ := runSteps_of_calling hcall (hleft.symm ▸ hk)
  obtain ⟨-, hlen, hvar, hmem, -⟩ := eq_of_engineFrame_eq hframe
  obtain ⟨hptr, hseed⟩ := ptr_seed_of_engineFrame_eq hframe
  have hstart : runSteps (1 + k) s = runSteps k (acceptStart (s.setMoves []) w) := by
    rw [Nat.add_comm, ← runSteps_hostMove (ms := []) hp hs (hostMove_write_cmd_of_legal (s := s.setMoves []) hp hw), ← hm]
    rfl
  exact ⟨t, hstart.trans hrun, {
    calling := hct
    steps := hst.symm.trans hleft
    digest := hdig.trans (digestAhead_acceptStart (s := s.setMoves []) hw hB.1)
    operands := ⟨hptr, hlen, hseed⟩
    var := hvar
    mem := hmem
    ended := off_reads_of_runSteps (s := acceptStart (s.setMoves []) w) hcall (by simp) (hleft.symm ▸ hk) hrun }⟩

/-- Settles O52: the digest ahead is the big-step digest at every step, and `DONE` is set when no step is left (log 8). -/
theorem callComputesTheDigest : Obligations.CallComputesTheDigest := by
  intro s w B hc hm hs k hk
  obtain ⟨t, hrun, ht⟩ := runSteps_of_start hc.idle hc.legal hc.buffer hm hs hk
  obtain ⟨hptr, hlen, hseed⟩ := ht.operands
  exact ⟨t, hrun, ht.calling.done.trans ht.idle_iff, ht.idle_iff, hptr, hlen, hseed, ht.mem,
    fun hend => CallAt.digest_of_end (hend ▸ ht)⟩

/-- Settles O56: each run ends with the digest of the same command, bytes and seed, and nothing else (log 8). -/
theorem equalInputsGiveEqualDigests : Obligations.EqualInputsGiveEqualDigests := by
  intro s s' w B hc hc' hcfg hseed hm hm' hs hs'
  obtain ⟨t, hrun, hdone, hidle, -, -, -, -, hdig⟩ := callComputesTheDigest s w B hc hm hs _ le_rfl
  obtain ⟨t', hrun', hdone', hidle', -, -, -, -, hdig'⟩ := callComputesTheDigest s' w B hc' hm' hs' _ le_rfl
  have hB : B.length = s.len.toNat := hc.buffer.1
  have hB' : B.length = s'.len.toNat := hc'.buffer.1
  refine ⟨t, t', hB ▸ hrun, hB' ▸ hrun', hdone.mpr rfl, hdone'.mpr rfl, hidle.mpr rfl, hidle'.mpr rfl, ?_⟩
  rw [hdig rfl, hdig' rfl, hcfg, hseed]

end Sys2Proof.Machine
end

section
/-! ## The sequence of phases of a call -/

namespace Sys2Proof.Machine

theorem length_callPhases (len : Nat) (op : BitVec 3) : (callPhases len op).length = callSteps len op + 1 := by
  simp only [callPhases, callSteps, List.length_append, List.length_replicate, apply_ite List.length, List.length_cons,
    List.length_nil]

theorem getElem?_callPhases_block {len k : Nat} (op : BitVec 3) (hk : k < len / 32) :
    (callPhases len op)[k + 1]? = some .block := by
  simp only [callPhases, List.append_assoc, List.singleton_append]
  rw [List.getElem?_append_left (by simpa using hk), List.getElem?_cons_succ, List.getElem?_replicate_of_lt hk]

theorem getElem?_callPhases_squash {len : Nat} (op : BitVec 3) (h : 1 ≤ len / 32) :
    (callPhases len op)[len / 32 + 1]? = some .squash := by
  have hlen : (.init :: List.replicate (len / 32) .block : List Phase).length = len / 32 + 1 := by simp
  rw [← hlen, callPhases, if_pos h]
  simp

/-- The phases of a call up to the squash of its full blocks. -/
def blockPhases (len : Nat) : List Phase :=
  [.init] ++ List.replicate (len / 32) .block ++ (if 1 ≤ len / 32 then [.squash] else [])

theorem length_blockPhases (len : Nat) : (blockPhases len).length = len / 32 + 1 + if 1 ≤ len / 32 then 1 else 0 := by
  simp only [blockPhases, List.length_append, List.length_replicate, apply_ite List.length, List.length_cons,
    List.length_nil, Nat.zero_add, Nat.add_comm]

theorem callPhases_eq (len : Nat) (op : BitVec 3) :
    callPhases len op = blockPhases len ++ (if 0 < len % 32 then [.tail] else []) ++ [.final] ++
      (if varNarrow op then [.fold32] else []) ++ [.idle] := rfl

theorem getElem?_callPhases_tail {len : Nat} (op : BitVec 3) (h : 0 < len % 32) :
    (callPhases len op)[len / 32 + 1 + if 1 ≤ len / 32 then 1 else 0]? = some .tail := by
  rw [← length_blockPhases, callPhases_eq, if_pos h]
  simp

theorem getElem?_callPhases_final (len : Nat) (op : BitVec 3) :
    (callPhases len op)[len / 32 + 1 + (if 1 ≤ len / 32 then 1 else 0) + (if 0 < len % 32 then 1 else 0)]? =
      some .final := by
  rw [← length_blockPhases, callPhases_eq]
  split_ifs <;> simp

theorem getElem?_callPhases_fold32 (len : Nat) {op : BitVec 3} (hn : varNarrow op = true) :
    (callPhases len op)[len / 32 + 1 + (if 1 ≤ len / 32 then 1 else 0) + (if 0 < len % 32 then 1 else 0) + 1]? =
      some .fold32 := by
  rw [← length_blockPhases, callPhases_eq, if_pos hn]
  split_ifs <;> simp [Nat.add_assoc]

theorem getElem?_callPhases_idle (len : Nat) (op : BitVec 3) :
    (callPhases len op)[callSteps len op]? = some .idle := by
  have h := length_callPhases len op
  rw [callPhases, List.length_append, List.length_singleton, Nat.add_right_cancel_iff] at h
  rw [callPhases, ← h, List.getElem?_concat_length]

/-- `OFF` before the `k`-th engine step of a call, `k` not 0 (44_variants64 R118). -/
def callOff (len k : Nat) : Nat :=
  if k ≤ len / 32 + 1 then 32 * (k - 1)
  else if k ≤ len / 32 + 1 + (if 1 ≤ len / 32 then 1 else 0) then 32 * (len / 32)
  else len

theorem callOff_block {len k : Nat} (hk : k ≤ len / 32 + 1) : callOff len k = 32 * (k - 1) := if_pos hk

theorem callOff_tail (len : Nat) :
    callOff len (len / 32 + 1 + if 1 ≤ len / 32 then 1 else 0) = 32 * (len / 32) := by
  unfold callOff
  split_ifs <;> omega

theorem callOff_end {len k : Nat}
    (hk : len / 32 + 1 + (if 1 ≤ len / 32 then 1 else 0) + (if 0 < len % 32 then 1 else 0) ≤ k) : callOff len k = len := by
  unfold callOff
  split_ifs at hk ⊢ <;> omega

/-- In each phase the steps left tell how many have been taken, and so the place in the sequence of phases and `OFF`
(44_variants64 R118). -/
theorem phase_off_of_stepsLeft {t : State} {k : Nat} (hc : CallInv t) (he : t.phase = .idle → t.off = t.len)
    (hk : stepsLeft t + k = callSteps t.len.toNat t.var) :
    (callPhases t.len.toNat t.var)[k]? = some t.phase ∧ (1 ≤ k → t.off.toNat = callOff t.len.toNat k) := by
  rw [callSteps] at hk
  cases hp : t.phase with
  | idle =>
    rw [stepsLeft_idle hp, Nat.zero_add, ← callSteps] at hk
    rw [hk, he hp]
    refine ⟨getElem?_callPhases_idle _ _, fun _ => (callOff_end ?_).symm⟩
    rw [callSteps]; omega
  | init =>
    have hzero : k = 0 := by
      rw [stepsLeft_init hp, stepsFromTail] at hk
      split_ifs at hk <;> omega
    subst hzero
    exact ⟨rfl, nofun⟩
  | block =>
    obtain ⟨hlen, hoff, -⟩ := (callInv_block hp).mp hc
    rw [stepsLeft_block hp, stepsFromTail, remaining,
      BitVec.toNat_sub_of_le (show t.off ≤ t.len by rw [BitVec.le_def]; omega)] at hk
    have hpos : k = t.off.toNat / 32 + 1 := by split_ifs at hk <;> omega
    rw [hpos, callOff_block (by omega)]
    exact ⟨getElem?_callPhases_block _ (by omega), by omega⟩
  | squash =>
    obtain ⟨hle, hlt, hblock, hoff, -⟩ := (callInv_squash hp).mp hc
    rw [stepsLeft_squash hp, stepsFromTail, remaining, BitVec.toNat_sub_of_le hle] at hk
    have hpos : k = t.len.toNat / 32 + 1 := by split_ifs at hk <;> omega
    rw [hpos]
    exact ⟨getElem?_callPhases_squash _ (by omega), fun _ => by rw [callOff_block le_rfl]; omega⟩
  | tail =>
    obtain ⟨hlt, hle, hoff, -⟩ := (callInv_tail hp).mp hc
    rw [stepsLeft_tail hp, stepsFromTail_zero] at hk
    have hpos : k = t.len.toNat / 32 + 1 + if 1 ≤ t.len.toNat / 32 then 1 else 0 := by split_ifs at hk ⊢ <;> omega
    rw [hpos]
    exact ⟨getElem?_callPhases_tail _ (by omega), fun _ => by rw [callOff_tail]; omega⟩
  | final =>
    obtain ⟨hoff, -⟩ := (callInv_final hp).mp hc
    rw [stepsLeft_final hp, stepsFromTail_zero] at hk
    have hpos : k = t.len.toNat / 32 + 1 + (if 1 ≤ t.len.toNat / 32 then 1 else 0) +
        (if 0 < t.len.toNat % 32 then 1 else 0) := by omega
    rw [hpos, hoff]
    exact ⟨getElem?_callPhases_final _ _, fun _ => (callOff_end le_rfl).symm⟩
  | fold32 =>
    obtain ⟨hoff, -, hn⟩ := (callInv_fold32 hp).mp hc
    rw [stepsLeft_fold32 hp, if_pos hn] at hk
    have hpos : k = t.len.toNat / 32 + 1 + (if 1 ≤ t.len.toNat / 32 then 1 else 0) +
        (if 0 < t.len.toNat % 32 then 1 else 0) + 1 := by omega
    rw [hpos, hoff]
    exact ⟨getElem?_callPhases_fold32 _ hn, fun _ => (callOff_end (Nat.le_succ _)).symm⟩

/-- Settles O53: the phase and `OFF` are those of the number of steps taken (log 8). -/
theorem callFollowsItsPhaseSequence : Obligations.CallFollowsItsPhaseSequence := by
  refine ⟨length_callPhases, fun s w B hc hm hs k hk => ?_⟩
  obtain ⟨t, hrun, ht⟩ := runSteps_of_start hc.idle hc.legal hc.buffer hm hs hk
  obtain ⟨-, hlen, -⟩ := ht.operands
  have hat := phase_off_of_stepsLeft ht.calling.inv (fun hp => (ht.ended hp).1.trans hlen.symm)
    (by rw [hlen, ht.var]; exact ht.steps)
  rw [hlen, ht.var] at hat
  exact ⟨t, hrun, hat⟩

end Sys2Proof.Machine
end

section
/-! ## The empty buffer -/

namespace Sys2Proof.Machine

/-- With nothing absorbed the lanes `a` and `b` are the seed and 0 (43_final R100). -/
theorem finalDigest_of_empty {l : Lanes} {seed : Word} (cfg : Config) (ha : l.a = seed) (hb : l.b = 0) :
    finalDigest cfg l 0 = mux64 (rot64 seed cfg.s1) cfg.p4 + mix cfg.s0 seed cfg.p0 := by
  simp [finalDigest, ha, hb]

theorem h64_nil (cfg : Config) (be : Bool) (seed : Word) :
    h64 cfg be [] seed = mux64 (rot64 seed cfg.s1) cfg.p4 + mix cfg.s0 seed cfg.p0 :=
  finalDigest_of_empty cfg rfl rfl

theorem hcrc_nil (cfg : Config) (seed : Word) :
    hcrc cfg [] seed = mux64 (rot64 seed cfg.s1) cfg.p4 + mix cfg.s0 seed cfg.p0 :=
  finalDigest_of_empty cfg rfl rfl

/-- The digest of an empty buffer, for every legal command (44_variants64 R121). -/
theorem callDigest_nil {cfg : Config} {w : Word} (hw : LegalCommand cfg w) (seed : Word) :
    callDigest cfg (cmdOp w) [] seed =
      if varNarrow (cmdOp w) then
        (fold32 cfg.pf (mux64 (rot64 seed cfg.s1) cfg.p4 + mix cfg.s0 seed cfg.p0)).setWidth 64
      else mux64 (rot64 seed cfg.s1) cfg.p4 + mix cfg.s0 seed cfg.p0 := by
  cases hc : varCrc (cmdOp w) with
  | true =>
    obtain ⟨-, hn⟩ := cmdOp_of_crc hw hc
    simp [callDigest, hc, hn, hcrc_nil]
  | false => simp [callDigest, hc, h32, h64_nil]

/-- `VAR[1]` of a command is bit 1 of its word (30_encoding R51). -/
theorem varNarrow_cmdOp (w : Word) : varNarrow (cmdOp w) = w.getLsbD 1 := by simp [varNarrow, cmdOp]

/-- Settles O57: no full block and no tail, so that `a` is the seed and `b` is 0 at the end, and the window read is empty
(log 8). -/
theorem emptyInputReadsNothing : Obligations.EmptyInputReadsNothing := by
  refine ⟨fun cfg be seed => ⟨h64_nil cfg be seed, hcrc_nil cfg seed⟩, fun be => ?_, fun s w hp hw hlen hm hs => ?_⟩
  · rw [h64_nil, h64_nil]
    decide
  · have hlen' : s.len.toNat = 0 := by rw [hlen]; rfl
    have hB : HoldsBuffer s s.ptr s.len [] := ⟨hlen'.symm, fun h => absurd hlen h, nofun⟩
    obtain ⟨t, hrun, ht⟩ := runSteps_of_start hp hw hB hm hs le_rfl
    have hidle : t.phase = .idle := ht.idle_iff.mpr rfl
    have hsteps : 1 + callSteps s.len.toNat (cmdOp w) = if w.getLsbD 1 then 4 else 3 := by
      rw [hlen', callSteps, varNarrow_cmdOp]
      cases w.getLsbD 1 <;> rfl
    refine ⟨t, hsteps ▸ hrun, hidle, ht.calling.done.mpr hidle, ?_, ?_⟩
    · rw [(ht.ended hidle).2, hlen']; rfl
    · rw [ht.digest_of_end, callDigest_nil hw, varNarrow_cmdOp]

end Sys2Proof.Machine
end

section
/-! ## Digests that coincide -/

namespace Sys2Proof.Machine

/-- The lanes `a` and `b` after the tail depend on the lanes `a` and `b` before it only (42_tail R90). -/
theorem tailAbsorb_congr (cfg : Config) {l l' : Lanes} (vs : List Word) (ha : l.a = l'.a) (hb : l.b = l'.b) :
    (tailAbsorb cfg l vs).a = (tailAbsorb cfg l' vs).a ∧ (tailAbsorb cfg l vs).b = (tailAbsorb cfg l' vs).b := by
  induction vs generalizing l l' with
  | nil => exact ⟨ha, hb⟩
  | cons v vs ih =>
    rw [tailAbsorb, tailAbsorb]
    apply ih <;> split_ifs <;> simp [ha, hb]

/-- `FINAL` reads the lanes `a` and `b` only (43_final R100). -/
theorem finalDigest_congr (cfg : Config) {l l' : Lanes} (len : Word) (ha : l.a = l'.a) (hb : l.b = l'.b) :
    finalDigest cfg l len = finalDigest cfg l' len := by rw [finalDigest, finalDigest, ha, hb]

theorem absorbBlocks_of_no_blocks (absorb : Lanes → Block → Lanes) (be : Bool) {B : List Byte} (h : B.length / 32 = 0)
    (l : Lanes) : absorbBlocks absorb be B l = l := by rw [absorbBlocks, h]; rfl

/-- Without a full block the CRC absorber is not used, and the two `INIT`s agree on `a` and `b` (44_variants64 R122). -/
theorem hcrc_eq_h64_of_no_blocks (cfg : Config) {B : List Byte} (h : B.length / 32 = 0) (seed : Word) :
    hcrc cfg B seed = h64 cfg false B seed := by
  have hno : ¬ 1 ≤ B.length / 32 := by omega
  simp only [hcrc, h64, absorbBlocks_of_no_blocks _ _ h, if_neg hno]
  obtain ⟨ha, hb⟩ := tailAbsorb_congr cfg (l := initLanesCrc (BitVec.ofNat 64 B.length) seed)
    (l' := initLanes cfg (BitVec.ofNat 64 B.length) seed) (bufferTail false B) rfl rfl
  exact finalDigest_congr cfg _ ha hb

/-- A palindrome of bytes spells one number in both byte orders (20_memory R34). -/
theorem assemble_of_palindrome {B : List Byte} (h : B.reverse = B) : assemble true B = assemble false B := by
  simp [assemble_eq, beNat, h]

/-- H64 takes of the buffer the words of its blocks and of its tail only (44_variants64 R116). -/
theorem h64_congr {be be' : Bool} {B : List Byte} (cfg : Config) (seed : Word)
    (hblock : ∀ j, j < B.length / 32 → bufferBlock be B j = bufferBlock be' B j)
    (htail : bufferTail be B = bufferTail be' B) : h64 cfg be B seed = h64 cfg be' B seed := by
  have habsorb : ∀ l, absorbBlocks (mixBlock cfg) be B l = absorbBlocks (mixBlock cfg) be' B l := fun l =>
    List.foldl_ext _ _ _ fun l j hj => by rw [hblock j (List.mem_range.mp hj)]
  simp only [h64, habsorb, htail]

theorem bufferTail_of_palindromes {B : List Byte}
    (h : ∀ i, i < 4 →
      ((B.drop (32 * (B.length / 32) + 8 * i)).take 8).reverse = (B.drop (32 * (B.length / 32) + 8 * i)).take 8) :
    bufferTail true B = bufferTail false B := by
  refine List.map_congr_left fun i hi => assemble_of_palindrome (h i ?_)
  rw [List.mem_range, ceil8] at hi
  omega

theorem reverse_of_length_le_one {B : List Byte} (h : B.length ≤ 1) : B.reverse = B := by
  match B with
  | [] => rfl
  | [b] => rfl

/-- Equal bytes give equal words in both byte orders, wherever they are taken. -/
theorem bufferWord_replicate (n : Nat) (x : Byte) (p : Nat) :
    bufferWord true (List.replicate n x) p = bufferWord false (List.replicate n x) p :=
  assemble_of_palindrome (by rw [List.drop_replicate, List.take_replicate, List.reverse_replicate])

theorem bufferBlock_replicate {n j : Nat} (x : Byte) (h : j < n / 32) :
    bufferBlock true (List.replicate n x) j = bufferBlock false (List.replicate n x) j := by
  have hword : ∀ p, p + 8 ≤ n → bufferWord true (List.replicate n x) p = assemble false (List.replicate 8 x) :=
    fun p hp => by
      rw [bufferWord_replicate, bufferWord, List.drop_replicate, List.take_replicate, min_eq_left (by omega)]
  simp only [bufferBlock, ← bufferWord_replicate, hword _ (show 32 * j + 8 ≤ n by omega), hword (32 * j + 8) (by omega),
    hword (32 * j + 16) (by omega), hword (32 * j + 24) (by omega)]
  rfl

/-- Settles O58: below 32 bytes the CRC form differs only in lanes that nothing reads, and the byte order shows only in the block
words and the tail words. -/
theorem digestsCoincideWhereTheFormulasDo : Obligations.DigestsCoincideWhereTheFormulasDo := by
  intro cfg seed
  have hboth : ∀ B : List Byte, (∀ j, j < B.length / 32 → bufferBlock true B j = bufferBlock false B j) →
      bufferTail true B = bufferTail false B →
      h64 cfg true B seed = h64 cfg false B seed ∧ h32 cfg true B seed = h32 cfg false B seed := fun B hblock htail =>
    have h := h64_congr cfg seed hblock htail
    ⟨h, congrArg (fold32 cfg.pf) h⟩
  refine ⟨fun B hB => hcrc_eq_h64_of_no_blocks cfg (by omega) seed,
    fun B hblock htail => hboth B hblock (bufferTail_of_palindromes htail), fun B hB => ?_, fun n x => ?_⟩
  · refine hboth B (fun j hj => by omega) (bufferTail_of_palindromes fun i _ => reverse_of_length_le_one ?_)
    simp only [List.length_take, List.length_drop]
    omega
  · refine hboth _ (fun j hj => bufferBlock_replicate x (by simpa using hj)) ?_
    exact List.map_congr_left fun i _ => bufferWord_replicate n x _

end Sys2Proof.Machine
end

section
/-! # The 32-bit fold

Proofs of the statements of 45_narrow32: `fold32`, `FOLD32`, and that a narrowing command's digest is the fold of its parent's.

## `fold32` and `FOLD32` -/

namespace Sys2Proof.Machine

theorem fold32_toNat (pf h : Word) :
    (fold32 pf h).toNat = ((mux64 h pf).toNat / 2 ^ 32) ^^^ ((mux64 h pf).toNat % 2 ^ 32) := by
  have hhi : (mux64 h pf).toNat / 2 ^ 32 < 2 ^ 32 := Nat.div_lt_of_lt_mul (mux64 h pf).isLt
  rw [fold32, BitVec.toNat_xor, BitVec.extractLsb'_toNat, BitVec.extractLsb'_toNat, Nat.shiftRight_zero,
    Nat.shiftRight_eq_div_pow, Nat.mod_eq_of_lt hhi]

/-- The upper half of the product with all ones is `p - 1`, and the lower half is its complement. -/
theorem mux64_allOnes_left {p : Word} (h : p ≠ 0) : mux64 (BitVec.allOnes 64) p = BitVec.allOnes 64 := by
  apply BitVec.eq_of_toNat_eq
  have hpos : 0 < p.toNat := BitVec.toNat_pos_of_ne_zero h
  have hlt : p.toNat < 2 ^ 64 := p.isLt
  have hpred : (p - 1).toNat = p.toNat - 1 := by bv_omega
  have hnot : (~~~(p - 1)).toNat = 2 ^ 64 - p.toNat := by rw [BitVec.toNat_not, hpred]; omega
  have hprod : (BitVec.allOnes 64).toNat * p.toNat = (~~~(p - 1)).toNat + 2 ^ 64 * (p - 1).toNat := by
    rw [hnot, hpred, BitVec.toNat_allOnes]; omega
  rw [mux64_toNat, hprod, Nat.add_mul_mod_self_left, Nat.add_mul_div_left _ _ (by decide),
    Nat.mod_eq_of_lt (~~~(p - 1)).isLt, Nat.div_eq_of_lt (~~~(p - 1)).isLt, Nat.zero_add, ← BitVec.toNat_xor,
    ← BitVec.not_xor_left, BitVec.xor_self, BitVec.not_zero]

/-- Settles O41: `mux64` takes 0 to 0 and all ones, under any multiplier but 0, to all ones, and the halves of either cancel. -/
theorem fold32FoldsTheHalves : Obligations.Fold32FoldsTheHalves := by
  refine fun h pf => ⟨fold32_toNat pf h, ?_, fun hodd => ?_, fun _ _ _ _ => rfl⟩
  · rw [fold32, mux64_zero_left]; rfl
  · have hne : pf ≠ 0 := by rintro rfl; cases hodd
    change fold32 pf (BitVec.allOnes 64) = 0
    rw [fold32, mux64_allOnes_left hne]; rfl

/-- Settles O29: `FOLD32` completes the call with the fold, whose 32 bits the widening keeps. -/
theorem fold32NarrowsTheDigest : Obligations.Fold32NarrowsTheDigest := by
  refine fun s => ⟨rfl, fun t h => ?_⟩
  cases h
  have hwiden : ((fold32 s.cfg.pf s.digest).setWidth 64).toNat = (fold32 s.cfg.pf s.digest).toNat :=
    BitVec.toNat_setWidth_of_le (by decide)
  exact ⟨hwiden.trans_lt (fold32 s.cfg.pf s.digest).isLt, BitVec.setWidth_setWidth_of_le _ (by decide)⟩

end Sys2Proof.Machine
end

section
/-! ## A narrowing command and its parent -/

namespace Sys2Proof.Machine

/-- `op'` is the opcode of the narrowing command whose parent has the opcode `op` (45_narrow32 R132, R133). -/
structure Narrows (op op' : BitVec 3) : Prop where
  crc : varCrc op = false
  crc' : varCrc op' = false
  narrow : varNarrow op = false
  narrow' : varNarrow op' = true
  be : varBe op' = varBe op

theorem Narrows.callSteps_eq {op op' : BitVec 3} (h : Narrows op op') (len : Nat) :
    callSteps len op' = callSteps len op + 1 := by
  simp [callSteps, h.narrow, h.narrow']

theorem Narrows.callDigest_eq {op op' : BitVec 3} (h : Narrows op op') (cfg : Config) (B : List Byte) (seed : Word) :
    callDigest cfg op' B seed = (fold32 cfg.pf (callDigest cfg op B seed)).setWidth 64 := by
  simp [callDigest, h32, h.crc, h.crc', h.narrow, h.narrow', h.be]

/-- A command placed as the only move of an idle block, with an empty schedule (log 8), runs to its digest. -/
theorem runSteps_of_placedCommand {s : State} {w : Word} {B : List Byte} (hp : s.phase = .idle)
    (hw : LegalCommand s.cfg w) (hB : HoldsBuffer s s.ptr s.len B) (hs : s.sched = []) :
    ∃ t, runSteps (1 + callSteps B.length (cmdOp w)) { s with moves := [.write 3 64 w] } = .next t ∧ t.done = true ∧
      t.phase = .idle ∧ t.digest = callDigest s.cfg (cmdOp w) B s.seed := by
  obtain ⟨t, hrun, ht⟩ :=
    runSteps_of_start (s := { s with moves := [.write 3 64 w] }) hp hw hB rfl hs le_rfl
  have hidle : t.phase = .idle := ht.idle_iff.mpr rfl
  have hlen : B.length = s.len.toNat := hB.1
  exact ⟨t, hlen ▸ hrun, ht.calling.done.mpr hidle, hidle, ht.digest_of_end⟩

/-- Settles O59: the narrowing call takes one step more, which folds the digest of the same bytes and seed (log 8). -/
theorem narrowingIsTheFoldOfTheParent : Obligations.NarrowingIsTheFoldOfTheParent := by
  intro s B parent narrow hpair hp hB hs
  obtain ⟨hparent, hnarrow, hops⟩ :
      LegalCommand s.cfg parent ∧ LegalCommand s.cfg narrow ∧ Narrows (cmdOp parent) (cmdOp narrow) := by
    rcases hpair with ⟨rfl, rfl⟩ | ⟨rfl, rfl⟩
    · exact ⟨.inl rfl, .inr (.inr (.inl rfl)), ⟨rfl, rfl, rfl, rfl, rfl⟩⟩
    · exact ⟨.inr (.inl rfl), .inr (.inr (.inr (.inl rfl))), ⟨rfl, rfl, rfl, rfl, rfl⟩⟩
  obtain ⟨t, hrun, hdone, hidle, hdig⟩ := runSteps_of_placedCommand hp hparent hB hs
  obtain ⟨u, hrun', hdone', hidle', hdig'⟩ := runSteps_of_placedCommand hp hnarrow hB hs
  have hsteps : 1 + callSteps B.length (cmdOp narrow) = 2 + callSteps B.length (cmdOp parent) := by
    rw [hops.callSteps_eq]; omega
  refine ⟨t, u, hrun, hsteps ▸ hrun', hdone, hdone', hidle, hidle', ?_⟩
  rw [hdig, hdig', hops.callDigest_eq]

end Sys2Proof.Machine
end

section
/-! # The CRC-32C block absorber

Proofs of the statements of 46_crc32: the checksum primitives and `CRCBLOCK`. -/

namespace Sys2Proof.Machine

/-- The shifts of `crc32c_u8` are `crcShift` iterated (46_crc32 R140). -/
theorem crcShifts_eq_iterate (n : Nat) (c : Half) : crcShifts n c = crcShift^[n] c := by
  induction n generalizing c with
  | zero => rfl
  | succ n ih => rw [crcShifts, ih, Function.iterate_succ_apply]

/-- The bytes of a word by name, least significant first (46_crc32 R141). -/
theorem wordBytes_eq (w : Word) :
    wordBytes w =
      [w.extractLsb' 0 8, w.extractLsb' 8 8, w.extractLsb' 16 8, w.extractLsb' 24 8, w.extractLsb' 32 8,
        w.extractLsb' 40 8, w.extractLsb' 48 8, w.extractLsb' 56 8] := rfl

/-- Settles O42: eight shifts are eight iterations, and the fold over the bytes of a word is eight updates. -/
theorem crcPrimitives : Obligations.CrcPrimitives := by
  refine ⟨fun c x => crcShifts_eq_iterate 8 (c ^^^ x.setWidth 32), fun c w => ?_⟩
  rw [crc32cU64, wordBytes_eq]
  simp only [List.foldl_cons, List.foldl_nil]

/-- The lanes of a CRC block as R143 writes them, the halves truncated. -/
theorem crcBlock_eq (cfg : Config) (l : Lanes) (w : Block) :
    crcBlock cfg l w =
      { a := rot64 l.a cfg.s1 + cfg.p0 * w.w0
        b := l.b
        c := l.c + (crc32cU64 (l.d.setWidth 32) w.w1).setWidth 64
        d := l.d + (crc32cU64 (l.e.setWidth 32) w.w2).setWidth 64
        e := l.e + (crc32cU64 ((l.a + l.c).setWidth 32) w.w3).setWidth 64 } := by
  have htrunc : ∀ v : Word, v.setWidth 32 = v.extractLsb' 0 32 := fun _ => BitVec.setWidth_eq_extractLsb' (by decide)
  simp only [crcBlock, htrunc]

/-- Settles O25: the fetch of 32 readable bytes answers, in the byte order of `VAR[0]` (log 32), and `crcBlock` holds the
formulas; where fewer than 32 bytes are left, which R143 leaves out, the model fetches all the same (log 17). -/
theorem crcblockAbsorbsABlock : Obligations.CrcblockAbsorbsABlock := by
  intro s h
  rcases execCrcblock_cases s with ⟨w, hw, hexec⟩ | ⟨e, herr, -⟩
  · rw [crcBlock_eq] at hexec
    exact ⟨w, hw, hexec⟩
  · obtain ⟨w, hw⟩ := fetchBlock_of_readable (s := s) h
    cases herr.symm.trans hw

end Sys2Proof.Machine
end

section
/-! # Exceptional events

Proofs of the statements of 60_exceptions: a host that reads and polls does not disturb a call. -/

namespace Sys2Proof.Machine

/-- What every step of a machine keeps, a run that answers keeps. -/
theorem run_preserves {M : Host.Core} {P : M.State → Prop} (hstep : ∀ s t, P s → M.step s = .next t → P t)
    {s t : M.State} {k : Nat} (hs : P s) (h : M.run k s = .next t) : P t := by
  induction k generalizing s with
  | zero => cases h; exact hs
  | succ k ih =>
    rw [Host.Core.run] at h
    cases hu : M.step s with
    | next u => rw [hu] at h; exact ih (hstep s u hs hu) h
    | fault r => rw [hu] at h; cases h
    | refused r => rw [hu] at h; cases h

theorem runSteps_preserves {P : State → Prop} (hstep : ∀ s t, P s → step s = .next t → P t) {s t : State} {k : Nat}
    (hs : P s) (h : runSteps k s = .next t) : P t :=
  run_preserves (M := Sys2Proof.core) hstep hs h

/-- A read or a poll changes the host's side only, and of the pending moves only that a poll may stay (30_encoding R59). -/
theorem hostMove_of_onlyObserves {s t : State} {m : HostMove} (hm : onlyObserves m = true) (h : hostMove m s = .next t) :
    t = { s with moves := t.moves, replies := t.replies, draws := t.draws } ∧
      (t.moves = s.moves ∨ t.moves = m :: s.moves) := by
  cases m with
  | read n bits =>
    obtain ⟨-, r, rfl⟩ := hostMove_read_next h
    rw [hostRead_frame]
    exact ⟨rfl, .inl rfl⟩
  | wait =>
    rcases Bool.eq_false_or_eq_true s.done with hd | hd
    · cases ((waitPollsStatusUntilDone s).1 hd).symm.trans h
      exact ⟨rfl, .inl rfl⟩
    · cases ((waitPollsStatusUntilDone s).2 hd).symm.trans h
      exact ⟨rfl, .inr rfl⟩
  | write | reset | store => cases hm

/-- A call on the buffer `B`, under way or just ended, with the host's moves all reads and polls and any schedule: memory is `M`
and the digest the call leaves is `d` (60_exceptions R165, 44_variants64 R119). -/
structure Observed (B : List Byte) (M : List Host.Cell) (d : Word) (s : State) : Prop where
  inv : CallInv s
  held : BufferHeld s B
  done : s.done = true ↔ s.phase = .idle
  observers : ∀ m ∈ s.moves, onlyObserves m = true
  mem : s.mem = M
  digest : digestAhead s B = d

section Observed

variable {B : List Byte} {M : List Host.Cell} {d : Word} {s t : State}

/-- Whose turn it is, what the host has read and which reads and polls are pending makes no difference to the call. -/
theorem observed_hostSide (hs : Observed B M d s) {ms : List HostMove} (hm : ∀ m ∈ ms, onlyObserves m = true)
    (sc : List Agent) (rs : List (Nat × Word)) (n : Nat) :
    Observed B M d { s with moves := ms, sched := sc, replies := rs, draws := n } where
  inv := hs.inv
  held := ⟨hs.held.length, hs.held.bytes, hs.held.past, fun _ _ _ hstore => Bool.false_ne_true (hm _ hstore)⟩
  done := hs.done
  observers := hm
  mem := hs.mem
  digest := hs.digest

/-- The engine's step is one of the call's own, or none once the call has ended. -/
theorem observed_engineStep (hs : Observed B M d s) (h : engineStep s = .next t) : Observed B M d t := by
  by_cases hp : s.phase = .idle
  · cases (engineStep_of_idle hp).symm.trans h
    exact hs
  · obtain ⟨-, hmoves, -⟩ := engineStep_hostSide h
    obtain ⟨-, hmem, -⟩ := engineStep_cfg_mem_var h
    exact {
      inv := callInv_engineStep hs.inv h
      held := bufferHeld_engineStep hs.held h
      done := doneIffIdle_engineStep hs.done hp h
      observers := hmoves ▸ hs.observers
      mem := hmem.trans hs.mem
      digest := (digestAhead_engineStep hs.held hs.inv h).trans hs.digest }

theorem observed_hostMove {m : HostMove} (hs : Observed B M d s) (hm : onlyObserves m = true)
    (h : hostMove m s = .next t) : Observed B M d t := by
  obtain ⟨ht, hmoves⟩ := hostMove_of_onlyObserves hm h
  have hpending : ∀ m' ∈ t.moves, onlyObserves m' = true := by
    rcases hmoves with hmoves | hmoves <;> rw [hmoves]
    · exact hs.observers
    · exact List.forall_mem_cons.mpr ⟨hm, hs.observers⟩
  rw [ht]
  exact observed_hostSide hs hpending _ _ _

/-- Whoever moves, the call goes on to the same digest. -/
theorem observed_step (hs : Observed B M d s) (h : step s = .next t) : Observed B M d t := by
  rcases step_next_cases h with h | ⟨m, ms, hm, h⟩
  · exact observed_engineStep (observed_hostSide hs hs.observers s.sched.tail s.replies s.draws) h
  · obtain ⟨hmove, hrest⟩ := List.forall_mem_cons.mp (hm ▸ hs.observers)
    exact observed_hostMove (observed_hostSide hs hrest s.sched.tail s.replies s.draws) hmove h

theorem Observed.digest_of_idle (hs : Observed B M d s) (hp : s.phase = .idle) : s.digest = d :=
  (digestAhead_idle hp).symm.trans hs.digest

end Observed

/-- An accepted `START` in contract, with reads and polls pending, begins such a call; its digest is the big-step digest. -/
theorem observed_acceptStart {s : State} {w : Word} {B : List Byte} {ms : List HostMove} (hc : InContract s w B)
    (hm : ∀ m ∈ ms, onlyObserves m = true) (sc : List Agent) :
    Observed B s.mem (callDigest s.cfg (cmdOp w) B s.seed) { acceptStart s w with moves := ms, sched := sc } := by
  have hstores : ∀ a b, HostMove.store a b ∉ ms := fun a b hstore => Bool.false_ne_true (hm _ hstore)
  have hcall : Calling (acceptStart { s with moves := ms, sched := [] } w) B :=
    calling_acceptStart (s := { s with moves := ms, sched := [] }) hc.buffer hstores rfl
  have hdig : digestAhead (acceptStart { s with moves := ms, sched := [] } w) B = callDigest s.cfg (cmdOp w) B s.seed :=
    digestAhead_acceptStart (s := { s with moves := ms, sched := [] }) hc.legal hc.buffer.1
  exact observed_hostSide ⟨hcall.inv, hcall.held, hcall.done, hm, rfl, hdig⟩ hm sc s.replies s.draws

/-- Settles O55: every step keeps memory and the digest ahead, which is `DIGEST` itself when the call has ended (log 8). -/
theorem interleavingDoesNotChangeTheDigest : Obligations.InterleavingDoesNotChangeTheDigest := by
  intro s t w B ms sc k hc hm hrun hdone
  have ht : Observed B s.mem (callDigest s.cfg (cmdOp w) B s.seed) t :=
    runSteps_preserves (fun _ _ => observed_step) (observed_acceptStart hc hm sc) hrun
  have hidle : t.phase = .idle := ht.done.mp hdone
  exact ⟨hidle, ht.mem, ht.digest_of_idle hidle⟩

end Sys2Proof.Machine
end

section
/-! # Reset and hazards

Proofs of the statements of 70_reset_and_hazards: what the reset event leaves, and that a call whose host keeps the contract
(R183) ends in its digest. -/

namespace Sys2Proof.Machine

/-- Settles O2: the step is the reset event, whatever the phase, and an idle block accepts `START`. -/
theorem resetEventLeavesTheBlockIdle : Obligations.ResetEventLeavesTheBlockIdle := by
  intro s ms sc hm hs
  have hturn : turn s = .host := (turn_iff s).mpr (by rw [hs]; rfl)
  exact ⟨resetEvent ((afterTurn s).setMoves ms), step_of_hostTurn hm hturn, rfl, rfl,
    BitVec.eq_of_toNat_eq (statusWord_toNat _), rfl, rfl, rfl, congrArg List.tail hs,
    fun w hw => ⟨acceptStart _ w, hostMove_write_cmd_of_legal rfl hw, rfl, rfl⟩⟩

theorem run_of_refused {M : Host.Core} {s : M.State} {r : M.Refusal} (h : M.step s = .refused r) (k : Nat) :
    M.run (k + 1) s = .refused r := by
  rw [Host.Core.run, h]

theorem runSteps_of_refused {s : State} {r : Refusal} (h : step s = .refused r) (k : Nat) :
    runSteps (k + 1) s = .refused r :=
  run_of_refused (M := Sys2Proof.core) h k

/-! What a host move does during a call. -/

theorem hostMove_store_next {s t : State} {a : Nat} {b : Byte} (h : hostMove (.store a b) s = .next t) :
    t = storeByte s a b := by
  simp only [hostMove] at h
  split at h <;> cases h
  rfl

/-- During a call a host move other than the reset event writes memory, or changes the host's side only and of the pending
moves only that a poll may stay (10_state R24, 30_encoding R59). -/
theorem hostMove_of_busy {s t : State} {m : HostMove} (hp : s.phase ≠ .idle) (hm : m ≠ .reset)
    (h : hostMove m s = .next t) :
    (t = { s with moves := t.moves, replies := t.replies, draws := t.draws } ∧
      (t.moves = s.moves ∨ t.moves = m :: s.moves)) ∨ ∃ a b, m = .store a b ∧ t = storeByte s a b := by
  cases m with
  | write n bits v =>
    obtain ⟨-, r, hr⟩ := hostMove_write_next h
    cases (hostWrite_of_busy hp r v).symm.trans hr
    exact .inl ⟨rfl, .inl rfl⟩
  | read n bits => exact .inl (hostMove_of_onlyObserves rfl h)
  | wait => exact .inl (hostMove_of_onlyObserves rfl h)
  | reset => exact absurd rfl hm
  | store a b => exact .inr ⟨a, b, rfl, hostMove_store_next h⟩

/-- A host move during a call answers or is refused by name (logs 27, 36). -/
theorem hostMove_outcome_of_busy {s : State} (hp : s.phase ≠ .idle) (m : HostMove) :
    (∃ t, hostMove m s = .next t) ∨ ∃ r, hostMove m s = .refused r := by
  cases m with
  | write n bits v =>
    simp only [hostMove]
    split
    · exact .inr ⟨_, rfl⟩
    · split
      · exact .inr ⟨_, rfl⟩
      · exact .inl ⟨_, hostWrite_of_busy hp _ v⟩
  | read n bits =>
    simp only [hostMove]
    split
    · exact .inr ⟨_, rfl⟩
    · split
      · exact .inr ⟨_, rfl⟩
      · exact .inl ⟨_, rfl⟩
  | wait => exact .inl ⟨_, rfl⟩
  | reset => exact .inl ⟨_, rfl⟩
  | store a b =>
    simp only [hostMove]
    split
    · exact .inl ⟨_, rfl⟩
    · exact .inr ⟨_, rfl⟩

/-- A write of memory is late, if at all, at the byte written only. -/
theorem mem_lateAfter_other (s : State) {a k : Nat} (h : k ≠ a) : k ∈ lateAfter s a ↔ k ∈ s.late := by
  unfold lateAfter
  split
  · simp [h]
  · rfl

/-- A write of memory outside the buffer leaves the buffer (70_reset_and_hazards R183 P5). -/
theorem bufferHeld_storeByte {s : State} {B : List Byte} (hb : BufferHeld s B) {a : Nat}
    (ha : ∀ i, i < B.length → s.ptr.toNat + i ≠ a) (b : Byte) : BufferHeld (storeByte s a b) B where
  length := hb.length
  bytes i hi := by
    rw [storeByte_mem, storeByte_ptr, memByte_memPut_other _ _ _ _ (ha i hi)]
    exact hb.bytes i hi
  past i hi := ⟨(lostAt_overwrittenAfter_other (ha i hi) s).trans (hb.past i hi).1,
    mt (mem_lateAfter_other s (ha i hi)).mp (hb.past i hi).2⟩
  coming := hb.coming

/-- A call on the buffer `B`, started in `s₀`, under way or just ended, whose host keeps the contract with any schedule: the
operands are those of `s₀` and the digest the call leaves is `d` (70_reset_and_hazards R183). -/
structure Contracted (s₀ : State) (B : List Byte) (d : Word) (s : State) : Prop where
  inv : CallInv s
  held : BufferHeld s B
  done : s.done = true ↔ s.phase = .idle
  keeps : ∀ m ∈ s.moves, KeepsContract s₀ m
  operands : s.ptr = s₀.ptr ∧ s.len = s₀.len ∧ s.seed = s₀.seed
  digest : digestAhead s B = d

/-- The turns before the call has ended at the latest: those the schedule still gives and the engine steps left to the call
(70_reset_and_hazards R187; log 8). -/
def turnsLeft (s : State) : Nat := s.sched.length + stepsLeft s

section Contracted

variable {s₀ s t : State} {B : List Byte} {d : Word}

theorem Contracted.inWindow_iff (hs : Contracted s₀ B d s) (a : Nat) :
    InWindow s₀ a ↔ ∃ i < B.length, s.ptr.toNat + i = a := by
  obtain ⟨hptr, hlen, -⟩ := hs.operands
  rw [InWindow, hs.held.length, hptr, hlen]
  exact ⟨fun h => ⟨a - s₀.ptr.toNat, by omega⟩, fun ⟨i, hi⟩ => by omega⟩

/-- The window is as it was at `START`. -/
theorem Contracted.window (hs : Contracted s₀ B d s) (hB : HoldsBuffer s₀ s₀.ptr s₀.len B) {a : Nat}
    (ha : InWindow s₀ a) : memByte s.mem a = memByte s₀.mem a := by
  obtain ⟨i, hi, rfl⟩ := (hs.inWindow_iff a).mp ha
  obtain ⟨-, -, hbytes⟩ := hB
  rw [(hs.held.bytes i hi).2, hs.operands.1, hbytes i hi]

/-- Whose turn it is, what the host has read and which moves that keep the contract are pending makes no difference to the
call. -/
theorem contracted_hostSide (hs : Contracted s₀ B d s) {ms : List HostMove} (hm : ∀ m ∈ ms, KeepsContract s₀ m)
    (sc : List Agent) (rs : List (Nat × Word)) (n : Nat) :
    Contracted s₀ B d { s with moves := ms, sched := sc, replies := rs, draws := n } where
  inv := hs.inv
  held := ⟨hs.held.length, hs.held.bytes, hs.held.past,
    fun i hi _ hstore => hm _ hstore ((hs.inWindow_iff _).mpr ⟨i, hi, rfl⟩)⟩
  done := hs.done
  keeps := hm
  operands := hs.operands
  digest := hs.digest

theorem contracted_engineStep (hs : Contracted s₀ B d s) (hp : s.phase ≠ .idle) (h : engineStep s = .next t) :
    Contracted s₀ B d t := by
  obtain ⟨-, hlen, -, -, hmoves, -⟩ := eq_of_engineFrame_eq (engineFrame_engineStep h)
  obtain ⟨hptr, hseed⟩ := ptr_seed_of_engineFrame_eq (engineFrame_engineStep h)
  exact {
    inv := callInv_engineStep hs.inv h
    held := bufferHeld_engineStep hs.held h
    done := doneIffIdle_engineStep hs.done hp h
    keeps := hmoves ▸ hs.keeps
    operands := by rw [hptr, hlen, hseed]; exact hs.operands
    digest := (digestAhead_engineStep hs.held hs.inv h).trans hs.digest }

theorem contracted_storeByte (hs : Contracted s₀ B d s) {a : Nat} (ha : ¬ InWindow s₀ a) (b : Byte) :
    Contracted s₀ B d (storeByte s a b) where
  inv := hs.inv
  held := bufferHeld_storeByte hs.held (fun i hi heq => ha ((hs.inWindow_iff a).mpr ⟨i, hi, heq⟩)) b
  done := hs.done
  keeps := hs.keeps
  operands := hs.operands
  digest := hs.digest

/-- A host move that keeps the contract leaves the call, the steps left to it and the schedule. -/
theorem contracted_hostMove {m : HostMove} (hs : Contracted s₀ B d s) (hp : s.phase ≠ .idle) (hm : KeepsContract s₀ m)
    (h : hostMove m s = .next t) : Contracted s₀ B d t ∧ stepsLeft t = stepsLeft s ∧ t.sched = s.sched := by
  have hreset : m ≠ .reset := by rintro rfl; exact hm
  rcases hostMove_of_busy hp hreset h with ⟨ht, hmoves⟩ | ⟨a, b, rfl, rfl⟩
  · have hpending : ∀ m' ∈ t.moves, KeepsContract s₀ m' := by
      rcases hmoves with hmoves | hmoves <;> rw [hmoves]
      · exact hs.keeps
      · exact List.forall_mem_cons.mpr ⟨hm, hs.keeps⟩
    rw [ht]
    exact ⟨contracted_hostSide hs hpending _ _ _, rfl, rfl⟩
  · exact ⟨contracted_storeByte hs hm b, rfl, rfl⟩

theorem contracted_afterTurn (hs : Contracted s₀ B d s) : Contracted s₀ B d (afterTurn s) :=
  contracted_hostSide hs hs.keeps s.sched.tail s.replies s.draws

/-- The engine's turn in a call is one of the steps left to it. -/
theorem contracted_engineTurn (hs : Contracted s₀ B d s) (hp : s.phase ≠ .idle) :
    ∃ t, engineStep (afterTurn s) = .next t ∧ Contracted s₀ B d t ∧ turnsLeft t < turnsLeft s := by
  have hs' := contracted_afterTurn hs
  obtain ⟨t, h⟩ := engineStep_of_bufferHeld hs'.held hs'.inv
  have hleft : stepsLeft s = stepsLeft t + 1 := stepsLeft_engineStep (s := afterTurn s) hs'.inv hp h
  have hsched : t.sched.length = s.sched.length - 1 := by
    rw [(engineStep_hostSide h).2.2, afterTurn_sched, List.length_tail]
  exact ⟨t, h, contracted_engineStep hs' hp h, by unfold turnsLeft; omega⟩

/-- The host's turn in a call is one of the schedule, or its move is refused. -/
theorem contracted_hostTurn {m : HostMove} {ms : List HostMove} (hs : Contracted s₀ B d s) (hp : s.phase ≠ .idle)
    (hms : s.moves = m :: ms) (ht : turn s = .host) :
    (∃ r, hostMove m ((afterTurn s).setMoves ms) = .refused r) ∨
      ∃ t, hostMove m ((afterTurn s).setMoves ms) = .next t ∧ Contracted s₀ B d t ∧ turnsLeft t < turnsLeft s := by
  obtain ⟨hkeep, hrest⟩ := List.forall_mem_cons.mp (hms ▸ hs.keeps)
  have hs' : Contracted s₀ B d ((afterTurn s).setMoves ms) :=
    contracted_hostSide hs hrest s.sched.tail s.replies s.draws
  refine (hostMove_outcome_of_busy (s := (afterTurn s).setMoves ms) hp m).symm.imp id ?_
  rintro ⟨t, h⟩
  obtain ⟨hct, hleft, hsched⟩ := contracted_hostMove hs' hp hkeep h
  obtain ⟨sc, hsc⟩ : ∃ sc, s.sched = .host :: sc := List.head?_eq_some_iff.mp ((turn_iff s).mp ht)
  have hsched : t.sched = sc := by rw [hsched, State.setMoves_sched, afterTurn_sched, hsc, List.tail_cons]
  refine ⟨t, h, hct, ?_⟩
  rw [turnsLeft, hleft, hsched, turnsLeft, hsc, List.length_cons]
  exact Nat.add_lt_add_right (Nat.lt_succ_self _) _

/-- Until the call has ended each step keeps it and uses up a turn of it, or is a refused host move (60_exceptions R165). -/
theorem step_of_contracted (hs : Contracted s₀ B d s) (hp : s.phase ≠ .idle) :
    (∃ r, step s = .refused r) ∨ ∃ t, step s = .next t ∧ Contracted s₀ B d t ∧ turnsLeft t < turnsLeft s := by
  rcases step_cases s with ⟨-, hstep⟩ | ⟨_, _, -, -, -, hstep⟩ | ⟨m, ms, hms, hwho, hstep⟩
  · rw [hstep]; exact .inr (contracted_engineTurn hs hp)
  · rw [hstep]; exact .inr (contracted_engineTurn hs hp)
  · obtain ⟨t, ht, -⟩ := contracted_engineTurn hs hp
    have henabled : engineEnabled (afterTurn s) = true := (engineEnabled_iff _).mpr ⟨hp, t, ht⟩
    rw [hstep]
    exact contracted_hostTurn hs hp hms (hwho.resolve_right (by simp [henabled]))

theorem Contracted.phase_ne_idle (hs : Contracted s₀ B d s) (hd : s.done = false) : s.phase ≠ .idle :=
  fun hp => by simp [hs.done.mpr hp] at hd

/-- The call ends within the turns left to it, unless a host move is refused. -/
theorem runSteps_ends_of_contracted {n : Nat} (hs : Contracted s₀ B d s) (hn : turnsLeft s ≤ n) :
    ∃ j, j ≤ n ∧ ((∃ u, runSteps j s = .next u ∧ u.done = true) ∨ ∃ r, runSteps j s = .refused r) := by
  induction n generalizing s with
  | zero =>
    have hp : s.phase = .idle := by
      by_contra hp
      have := stepsLeft_pos hp
      unfold turnsLeft at hn
      omega
    exact ⟨0, le_rfl, .inl ⟨s, rfl, hs.done.mpr hp⟩⟩
  | succ n ih =>
    by_cases hp : s.phase = .idle
    · exact ⟨0, Nat.zero_le _, .inl ⟨s, rfl, hs.done.mpr hp⟩⟩
    rcases step_of_contracted hs hp with ⟨r, hr⟩ | ⟨t, ht, hct, hlt⟩
    · exact ⟨1, by omega, .inr ⟨r, runSteps_of_refused hr 0⟩⟩
    · obtain ⟨j, hj, hend⟩ := ih hct (by omega)
      exact ⟨j + 1, by omega, by rwa [runSteps_succ ht]⟩

/-- Up to and with the step that ends the call, a run keeps the call. -/
theorem contracted_runSteps {k : Nat} (hs : Contracted s₀ B d s) (h : runSteps k s = .next t)
    (hd : ∀ j u, j < k → runSteps j s = .next u → u.done = false) : Contracted s₀ B d t := by
  induction k generalizing s with
  | zero => cases h; exact hs
  | succ k ih =>
    rcases step_of_contracted hs (hs.phase_ne_idle (hd 0 s k.succ_pos rfl)) with ⟨r, hr⟩ | ⟨u, hu, hcu, -⟩
    · cases (runSteps_of_refused hr k).symm.trans h
    · rw [runSteps_succ hu] at h
      exact ih hcu h fun j v hj hv => hd (j + 1) v (by omega) (by rwa [runSteps_succ hu])

end Contracted

/-- An accepted `START` in contract begins such a call; its digest is the big-step digest. -/
theorem contracted_acceptStart {s : State} {w : Word} {B : List Byte} {ms : List HostMove} (hc : InContract s w B)
    (hm : ∀ m ∈ ms, KeepsContract s m) (sc : List Agent) :
    Contracted s B (callDigest s.cfg (cmdOp w) B s.seed) { acceptStart s w with moves := ms, sched := sc } := by
  obtain ⟨inv, held, done, -, -, digest⟩ := observed_acceptStart (ms := []) hc (by simp) sc
  have hquiet : Contracted s B _ { acceptStart s w with moves := [], sched := sc } :=
    ⟨inv, held, done, by simp, ⟨rfl, rfl, rfl⟩, digest⟩
  exact contracted_hostSide hquiet hm sc s.replies s.draws

/-- Settles O60: each step of a call in contract keeps it and leaves less of it, and the digest ahead is `DIGEST` at its end
(logs 8, 27, 36). -/
theorem callInContractEndsInItsDigest : Obligations.CallInContractEndsInItsDigest := by
  intro s w B ms sc hc hm
  have hstart := contracted_acceptStart hc hm sc
  refine ⟨runSteps_ends_of_contracted hstart (Nat.add_le_add_left (stepsLeft_acceptStart s w).le _), fun k t hrun hd => ?_⟩
  have ht := contracted_runSteps hstart hrun hd
  obtain ⟨hptr, hlen, hseed⟩ := ht.operands
  exact ⟨hptr, hlen, hseed, fun a => ht.window hc.buffer, ht.done.symm,
    fun hdone => (digestAhead_idle (ht.done.mp hdone)).symm.trans ht.digest⟩

end Sys2Proof.Machine
end
